-- ==== Sys2Proof/Word.lean ====
section
/-! DEFINITION. The word types of ecc-cpp CORE and the plain data that commands and registers are made of:
register numbers, native integer types, BigInts, field elements and the ten fault names. -/

namespace Sys2Proof

/-- One digit-word of a magnitude, and one byte of the transfer buffer: `W = 8` (R5, R37). -/
abbrev Byte := BitVec 8

/-- A control and status register, and a scalar operand or result: 64 bits (R5, R31). -/
abbrev Dword := BitVec 64

/-- A command word (R70). -/
abbrev CmdWord := BitVec 32

/-- `W`, the width of one digit-word in bits (R5). -/
abbrev wordBits : Nat := 8

/-- `DW`, the width of the carry accumulator of the adder, multiplier and divider (R5). -/
abbrev accumulatorBits : Nat := 64

/-- The number of an integer register `x0 .. x15` (R21). -/
abbrev XReg := Fin 16

/-- The number of a field register `f0 .. f15` (R27). -/
abbrev FReg := Fin 16

/-- The width of a native integer, `imm12[1:0]` of LDN and CAST (R73). -/
inductive NativeWidth where
  | w8 | w16 | w32 | w64
deriving DecidableEq, Repr

/-- A native integer type `u8 .. s64`, the type code of LDN and CAST (R73, R80). -/
structure NativeType where
  /-- `imm12[2]`: signed or unsigned. -/
  signed : Bool
  width : NativeWidth
deriving DecidableEq, Repr

/-- A BigInt `(s, m)` (R8, R22): `sign` is false for POSITIVE (0) and true for NEGATIVE (1); `magnitude` is the
sequence of digit-words, index 0 least significant. -/
structure BigInt where
  sign : Bool
  magnitude : List Byte
deriving DecidableEq, Repr

/-- A FieldElement (R27): the residue and the field's modulus. -/
structure FieldElement where
  value : BigInt
  modulus : BigInt
deriving DecidableEq, Repr

/-- The ten faults a command can raise (R211). Raising one does not stop the unit: it is recorded in ERR and EFIRST
and the next command executes normally (R210, R223), so it is no `Machine.Fault`. -/
inductive CmdFault where
  | invalidBase | invalidDigit | divisionByZero | outOfRange | incompatibleField | domainError
  | illegalCommand | unwrittenRegister | capacityExceeded | bufferOverflow
deriving DecidableEq, Repr

end Sys2Proof
end

