-- ==== Sys2Proof/Syntax.lean ====
section
/-! DEFINITION. The 45 commands of the opcode map (R75), one constructor per row, operands in the assembler's order (R80):
destinations, sources, immediate. -/

namespace Sys2Proof

/-- A command of the CORE command set, version 1 (R75). -/
inductive Instr where
  -- construction (40_construction.md)
  | ldn (xd : XReg) (type : NativeType)
  | parse (xd : XReg) (base : Fin 4096)
  | parsed (xd : XReg) (base : Fin 4096)
  | ldm (xd : XReg) (negative : Bool)
  | mov (xd xs : XReg)
  -- comparison (41_comparison.md)
  | cmp (xa xb : XReg)
  -- adder/subtractor (42_addsub.md)
  | add (xd xa xb : XReg)
  | sub (xd xa xb : XReg)
  | neg (xd xs : XReg)
  -- multiplier (43_multiply.md)
  | mul (xd xa xb : XReg)
  -- divider (44_divide.md)
  | div (xd xa xb : XReg)
  | mod (xd xa xb : XReg)
  | divmod (xq xr xa xb : XReg)
  -- two's-complement view, shifter, bit queries (45_bitwise_shift.md)
  | and (xd xa xb : XReg)
  | or (xd xa xb : XReg)
  | xor (xd xa xb : XReg)
  | not (xd xs : XReg)
  | shl (xd xs : XReg)
  | shr (xd xs : XReg)
  | twos (xd xs : XReg)
  | fill (xd : XReg)
  | bits (xs : XReg)
  | bit (xs : XReg)
  -- conversion, serialisation, queries (46_conversion.md)
  | cast (xs : XReg) (type : NativeType)
  | str (xs : XReg) (base : Fin 4096)
  | stm (xs : XReg)
  | sign (xs : XReg)
  | bytes (xs : XReg)
  | digits (xs : XReg)
  -- FieldElement layer (47_field.md)
  | fnew (fd : FReg) (xa xb : XReg)
  | fadd (fd fa fb : FReg)
  | fsub (fd fa fb : FReg)
  | fmul (fd fa fb : FReg)
  | fsmul (fd fa : FReg) (xb : XReg)
  | fdiv (fd fa fb : FReg)
  | fpow (fd fa : FReg) (xb : XReg)
  | feq (fa fb : FReg)
  | fgetv (xd : XReg) (fa : FReg)
  | fgetm (xd : XReg) (fa : FReg)
  | fmov (fd fa : FReg)
  -- helpers (48_helpers.md)
  | abs (xd xs : XReg)
  | ilog (xd xa xb : XReg)
  | pow (xd xa xb : XReg)
  | powm (xd xa xb xm : XReg)
  -- system (60_exceptions.md)
  | clrerr
deriving DecidableEq, Repr

end Sys2Proof
end

