-- ==== Sys2Proof/WellFormed.lean ====
section
/-! DEFINITION. Which terms of `Instr` are commands. The types of the operands carry every bound of R71 to R73 (a register number
is below 16, a base below 4096, a type code below 8); the one check left is R77's: DIVMOD's two destinations differ. -/

namespace Sys2Proof

/-- A well-formed command (R77): every field value is legal but for `DIVMOD` with `ra = r4`. -/
def Instr.wellFormed : Instr → Bool
  | .divmod xq xr _ _ => xq != xr
  | .ldn _ _ | .parse _ _ | .parsed _ _ | .ldm _ _ | .mov _ _ | .cmp _ _ | .add _ _ _ | .sub _ _ _ | .neg _ _
  | .mul _ _ _ | .div _ _ _ | .mod _ _ _ | .and _ _ _ | .or _ _ _ | .xor _ _ _ | .not _ _ | .shl _ _ | .shr _ _
  | .twos _ _ | .fill _ | .bits _ | .bit _ | .cast _ _ | .str _ _ | .stm _ | .sign _ | .bytes _ | .digits _
  | .fnew _ _ _ | .fadd _ _ _ | .fsub _ _ _ | .fmul _ _ _ | .fsmul _ _ _ | .fdiv _ _ _ | .fpow _ _ _ | .feq _ _
  | .fgetv _ _ | .fgetm _ _ | .fmov _ _ | .abs _ _ | .ilog _ _ _ | .pow _ _ _ | .powm _ _ _ _ | .clrerr => true

end Sys2Proof
end

