-- ==== Sys2Proof/Decode.lean ====
section
/-! DEFINITION. The decoder (R70 to R79), total on 32-bit words and rejecting by name, and the encoder, both from the tables of
30_encoding.md: the fields of R71, the masks of R72, the opcode map of R75. -/

namespace Sys2Proof

/-! ## Fields (R71) and formats (R72) -/

/-- Opcode, bits 7:0. -/
def opField (cw : CmdWord) : BitVec 8 := cw.extractLsb' 0 8
/-- Destination register number, bits 11:8. -/
def raField (cw : CmdWord) : BitVec 4 := cw.extractLsb' 8 4
/-- First source register number, bits 15:12. -/
def rbField (cw : CmdWord) : BitVec 4 := cw.extractLsb' 12 4
/-- Second source register number, bits 19:16. -/
def rcField (cw : CmdWord) : BitVec 4 := cw.extractLsb' 16 4
/-- Unsigned immediate, bits 31:20. -/
def imm12Field (cw : CmdWord) : BitVec 12 := cw.extractLsb' 20 12
/-- Fourth register number, bits 23:20, the low four bits of `imm12`. -/
def r4Field (cw : CmdWord) : BitVec 4 := (imm12Field cw).extractLsb' 0 4

/-- The twelve formats (R72). -/
inductive Format where
  | Z | D | DI12 | DI3 | DI1 | DS | S | SI12 | SI3 | SS | DSS | DSSR
deriving DecidableEq, Repr

/-- The mask of a format's fixed bits (R72): the opcode and every bit that must be zero. -/
def Format.mask : Format → CmdWord
  | .Z => 0xFFFFFFFF
  | .D => 0xFFFFF0FF
  | .DI12 => 0x000FF0FF
  | .DI3 => 0xFF8FF0FF
  | .DI1 => 0xFFEFF0FF
  | .DS => 0xFFFF00FF
  | .S => 0xFFFF0FFF
  | .SI12 => 0x000F0FFF
  | .SI3 => 0xFF8F0FFF
  | .SS => 0xFFF00FFF
  | .DSS => 0xFFF000FF
  | .DSSR => 0xFF0000FF

/-! ## The opcode map (R75) -/

/-- The opcode of a command (R75, column `op`). -/
def Instr.opcode : Instr → BitVec 8
  | .ldn _ _ => 0x01
  | .parse _ _ => 0x02
  | .parsed _ _ => 0x03
  | .ldm _ _ => 0x04
  | .mov _ _ => 0x05
  | .cmp _ _ => 0x10
  | .add _ _ _ => 0x20
  | .sub _ _ _ => 0x21
  | .neg _ _ => 0x22
  | .mul _ _ _ => 0x30
  | .div _ _ _ => 0x40
  | .mod _ _ _ => 0x41
  | .divmod _ _ _ _ => 0x42
  | .and _ _ _ => 0x50
  | .or _ _ _ => 0x51
  | .xor _ _ _ => 0x52
  | .not _ _ => 0x53
  | .shl _ _ => 0x54
  | .shr _ _ => 0x55
  | .twos _ _ => 0x56
  | .fill _ => 0x57
  | .bits _ => 0x58
  | .bit _ => 0x59
  | .cast _ _ => 0x60
  | .str _ _ => 0x61
  | .stm _ => 0x62
  | .sign _ => 0x63
  | .bytes _ => 0x64
  | .digits _ => 0x65
  | .fnew _ _ _ => 0x70
  | .fadd _ _ _ => 0x71
  | .fsub _ _ _ => 0x72
  | .fmul _ _ _ => 0x73
  | .fsmul _ _ _ => 0x74
  | .fdiv _ _ _ => 0x75
  | .fpow _ _ _ => 0x76
  | .feq _ _ => 0x77
  | .fgetv _ _ => 0x78
  | .fgetm _ _ => 0x79
  | .fmov _ _ => 0x7A
  | .abs _ _ => 0x80
  | .ilog _ _ _ => 0x81
  | .pow _ _ _ => 0x82
  | .powm _ _ _ _ => 0x83
  | .clrerr => 0xF0

/-- The format of a command (R75, column `format`). -/
def Instr.format : Instr → Format
  | .clrerr => .Z
  | .fill _ => .D
  | .parse _ _ | .parsed _ _ => .DI12
  | .ldn _ _ => .DI3
  | .ldm _ _ => .DI1
  | .mov _ _ | .neg _ _ | .not _ _ | .shl _ _ | .shr _ _ | .twos _ _ | .fgetv _ _ | .fgetm _ _ | .fmov _ _
  | .abs _ _ => .DS
  | .bits _ | .bit _ | .stm _ | .sign _ | .bytes _ | .digits _ => .S
  | .str _ _ => .SI12
  | .cast _ _ => .SI3
  | .cmp _ _ | .feq _ _ => .SS
  | .add _ _ _ | .sub _ _ _ | .mul _ _ _ | .div _ _ _ | .mod _ _ _ | .and _ _ _ | .or _ _ _ | .xor _ _ _
  | .fnew _ _ _ | .fadd _ _ _ | .fsub _ _ _ | .fmul _ _ _ | .fsmul _ _ _ | .fdiv _ _ _ | .fpow _ _ _
  | .ilog _ _ _ | .pow _ _ _ => .DSS
  | .divmod _ _ _ _ | .powm _ _ _ _ => .DSSR

/-- The mnemonic of a command (R75). -/
def Instr.mnemonic : Instr → String
  | .ldn _ _ => "LDN" | .parse _ _ => "PARSE" | .parsed _ _ => "PARSED" | .ldm _ _ => "LDM" | .mov _ _ => "MOV"
  | .cmp _ _ => "CMP" | .add _ _ _ => "ADD" | .sub _ _ _ => "SUB" | .neg _ _ => "NEG" | .mul _ _ _ => "MUL"
  | .div _ _ _ => "DIV" | .mod _ _ _ => "MOD" | .divmod _ _ _ _ => "DIVMOD"
  | .and _ _ _ => "AND" | .or _ _ _ => "OR" | .xor _ _ _ => "XOR" | .not _ _ => "NOT"
  | .shl _ _ => "SHL" | .shr _ _ => "SHR" | .twos _ _ => "TWOS" | .fill _ => "FILL" | .bits _ => "BITS" | .bit _ => "BIT"
  | .cast _ _ => "CAST" | .str _ _ => "STR" | .stm _ => "STM" | .sign _ => "SIGN" | .bytes _ => "BYTES"
  | .digits _ => "DIGITS"
  | .fnew _ _ _ => "FNEW" | .fadd _ _ _ => "FADD" | .fsub _ _ _ => "FSUB" | .fmul _ _ _ => "FMUL"
  | .fsmul _ _ _ => "FSMUL" | .fdiv _ _ _ => "FDIV" | .fpow _ _ _ => "FPOW" | .feq _ _ => "FEQ"
  | .fgetv _ _ => "FGETV" | .fgetm _ _ => "FGETM" | .fmov _ _ => "FMOV"
  | .abs _ _ => "ABS" | .ilog _ _ _ => "ILOG" | .pow _ _ _ => "POW" | .powm _ _ _ _ => "POWM"
  | .clrerr => "CLRERR"

/-! ## Immediates (R73) -/

/-- `imm12[1:0] = k` gives the width `8 * 2^k` (R73 b). -/
def NativeWidth.ofCode (k : BitVec 2) : NativeWidth :=
  if k = 0 then .w8 else if k = 1 then .w16 else if k = 2 then .w32 else .w64

/-- The inverse of `NativeWidth.ofCode`. -/
def NativeWidth.code : NativeWidth → BitVec 2
  | .w8 => 0 | .w16 => 1 | .w32 => 2 | .w64 => 3

/-- The type a type code means: `imm12[2]` is the signedness, `imm12[1:0]` the width (R73 b). -/
def NativeType.ofCode (t : BitVec 3) : NativeType :=
  { signed := t.getLsbD 2, width := NativeWidth.ofCode (t.extractLsb' 0 2) }

/-- The type code of a type (R73 b, R80). -/
def NativeType.code (t : NativeType) : BitVec 3 := BitVec.ofBool t.signed ++ t.width.code

/-! ## The decoder (R79) -/

/-- Why a command word is illegal (R79 steps 1 to 3). Each raises `IllegalCommand` (R218). -/
inductive DecodeError where
  /-- The opcode is not in R75 (R76). -/
  | reservedOpcode (op : BitVec 8)
  /-- A bit of a field the format does not use is 1 (R77). -/
  | nonzeroUnusedField (op : BitVec 8)
  /-- DIVMOD with `ra = r4` (R77). -/
  | divmodSameDestination
deriving DecidableEq, Repr

/-- R79 step 1 and step 4: the row of R75 that the opcode selects, with the fields of R71 as its operands; none for a reserved
opcode. -/
def selectRow (cw : CmdWord) : Option Instr :=
  let ra : Fin 16 := (raField cw).toFin
  let rb : Fin 16 := (rbField cw).toFin
  let rc : Fin 16 := (rcField cw).toFin
  let r4 : Fin 16 := (r4Field cw).toFin
  let base : Fin 4096 := (imm12Field cw).toFin
  let type : NativeType := NativeType.ofCode ((imm12Field cw).extractLsb' 0 3)
  match (opField cw).toNat with
  | 0x01 => some (.ldn ra type)
  | 0x02 => some (.parse ra base)
  | 0x03 => some (.parsed ra base)
  | 0x04 => some (.ldm ra ((imm12Field cw).getLsbD 0))
  | 0x05 => some (.mov ra rb)
  | 0x10 => some (.cmp rb rc)
  | 0x20 => some (.add ra rb rc)
  | 0x21 => some (.sub ra rb rc)
  | 0x22 => some (.neg ra rb)
  | 0x30 => some (.mul ra rb rc)
  | 0x40 => some (.div ra rb rc)
  | 0x41 => some (.mod ra rb rc)
  | 0x42 => some (.divmod ra r4 rb rc)
  | 0x50 => some (.and ra rb rc)
  | 0x51 => some (.or ra rb rc)
  | 0x52 => some (.xor ra rb rc)
  | 0x53 => some (.not ra rb)
  | 0x54 => some (.shl ra rb)
  | 0x55 => some (.shr ra rb)
  | 0x56 => some (.twos ra rb)
  | 0x57 => some (.fill ra)
  | 0x58 => some (.bits rb)
  | 0x59 => some (.bit rb)
  | 0x60 => some (.cast rb type)
  | 0x61 => some (.str rb base)
  | 0x62 => some (.stm rb)
  | 0x63 => some (.sign rb)
  | 0x64 => some (.bytes rb)
  | 0x65 => some (.digits rb)
  | 0x70 => some (.fnew ra rb rc)
  | 0x71 => some (.fadd ra rb rc)
  | 0x72 => some (.fsub ra rb rc)
  | 0x73 => some (.fmul ra rb rc)
  | 0x74 => some (.fsmul ra rb rc)
  | 0x75 => some (.fdiv ra rb rc)
  | 0x76 => some (.fpow ra rb rc)
  | 0x77 => some (.feq rb rc)
  | 0x78 => some (.fgetv ra rb)
  | 0x79 => some (.fgetm ra rb)
  | 0x7A => some (.fmov ra rb)
  | 0x80 => some (.abs ra rb)
  | 0x81 => some (.ilog ra rb rc)
  | 0x82 => some (.pow ra rb rc)
  | 0x83 => some (.powm ra rb rc r4)
  | 0xF0 => some .clrerr
  | _ => none

/-- The decode procedure of R79. It reads no state (R79, R218). -/
def decode (cw : CmdWord) : Except DecodeError Instr :=
  match selectRow cw with
  | none => .error (.reservedOpcode (opField cw))
  | some i =>
    if cw &&& i.format.mask = (opField cw).setWidth 32 then
      if i.wellFormed then .ok i else .error .divmodSameDestination
    else .error (.nonzeroUnusedField (opField cw))

/-! ## The encoder -/

/-- The command word with the given fields (R71), highest field first. -/
def assemble (imm12 : BitVec 12) (rc rb ra : BitVec 4) (op : BitVec 8) : CmdWord :=
  imm12 ++ rc ++ rb ++ ra ++ op

/-- The `ra` field of a command's word; 0 where the format does not use it (R75, R77). -/
def Instr.ra : Instr → BitVec 4
  | .ldn d _ | .parse d _ | .parsed d _ | .ldm d _ | .mov d _ | .add d _ _ | .sub d _ _ | .neg d _ | .mul d _ _
  | .div d _ _ | .mod d _ _ | .divmod d _ _ _ | .and d _ _ | .or d _ _ | .xor d _ _ | .not d _ | .shl d _ | .shr d _
  | .twos d _ | .fill d | .fnew d _ _ | .fadd d _ _ | .fsub d _ _ | .fmul d _ _ | .fsmul d _ _ | .fdiv d _ _
  | .fpow d _ _ | .fgetv d _ | .fgetm d _ | .fmov d _ | .abs d _ | .ilog d _ _ | .pow d _ _ | .powm d _ _ _ =>
    BitVec.ofFin d
  | .cmp _ _ | .bits _ | .bit _ | .cast _ _ | .str _ _ | .stm _ | .sign _ | .bytes _ | .digits _ | .feq _ _
  | .clrerr => 0

/-- The `rb` field of a command's word; 0 where the format does not use it (R75, R77). -/
def Instr.rb : Instr → BitVec 4
  | .mov _ b | .cmp b _ | .add _ b _ | .sub _ b _ | .neg _ b | .mul _ b _ | .div _ b _ | .mod _ b _
  | .divmod _ _ b _ | .and _ b _ | .or _ b _ | .xor _ b _ | .not _ b | .shl _ b | .shr _ b | .twos _ b | .bits b
  | .bit b | .cast b _ | .str b _ | .stm b | .sign b | .bytes b | .digits b | .fnew _ b _ | .fadd _ b _ | .fsub _ b _
  | .fmul _ b _ | .fsmul _ b _ | .fdiv _ b _ | .fpow _ b _ | .feq b _ | .fgetv _ b | .fgetm _ b | .fmov _ b
  | .abs _ b | .ilog _ b _ | .pow _ b _ | .powm _ b _ _ => BitVec.ofFin b
  | .ldn _ _ | .parse _ _ | .parsed _ _ | .ldm _ _ | .fill _ | .clrerr => 0

/-- The `rc` field of a command's word; 0 where the format does not use it (R75, R77). -/
def Instr.rc : Instr → BitVec 4
  | .cmp _ c | .add _ _ c | .sub _ _ c | .mul _ _ c | .div _ _ c | .mod _ _ c | .divmod _ _ _ c | .and _ _ c
  | .or _ _ c | .xor _ _ c | .fnew _ _ c | .fadd _ _ c | .fsub _ _ c | .fmul _ _ c | .fsmul _ _ c | .fdiv _ _ c
  | .fpow _ _ c | .feq _ c | .ilog _ _ c | .pow _ _ c | .powm _ _ c _ => BitVec.ofFin c
  | .ldn _ _ | .parse _ _ | .parsed _ _ | .ldm _ _ | .mov _ _ | .neg _ _ | .not _ _ | .shl _ _ | .shr _ _ | .twos _ _
  | .fill _ | .bits _ | .bit _ | .cast _ _ | .str _ _ | .stm _ | .sign _ | .bytes _ | .digits _ | .fgetv _ _
  | .fgetm _ _ | .fmov _ _ | .abs _ _ | .clrerr => 0

/-- The `imm12` field of a command's word: the base, the type code, the sign or the fourth register (R73); 0 where the format
does not use it (R77). -/
def Instr.imm12 : Instr → BitVec 12
  | .parse _ base | .parsed _ base | .str _ base => BitVec.ofFin base
  | .ldn _ type | .cast _ type => type.code.setWidth 12
  | .ldm _ negative => (BitVec.ofBool negative).setWidth 12
  | .divmod _ xr _ _ => (BitVec.ofFin xr : BitVec 4).setWidth 12
  | .powm _ _ _ xm => (BitVec.ofFin xm : BitVec 4).setWidth 12
  | .mov _ _ | .cmp _ _ | .add _ _ _ | .sub _ _ _ | .neg _ _ | .mul _ _ _ | .div _ _ _ | .mod _ _ _ | .and _ _ _
  | .or _ _ _ | .xor _ _ _ | .not _ _ | .shl _ _ | .shr _ _ | .twos _ _ | .fill _ | .bits _ | .bit _ | .stm _
  | .sign _ | .bytes _ | .digits _ | .fnew _ _ _ | .fadd _ _ _ | .fsub _ _ _ | .fmul _ _ _ | .fsmul _ _ _
  | .fdiv _ _ _ | .fpow _ _ _ | .feq _ _ | .fgetv _ _ | .fgetm _ _ | .fmov _ _ | .abs _ _ | .ilog _ _ _ | .pow _ _ _
  | .clrerr => 0

/-- The command word of a command (R71 to R75). -/
def encode (i : Instr) : CmdWord := assemble i.imm12 i.rc i.rb i.ra i.opcode

/-- The instruction the decoder reads from a word numbered as the opcode table numbers it: bit 0 is the least significant bit of
the one command word, which `Issue` hands over whole (R10, R56). -/
def decodeTableWord (nbits w : Nat) : Option Instr := (decode (BitVec.ofNat 32 (w % 2 ^ nbits))).toOption

end Sys2Proof
end

