-- ==== Sys2Proof/Machine/Arith.lean ====
section
/-! DEFINITION. The spec's mathematical notation (R8 to R10) and the functions on exact integers that the instruction rules name:
`val`, `big`, `len`, `emod`, `ediv`, `bitlen`, `signed_N`, `sext_64`, the two's-complement view (R150, R151), `modpow` (R186) and
the digit sequences behind `big`, `render` and the floor logarithm. -/

namespace Sys2Proof

/-! ## Division and bits (R9, R10) -/

/-- `emod(a, b)`, the Euclidean remainder (R9). Lean's `Int` division is Euclidean. -/
def emod (a b : Int) : Int := a % b

/-- `ediv(a, b)`, the Euclidean quotient (R9). -/
def ediv (a b : Int) : Int := a / b

/-- `bitlen(k)`: 0 for 0, otherwise the `L` with `2^(L-1) <= k < 2^L` (R9). -/
def bitlen (k : Nat) : Nat := if k = 0 then 0 else Nat.log2 k + 1

/-- `signed_k(v)` of a `k`-bit value (R10). -/
def signedBits (k : Nat) (v : Nat) : Int := if v < 2 ^ (k - 1) then (v : Int) else (v : Int) - 2 ^ k

/-! ## Digit sequences -/

/-- The digits of `n` in base `b`, least significant first, none for 0, at most `fuel` of them. -/
def digitsFuel (b : Nat) : Nat → Nat → List Nat
  | 0, _ => []
  | fuel + 1, n => if n = 0 then [] else n % b :: digitsFuel b fuel (n / b)

/-- The digits of `n` in base `b >= 2`, least significant first, none for 0: no more than `bitlen n` of them. -/
def digitsOf (b n : Nat) : List Nat := digitsFuel b (bitlen n) n

/-- The value of a digit sequence in base `b`, least significant first. -/
def digitsValue (b : Nat) : List Nat → Nat
  | [] => 0
  | d :: ds => d + b * digitsValue b ds

/-! ## BigInts (R8) -/

/-- `SUM m[i] * (2^W)^i` (R8). -/
def magValue : List Byte → Nat
  | [] => 0
  | w :: ws => w.toNat + 2 ^ wordBits * magValue ws

/-- The base-`2^W` digits of `n`, least significant first, with no most-significant zero word; `[0]` for 0 (R8). -/
def magOf (n : Nat) : List Byte :=
  if n = 0 then [0] else (digitsOf (2 ^ wordBits) n).map (BitVec.ofNat 8)

/-- `val((s, m))` (R8, the document's invariant I2). -/
def BigInt.val (u : BigInt) : Int := if u.sign then -(magValue u.magnitude : Int) else (magValue u.magnitude : Int)

/-- `big(z)` (R8). -/
def BigInt.big (z : Int) : BigInt := { sign := decide (z < 0), magnitude := magOf z.natAbs }

/-- `len(v)`, the number of words of the magnitude (R8). -/
def BigInt.len (u : BigInt) : Nat := u.magnitude.length

/-! ## The two's-complement view (R150, R151) -/

/-- `tc(z, N) = emod(z, 2^N)`, an `N`-bit pattern (R150). -/
def tc (z : Int) (n : Nat) : Nat := (emod z (2 ^ n)).toNat

/-- Bit `i` of the infinite sign-extended form of `z`: `emod(floor(z / 2^i), 2)` (R151). -/
def ibit (z : Int) (i : Nat) : Int := emod (ediv z (2 ^ i)) 2

/-- The width R151 gives a binary bitwise operation: one that holds both operands. -/
def viewWidth (a b : Int) : Nat := max (bitlen a.natAbs) (bitlen b.natAbs) + 1

/-- `bitop(op, a, b)` (R151): `op` acts on the two `N`-bit patterns as numbers. -/
def bitop (op : Nat → Nat → Nat) (a b : Int) : Int :=
  let n := viewWidth a b
  signedBits n (op (tc a n) (tc b n))

/-- `sext_64` or `zext_64` of an `N`-bit value (R10), as CAST delivers it (R170). -/
def extend64 (signed : Bool) (n : Nat) (p : Nat) : Dword :=
  if signed ∧ 2 ^ (n - 1) ≤ p then BitVec.ofNat 64 (p + 2 ^ 64 - 2 ^ n) else BitVec.ofNat 64 p

/-! ## Modular exponentiation (R186) -/

/-- The square-and-multiply loop of R186, `fuel` bounding its passes. -/
def modpowLoop (m : Int) : Nat → Int → Int → Nat → Int
  | 0, result, _, _ => result
  | fuel + 1, result, base, e =>
    if e = 0 then result
    else modpowLoop m fuel (if e % 2 = 1 then emod (result * base) m else result) (emod (base * base) m) (e / 2)

/-- `modpow(b, e, m)` (R186); the exponent has `bitlen e` bits, so that many passes finish the loop. -/
def modpow (b : Int) (e : Nat) (m : Int) : Int := modpowLoop m (bitlen e) (emod 1 m) (emod b m) e

/-- The largest `k` with `b^k <= v`, for `b >= 2` and `v >= 1` (R201): one less than the number of base-`b` digits of `v`. -/
def floorLog (b v : Nat) : Nat := (digitsOf b v).length - 1

end Sys2Proof
end

