-- ==== Sys2Proof/Machine/Datapath.lean ====
section
/-! DEFINITION. The word-serial datapaths of the sub-blocks: trim (R90), comparison (R110 to R112), adder and subtractor (R120 to
R122, R125), multiplier (R130, R131), divider (R140 to R142). CMP and LDM are defined through them; for the arithmetic commands the
rules give the result as an exact integer, and the statements say that these datapaths deliver it (log entry 7). -/

namespace Sys2Proof

/-- Word `i` of a magnitude, 0 beyond its end (R120). -/
def wordAt (m : List Byte) (i : Nat) : Nat := (m.getD i 0).toNat

/-! ## Normalisation (R90) -/

/-- A word sequence without its most-significant zero words. -/
def dropLeadingZeros : List Byte → List Byte
  | [] => []
  | w :: ws =>
    match dropLeadingZeros ws with
    | [] => if w = 0 then [] else [w]
    | v :: vs => w :: v :: vs

/-- `trim(m)` (R90): strip leading zero words down to at least one word; `[0]` for the empty sequence. -/
def trim (m : List Byte) : List Byte :=
  match dropLeadingZeros m with
  | [] => [0]
  | w :: ws => w :: ws

/-- Invariants I1 and "Zero is always stored as POSITIVE" (R22, R23). -/
abbrev BigInt.Normalised (u : BigInt) : Prop :=
  trim u.magnitude = u.magnitude ∧ ¬(u.sign = true ∧ u.magnitude = [0])

/-! ## Comparison (R110 to R112) -/

/-- The word loop of `mag_cmp`, most significant word first; "first mismatch decides" (R110). -/
def cmpWords : List Byte → List Byte → Ordering
  | a :: as, b :: bs => if b.toNat < a.toNat then .gt else if a.toNat < b.toNat then .lt else cmpWords as bs
  | _, _ => .eq

/-- `mag_cmp(a, b)` (R110): word counts first, then words from the most significant down. -/
def magCmp (a b : List Byte) : Ordering :=
  if b.length < a.length then .gt
  else if a.length < b.length then .lt
  else cmpWords a.reverse b.reverse

/-- `cmp(u, v)` (R111): negative below positive; among equal signs NEGATIVE reverses the magnitude ordering. -/
def BigInt.cmp (u v : BigInt) : Ordering :=
  match u.sign, v.sign with
  | true, false => .lt
  | false, true => .gt
  | false, false => magCmp u.magnitude v.magnitude
  | true, true => (magCmp u.magnitude v.magnitude).swap

/-! ## Adder and subtractor (R120 to R122, R125) -/

/-- The carry loop of `mag_add` over `n` word positions (R120). -/
def magAddLoop : Nat → List Byte → List Byte → Nat → List Byte
  | 0, _, _, carry => if carry ≠ 0 then [BitVec.ofNat 8 carry] else []
  | n + 1, a, b, carry =>
    let t := wordAt a 0 + wordAt b 0 + carry
    BitVec.ofNat 8 (t % 2 ^ wordBits) :: magAddLoop n a.tail b.tail (t / 2 ^ wordBits)

/-- `mag_add(a, b)` (R120). -/
def magAdd (a b : List Byte) : List Byte := magAddLoop (max a.length b.length) a b 0

/-- The borrow loop of `mag_sub` (R121). -/
def magSubLoop : List Byte → List Byte → Nat → List Byte
  | [], _, _ => []
  | w :: a, b, borrow =>
    let t : Int := (w.toNat : Int) - wordAt b 0 - borrow
    if t < 0 then BitVec.ofInt 8 (t + 2 ^ wordBits) :: magSubLoop a b.tail 1
    else BitVec.ofInt 8 t :: magSubLoop a b.tail 0

/-- `mag_sub(a, b)` (R121), for `mag_cmp(a, b) >= 0`; below that precondition its value means nothing (U1). -/
def magSub (a b : List Byte) : List Byte := trim (magSubLoop a b 0)

/-- `sadd(u, v)` (R122). -/
def sadd (u v : BigInt) : BigInt :=
  if u.sign = v.sign then { sign := u.sign, magnitude := magAdd u.magnitude v.magnitude }
  else
    match magCmp u.magnitude v.magnitude with
    | .eq => { sign := false, magnitude := [0] }
    | .gt => { sign := u.sign, magnitude := magSub u.magnitude v.magnitude }
    | .lt => { sign := v.sign, magnitude := magSub v.magnitude u.magnitude }

/-- `neg((s, m))` (R125): the zero stays POSITIVE. -/
def sneg (u : BigInt) : BigInt := if u.magnitude = [0] then { sign := false, magnitude := [0] } else { u with sign := !u.sign }

/-- `a - b` as `a + (-b)` (R124). -/
def ssub (u v : BigInt) : BigInt := sadd u (sneg v)

/-! ## Multiplier (R130, R131) -/

/-- The transform length of R131 step 1: the least power of two that is at least `n`. -/
def fftLength (n : Nat) : Nat := 2 ^ bitlen (n - 1)

/-- The exact coefficient `cx[k] = SUM over i + j = k of a[i] * b[j]` (R131). -/
def convCoeff (a b : List Byte) (k : Nat) : Nat := ((List.range (k + 1)).map fun i => wordAt a i * wordAt b (k - i)).sum

/-- The carry fold of R131 step 7 over a coefficient vector. -/
def carryFold : List Nat → Nat → List Byte
  | [], _ => []
  | c :: cs, carry =>
    let t := c + carry
    BitVec.ofNat 8 (t % 2 ^ wordBits) :: carryFold cs (t / 2 ^ wordBits)

/-- `mag_mul_fft(a, b)` (R131) with the coefficients that steps 2 to 6 recover when R132 holds: the exact convolution. -/
def magMul (a b : List Byte) : List Byte :=
  trim (carryFold ((List.range (fftLength (a.length + b.length))).map (convCoeff a b)) 0)

/-- `smul(u, v)` (R130): POSITIVE iff the operand signs match, with zero forced POSITIVE. -/
def smul (u v : BigInt) : BigInt :=
  let p := magMul u.magnitude v.magnitude
  if p = [0] then { sign := false, magnitude := [0] } else { sign := xor u.sign v.sign, magnitude := p }

/-- `DFT_L(X)[k] = SUM_j X[j] * w^(j*k)` (R131 step 3) over any commutative ring, `w` a primitive `L`-th root of unity; the document's
transform has `w = e^(-2*pi*i/L)` (G2). -/
def dft {K : Type} [CommRing K] (L : Nat) (w : K) (X : Nat → K) (k : Nat) : K := ∑ j ∈ Finset.range L, X j * w ^ (j * k)

/-- `L * IDFT_L(Y)[j] = SUM_k Y[k] * winv^(j*k)` (R131 step 5), `winv` the inverse of the root of `dft`, the scale factor left out. -/
def idftScaled {K : Type} [CommRing K] (L : Nat) (winv : K) (Y : Nat → K) (j : Nat) : K :=
  ∑ k ∈ Finset.range L, Y k * winv ^ (j * k)

/-- R131 steps 2 to 5 in exact arithmetic: transform both zero-padded word sequences, multiply pointwise, transform back; `L` times
the coefficient `C[k]`. -/
def fftCoeffScaled {K : Type} [CommRing K] (L : Nat) (w winv : K) (a b : List Byte) (k : Nat) : K :=
  idftScaled L winv (fun n => dft L w (fun i => (wordAt a i : K)) n * dft L w (fun i => (wordAt b i : K)) n) k

/-! ## Divider (R140 to R142) -/

/-- The quotient digit of R140, the largest `d` below `2^W` with `d * B <= rem`, by binary search over its bits `k-1 .. 0` starting
from `d` (the method is not observable, U11). -/
def quotientDigit (B rem : Nat) : Nat → Nat → Nat
  | 0, d => d
  | k + 1, d => if (d + 2 ^ k) * B ≤ rem then quotientDigit B rem k (d + 2 ^ k) else quotientDigit B rem k d

/-- The long-division loop of R140 over the dividend's words, most significant first; `q` collects the quotient's words, least
significant first. -/
def longDivLoop (B : Nat) : List Byte → List Byte → Nat → List Byte × Nat
  | [], q, rem => (q, rem)
  | w :: ws, q, rem =>
    let rem := rem * 2 ^ wordBits + w.toNat
    let d := quotientDigit B rem wordBits 0
    longDivLoop B ws (BitVec.ofNat 8 d :: q) (rem - d * B)

/-- `mag_divmod(a, b)` (R140), for `b != [0]`. -/
def magDivmod (a b : List Byte) : List Byte × List Byte :=
  let r := longDivLoop (magValue b) a.reverse [] 0
  (trim r.1, magOf r.2)

/-- `dm(a, b)` (R141): the zero-divisor check before anything is computed. -/
def dm (a b : List Byte) : Except CmdFault (List Byte × List Byte) :=
  if b = [0] then .error .divisionByZero else .ok (magDivmod a b)

/-- `sdivmod(u, v)` (R142): the sign table over the magnitude results `(Q, R)`, with zero POSITIVE. -/
def sdivmod (u v : BigInt) : Except CmdFault (BigInt × BigInt) :=
  match dm u.magnitude v.magnitude with
  | .error c => .error c
  | .ok (q, r) =>
    let positive := fun (m : List Byte) => ({ sign := false, magnitude := m } : BigInt)
    let signed := fun (negative : Bool) (m : List Byte) => if negative then sneg (positive m) else positive m
    if u.sign = false then .ok (signed v.sign q, positive r)
    else if r = [0] then .ok (signed (!v.sign) q, positive r)
    else .ok (signed (!v.sign) (magAdd q [1]), positive (magSub v.magnitude r))

end Sys2Proof
end

