-- ==== Sys2Proof/Config.lean ====
section
/-! DEFINITION. What the spec leaves open: the two size parameters and the bytes of the transfer buffer after reset. None of the
opaque constants has a body, so no proof can see which value it has. -/

namespace Sys2Proof

/-- The parameters the spec calls OPEN, "a model argument" (R5): `MAXWORDS` and `TB_MAX`. -/
structure Params where
  /-- `MAXWORDS`, the largest number of digit-words a register may hold (R26). -/
  maxWords : Nat
  /-- `TB_MAX`, the size of the transfer buffer in bytes (R37). -/
  tbMax : Nat
deriving DecidableEq, Repr

/-- The ranges of R5: `1 <= MAXWORDS <= 2^56 - 1` and `1 <= TB_MAX <= 2^56`. -/
abbrev Params.InRange (p : Params) : Prop :=
  1 ≤ p.maxWords ∧ p.maxWords ≤ 2 ^ 56 - 1 ∧ 1 ≤ p.tbMax ∧ p.tbMax ≤ 2 ^ 56

/-- One less than the unit's `MAXWORDS`; unknown but for its range (R5, U16; log entry 3). -/
opaque Config.maxWordsLessOne : Fin 72057594037927935

/-- One less than the unit's `TB_MAX`; unknown but for its range (R5, U16; log entry 3). -/
opaque Config.tbMaxLessOne : Fin 72057594037927936

/-- The parameters of the unit that `State.reset` describes: in range, otherwise unknown (log entry 3). -/
def Config.params : Params :=
  { maxWords := Config.maxWordsLessOne.val + 1, tbMax := Config.tbMaxLessOne.val + 1 }

/-- FREE VALUE (R40, U2; log entry 4). The byte the transfer buffer holds at an address after reset, until it is written: "each
byte is an independent draw, fixed at reset and stable until written". -/
opaque Config.tbAfterReset : Nat → Byte

end Sys2Proof
end

