-- ==== Sys2Proof/Machine/State.lean ====
section
/-! DEFINITION. The state of one unit (R20) and the inputs of its step, why a step can stop, and the state after reset (R40). -/

namespace Sys2Proof.Machine

/-- The transfer buffer's bytes that something has written since reset: (address, byte) pairs, addresses strictly rising. An
address that is not listed has not been written since reset (log entry 5). -/
abbrev Memory := List Host.Cell

/-- A host transaction (R6): `Issue(cw)`, `ReadCSR(n)`, `WriteCSR(n, v)` (R31), `ReadTB(a)`, `WriteTB(a, b)` (R52). -/
inductive HostTxn where
  | issue (cw : CmdWord)
  | readCsr (n : Nat)
  | writeCsr (n : Nat) (v : Dword)
  | readTb (a : Nat)
  | writeTb (a : Nat) (b : Byte)
deriving DecidableEq, Repr

/-- What a host read answers: a CSR's value (R31) or a byte of the transfer buffer (R52). -/
inductive HostReply where
  | csr (v : Dword)
  | byte (b : Byte)
deriving DecidableEq, Repr

/-- The state of one unit, and the inputs of its next steps.
`x` to `tb` are the spec's whole architectural state (R20). `params`, `host` and `replies` are the model's own (log entries 1, 3
and 10): the spec calls the parameters and the host's next transactions "inputs of the step". -/
structure State where
  /-- The integer registers (R21): unwritten (`none`, the spec's own state, R25) or one BigInt. -/
  x : Vector (Option BigInt) 16
  /-- The field registers (R27): unwritten or one FieldElement. -/
  f : Vector (Option FieldElement) 16
  /-- CSR 0, the scalar operand (R32). -/
  arg : Dword
  /-- CSR 1, the scalar result (R33). -/
  res : Dword
  /-- CSR 2, the outcome of the most recent command (R34). -/
  err : Dword
  /-- CSR 3, the first fault since reset or CLRERR (R35). -/
  efirst : Dword
  /-- CSR 4, the number of valid bytes in the transfer buffer (R36). -/
  tlen : Dword
  /-- The transfer buffer (R37). -/
  tb : Memory
  /-- The unit's parameters MAXWORDS and TB_MAX (R5). No step changes them. -/
  params : Params
  /-- The host's transactions still to come, the next one first (R6, R61). -/
  host : List HostTxn
  /-- What the host's reads have answered, oldest first (R31, R52). -/
  replies : List HostReply
deriving DecidableEq, Repr

/-- Why the machine would stop with a fault. NOTHING stops it: "A fault does not stop the unit" (R210), every command terminates
(R248) and a fault is a record in ERR and EFIRST, a next state (R223). So there is no constructor (log entry 11). -/
inductive Fault
deriving DecidableEq, Repr

/-- Why the machine has no meaning for what it is given. -/
inductive Refusal where
  /-- Raised by an arm of `exec` whose instruction has no meaning yet. Safe. -/
  | notModelled (mnemonic : String)
  /-- Raised by the host's `ReadCSR(n)` or `WriteCSR(n, v)` with `n > 4` (R31, U9). Safe: the spec gives it no meaning. -/
  | csrNumber (n : Nat)
  /-- Raised by the host's `WriteCSR` of RES, ERR or EFIRST (R31, U9). Safe: the spec gives it no meaning. -/
  | csrReadOnly (n : Nat)
  /-- Raised by the host's `WriteCSR(4, v)` with `v > TB_MAX` (R31, U9). Safe: the spec gives it no meaning. -/
  | tlenTooLarge (v : Dword)
  /-- Raised by the host's `ReadTB(a)` or `WriteTB(a, b)` with `a >= TB_MAX` (R52, U9). Safe: the spec gives it no meaning. -/
  | tbAddress (a : Nat)
deriving DecidableEq, Repr

/-- The state after reset of a unit with parameters `p` (R40): every register unwritten, the five CSRs 0, no byte of the transfer
buffer written, no transaction yet. -/
def State.resetWith (p : Params) : State :=
  { x := Vector.replicate 16 none
    f := Vector.replicate 16 none
    arg := 0
    res := 0
    err := 0
    efirst := 0
    tlen := 0
    tb := []
    params := p
    host := []
    replies := [] }

/-- The state after reset (R40) of the unit whose parameters are `Config.params` (log entry 3). -/
def State.reset : State := State.resetWith Config.params

end Sys2Proof.Machine
end

