-- ==== Sys2Proof/Machine/Ops.lean ====
section
/-! DEFINITION. The named operations over registers, CSRs and the transfer buffer: the pseudocode primitives of R11, the memory
primitives of R51, and taking a fault (R223). -/

namespace Sys2Proof

/-- The code of a fault (R211). -/
def CmdFault.code : CmdFault → Dword
  | .invalidBase => 1
  | .invalidDigit => 2
  | .divisionByZero => 3
  | .outOfRange => 4
  | .incompatibleField => 5
  | .domainError => 6
  | .illegalCommand => 7
  | .unwrittenRegister => 8
  | .capacityExceeded => 9
  | .bufferOverflow => 10

namespace Machine

/-! ## The transfer buffer as data -/

/-- The canonical form of the buffer's data: addresses strictly rising. -/
def Memory.wf : Memory → Bool
  | [] => true
  | [_] => true
  | c :: d :: m => decide (c.1 < d.1) && Memory.wf (d :: m)

/-- The byte written to an address since reset, if any. -/
def Memory.written (m : Memory) (a : Nat) : Option Byte := m.lookup a

/-- The byte at an address: the one written last, or, where nothing has been written since reset, that address's draw (R40, U2; log
entries 4 and 5). -/
def Memory.read (m : Memory) (a : Nat) : Byte := (m.written a).getD (Config.tbAfterReset a)

/-- Store one byte, keeping the canonical form. -/
def Memory.write : Memory → Nat → Byte → Memory
  | [], a, b => [(a, b)]
  | (k, v) :: m, a, b =>
    if a < k then (a, b) :: (k, v) :: m
    else if a = k then (a, b) :: m
    else (k, v) :: Memory.write m a b

/-- `MemWrite(addr, n, v)` (R51): store the bytes to `TB[addr], TB[addr+1], ..`. -/
def Memory.writeBytes (m : Memory) : Nat → List Byte → Memory
  | _, [] => m
  | a, b :: bs => Memory.writeBytes (m.write a b) (a + 1) bs

/-- `MemRead(addr, n)` (R51): the bytes `TB[addr] .. TB[addr+n-1]`. -/
def Memory.readBytes (m : Memory) (a n : Nat) : List Byte := (List.range n).map fun k => m.read (a + k)

/-! ## State updates -/

/-- Integer register `i` becomes written and holds `u`. -/
def State.setX (s : State) (i : XReg) (u : BigInt) : State := { s with x := s.x.set i (some u) }

/-- Field register `i` becomes written and holds `e`. -/
def State.setF (s : State) (i : FReg) (e : FieldElement) : State := { s with f := s.f.set i (some e) }

/-- RES takes a value (R33). -/
def State.setRes (s : State) (v : Dword) : State := { s with res := v }

/-- EFIRST is cleared (R230). -/
def State.clearFirst (s : State) : State := { s with efirst := 0 }

/-- `MemWrite(0, n, v)` and `TLEN <- n` in the same step (R37, R51). -/
def State.storeOutput (s : State) (bs : List Byte) : State :=
  { s with tb := s.tb.writeBytes 0 bs, tlen := BitVec.ofNat 64 bs.length }

/-- The transfer buffer's content `MemRead(0, TLEN)`: `TB[0 .. TLEN-1]` (R36, R51). -/
def State.content (s : State) : List Byte := s.tb.readBytes 0 s.tlen.toNat

/-! ## Ending a command (R223) -/

/-- TAKING A FAULT (R223): EFIRST takes the code if it is 0, ERR takes it, and nothing else changes. There is no vector, no saved
state and no mode (R226), and no return from a fault (R227): the host recovers, and CLRERR (R230) clears EFIRST. -/
def State.takeFault (s : State) (c : CmdFault) : State :=
  { s with efirst := if s.efirst = 0 then c.code else s.efirst, err := c.code }

/-- The record of success (R223): ERR is 0 and EFIRST is unchanged. -/
def State.succeed (s : State) : State := { s with err := 0 }

/-- How every command ends (R7, R222, R223): with all of its results and the record of success, or with the fault's record over the
state the command started from. -/
def State.finish (s : State) : Except CmdFault State → Host.Outcome State Fault Refusal
  | .ok t => .next t.succeed
  | .error c => .next (s.takeFault c)

/-! ## The read and write primitives (R11) -/

/-- `xbig[i]`: the BigInt in an integer register, or `UnwrittenRegister` (R11, R25). -/
def readXBig (s : State) (i : XReg) : Except CmdFault BigInt :=
  match s.x[i] with
  | none => .error .unwrittenRegister
  | some u => .ok u

/-- `x[i]` in an expression: the integer an integer register holds (R11). -/
def readX (s : State) (i : XReg) : Except CmdFault Int := (readXBig s i).map BigInt.val

/-- `f[i]` in an expression (R11). -/
def readF (s : State) (i : FReg) : Except CmdFault FieldElement :=
  match s.f[i] with
  | none => .error .unwrittenRegister
  | some e => .ok e

/-- Whether a value fits a register: `len(big(z)) <= MAXWORDS` (R26). -/
abbrev State.Fits (s : State) (z : Int) : Prop := (BigInt.big z).len ≤ s.params.maxWords

/-- `x[i] <- z` (R11, R26). -/
def writeX (s : State) (i : XReg) (z : Int) : Except CmdFault State :=
  if s.Fits z then .ok (s.setX i (BigInt.big z)) else .error .capacityExceeded

/-- `f[i] <- (v, p)` (R11): both components pass the capacity check. -/
def writeF (s : State) (i : FReg) (v p : Int) : Except CmdFault State :=
  if s.Fits v ∧ s.Fits p then .ok (s.setF i { value := BigInt.big v, modulus := BigInt.big p })
  else .error .capacityExceeded

/-- Store an output of known length, or `BufferOverflow` (R51, R221). -/
def writeOutput (s : State) (bs : List Byte) : Except CmdFault State :=
  if bs.length ≤ s.params.tbMax then .ok (s.storeOutput bs) else .error .bufferOverflow

end Machine
end Sys2Proof
end

