-- ==== Sys2Proof/Machine/Operands.lean ====
section
/-! DEFINITION. The operand forms: native types (R73), the operand table of R75 (which register each command reads and writes), and
the scalar operands in ARG (R32, R74). -/

namespace Sys2Proof

/-- `N = 8 * 2^k`, the width of a native type in bits (R73). -/
def NativeType.bits (t : NativeType) : Nat :=
  match t.width with
  | .w8 => 8
  | .w16 => 16
  | .w32 => 32
  | .w64 => 64

/-- The integer a native type reads from a 64-bit pattern (R93): its low `N` bits, signed or unsigned. -/
def NativeType.ofDword (t : NativeType) (v : Dword) : Int :=
  let p := v.toNat % 2 ^ t.bits
  if t.signed then signedBits t.bits p else (p : Int)

/-! ## The operand table of R75 -/

/-- The integer registers a command reads, in the order `rb`, `rc`, `r4` (R75, R219). -/
def Instr.xSources : Instr → List XReg
  | .ldn _ _ | .parse _ _ | .parsed _ _ | .ldm _ _ | .fill _ | .clrerr => []
  | .mov _ a | .neg _ a | .not _ a | .shl _ a | .shr _ a | .twos _ a | .bits a | .bit a | .cast a _ | .str a _
  | .stm a | .sign a | .bytes a | .digits a | .abs _ a => [a]
  | .cmp a b | .add _ a b | .sub _ a b | .mul _ a b | .div _ a b | .mod _ a b | .divmod _ _ a b | .and _ a b
  | .or _ a b | .xor _ a b | .fnew _ a b | .ilog _ a b | .pow _ a b => [a, b]
  | .powm _ a b m => [a, b, m]
  | .fsmul _ _ b | .fpow _ _ b => [b]
  | .fadd _ _ _ | .fsub _ _ _ | .fmul _ _ _ | .fdiv _ _ _ | .feq _ _ | .fgetv _ _ | .fgetm _ _ | .fmov _ _ => []

/-- The field registers a command reads (R75). -/
def Instr.fSources : Instr → List FReg
  | .fadd _ a b | .fsub _ a b | .fmul _ a b | .fdiv _ a b | .feq a b => [a, b]
  | .fsmul _ a _ | .fpow _ a _ | .fgetv _ a | .fgetm _ a | .fmov _ a => [a]
  | .ldn _ _ | .parse _ _ | .parsed _ _ | .ldm _ _ | .mov _ _ | .cmp _ _ | .add _ _ _ | .sub _ _ _ | .neg _ _
  | .mul _ _ _ | .div _ _ _ | .mod _ _ _ | .divmod _ _ _ _ | .and _ _ _ | .or _ _ _ | .xor _ _ _ | .not _ _
  | .shl _ _ | .shr _ _ | .twos _ _ | .fill _ | .bits _ | .bit _ | .cast _ _ | .str _ _ | .stm _ | .sign _
  | .bytes _ | .digits _ | .fnew _ _ _ | .abs _ _ | .ilog _ _ _ | .pow _ _ _ | .powm _ _ _ _ | .clrerr => []

/-- The integer registers a command writes (R75). -/
def Instr.xDests : Instr → List XReg
  | .ldn d _ | .parse d _ | .parsed d _ | .ldm d _ | .mov d _ | .add d _ _ | .sub d _ _ | .neg d _ | .mul d _ _
  | .div d _ _ | .mod d _ _ | .and d _ _ | .or d _ _ | .xor d _ _ | .not d _ | .shl d _ | .shr d _ | .twos d _
  | .fill d | .fgetv d _ | .fgetm d _ | .abs d _ | .ilog d _ _ | .pow d _ _ | .powm d _ _ _ => [d]
  | .divmod q r _ _ => [q, r]
  | .cmp _ _ | .bits _ | .bit _ | .cast _ _ | .str _ _ | .stm _ | .sign _ | .bytes _ | .digits _ | .fnew _ _ _
  | .fadd _ _ _ | .fsub _ _ _ | .fmul _ _ _ | .fsmul _ _ _ | .fdiv _ _ _ | .fpow _ _ _ | .feq _ _ | .fmov _ _
  | .clrerr => []

/-- The field registers a command writes (R75). -/
def Instr.fDests : Instr → List FReg
  | .fnew d _ _ | .fadd d _ _ | .fsub d _ _ | .fmul d _ _ | .fsmul d _ _ | .fdiv d _ _ | .fpow d _ _ | .fmov d _ => [d]
  | .ldn _ _ | .parse _ _ | .parsed _ _ | .ldm _ _ | .mov _ _ | .cmp _ _ | .add _ _ _ | .sub _ _ _ | .neg _ _
  | .mul _ _ _ | .div _ _ _ | .mod _ _ _ | .divmod _ _ _ _ | .and _ _ _ | .or _ _ _ | .xor _ _ _ | .not _ _
  | .shl _ _ | .shr _ _ | .twos _ _ | .fill _ | .bits _ | .bit _ | .cast _ _ | .str _ _ | .stm _ | .sign _
  | .bytes _ | .digits _ | .feq _ _ | .fgetv _ _ | .fgetm _ _ | .abs _ _ | .ilog _ _ _ | .pow _ _ _ | .powm _ _ _ _
  | .clrerr => []

/-- The commands that write RES (R33, R74). -/
def Instr.writesRes : Instr → Bool
  | .cmp _ _ | .bits _ | .bit _ | .cast _ _ | .sign _ | .bytes _ | .digits _ | .feq _ _ => true
  | .ldn _ _ | .parse _ _ | .parsed _ _ | .ldm _ _ | .mov _ _ | .add _ _ _ | .sub _ _ _ | .neg _ _ | .mul _ _ _
  | .div _ _ _ | .mod _ _ _ | .divmod _ _ _ _ | .and _ _ _ | .or _ _ _ | .xor _ _ _ | .not _ _ | .shl _ _ | .shr _ _
  | .twos _ _ | .fill _ | .str _ _ | .stm _ | .fnew _ _ _ | .fadd _ _ _ | .fsub _ _ _ | .fmul _ _ _ | .fsmul _ _ _
  | .fdiv _ _ _ | .fpow _ _ _ | .fgetv _ _ | .fgetm _ _ | .fmov _ _ | .abs _ _ | .ilog _ _ _ | .pow _ _ _
  | .powm _ _ _ _ | .clrerr => false

/-- The commands that read ARG (R32, R74). -/
def Instr.readsArg : Instr → Bool
  | .ldn _ _ | .shl _ _ | .shr _ _ | .twos _ _ | .fill _ | .bit _ | .str _ _ => true
  | .parse _ _ | .parsed _ _ | .ldm _ _ | .mov _ _ | .cmp _ _ | .add _ _ _ | .sub _ _ _ | .neg _ _ | .mul _ _ _
  | .div _ _ _ | .mod _ _ _ | .divmod _ _ _ _ | .and _ _ _ | .or _ _ _ | .xor _ _ _ | .not _ _ | .bits _ | .cast _ _
  | .stm _ | .sign _ | .bytes _ | .digits _ | .fnew _ _ _ | .fadd _ _ _ | .fsub _ _ _ | .fmul _ _ _ | .fsmul _ _ _
  | .fdiv _ _ _ | .fpow _ _ _ | .feq _ _ | .fgetv _ _ | .fgetm _ _ | .fmov _ _ | .abs _ _ | .ilog _ _ _ | .pow _ _ _
  | .powm _ _ _ _ | .clrerr => false

/-- The commands that load from the transfer buffer, and so read TB and TLEN (R83). -/
def Instr.loadsBuffer : Instr → Bool
  | .parse _ _ | .parsed _ _ | .ldm _ _ => true
  | .ldn _ _ | .mov _ _ | .cmp _ _ | .add _ _ _ | .sub _ _ _ | .neg _ _ | .mul _ _ _ | .div _ _ _ | .mod _ _ _
  | .divmod _ _ _ _ | .and _ _ _ | .or _ _ _ | .xor _ _ _ | .not _ _ | .shl _ _ | .shr _ _ | .twos _ _ | .fill _
  | .bits _ | .bit _ | .cast _ _ | .str _ _ | .stm _ | .sign _ | .bytes _ | .digits _ | .fnew _ _ _ | .fadd _ _ _
  | .fsub _ _ _ | .fmul _ _ _ | .fsmul _ _ _ | .fdiv _ _ _ | .fpow _ _ _ | .feq _ _ | .fgetv _ _ | .fgetm _ _
  | .fmov _ _ | .abs _ _ | .ilog _ _ _ | .pow _ _ _ | .powm _ _ _ _ | .clrerr => false

/-- The commands that store to the transfer buffer, and so write TB and TLEN (R83). -/
def Instr.storesBuffer : Instr → Bool
  | .str _ _ | .stm _ => true
  | .ldn _ _ | .parse _ _ | .parsed _ _ | .ldm _ _ | .mov _ _ | .cmp _ _ | .add _ _ _ | .sub _ _ _ | .neg _ _
  | .mul _ _ _ | .div _ _ _ | .mod _ _ _ | .divmod _ _ _ _ | .and _ _ _ | .or _ _ _ | .xor _ _ _ | .not _ _
  | .shl _ _ | .shr _ _ | .twos _ _ | .fill _ | .bits _ | .bit _ | .cast _ _ | .sign _ | .bytes _ | .digits _
  | .fnew _ _ _ | .fadd _ _ _ | .fsub _ _ _ | .fmul _ _ _ | .fsmul _ _ _ | .fdiv _ _ _ | .fpow _ _ _ | .feq _ _
  | .fgetv _ _ | .fgetm _ _ | .fmov _ _ | .abs _ _ | .ilog _ _ _ | .pow _ _ _ | .powm _ _ _ _ | .clrerr => false

/-- The field commands, the upper layer of R2 (opcodes `0x70` to `0x7A`). -/
def Instr.isField : Instr → Bool
  | .fnew _ _ _ | .fadd _ _ _ | .fsub _ _ _ | .fmul _ _ _ | .fsmul _ _ _ | .fdiv _ _ _ | .fpow _ _ _ | .feq _ _
  | .fgetv _ _ | .fgetm _ _ | .fmov _ _ => true
  | .ldn _ _ | .parse _ _ | .parsed _ _ | .ldm _ _ | .mov _ _ | .cmp _ _ | .add _ _ _ | .sub _ _ _ | .neg _ _
  | .mul _ _ _ | .div _ _ _ | .mod _ _ _ | .divmod _ _ _ _ | .and _ _ _ | .or _ _ _ | .xor _ _ _ | .not _ _
  | .shl _ _ | .shr _ _ | .twos _ _ | .fill _ | .bits _ | .bit _ | .cast _ _ | .str _ _ | .stm _ | .sign _
  | .bytes _ | .digits _ | .abs _ _ | .ilog _ _ _ | .pow _ _ _ | .powm _ _ _ _ | .clrerr => false

/-- The commands whose rules admit `CapacityExceeded` (R220), OR left out: it "lists it for uniformity but can never raise it". -/
def Instr.mayExceedCapacity : Instr → Bool
  | .ldn _ _ | .parse _ _ | .parsed _ _ | .ldm _ _ | .add _ _ _ | .sub _ _ _ | .mul _ _ _ | .and _ _ _ | .xor _ _ _
  | .not _ _ | .shl _ _ | .twos _ _ | .fill _ | .pow _ _ _ => true
  | .mov _ _ | .cmp _ _ | .neg _ _ | .div _ _ _ | .mod _ _ _ | .divmod _ _ _ _ | .or _ _ _ | .shr _ _ | .bits _
  | .bit _ | .cast _ _ | .str _ _ | .stm _ | .sign _ | .bytes _ | .digits _ | .fnew _ _ _ | .fadd _ _ _ | .fsub _ _ _
  | .fmul _ _ _ | .fsmul _ _ _ | .fdiv _ _ _ | .fpow _ _ _ | .feq _ _ | .fgetv _ _ | .fgetm _ _ | .fmov _ _
  | .abs _ _ | .ilog _ _ _ | .powm _ _ _ _ | .clrerr => false

end Sys2Proof
end

