-- ==== Sys2Proof/Machine/Flags.lean ====
section
/-! DEFINITION. The block has no status flags, condition codes or predicates (R30). What plays their part is here: the three-way
comparison result in RES (R113), the truth value in RES (R162, R175, R189), and the host's relational tests on RES (R81). -/

namespace Sys2Proof

/-- -1, 0 or +1 as a 64-bit two's-complement number (R113). -/
def comparisonResult : Ordering → Dword
  | .lt => 0xFFFFFFFFFFFFFFFF
  | .eq => 0
  | .gt => 1

/-- 1 for true, 0 for false (R175, R189). -/
def truthResult (b : Bool) : Dword := if b then 1 else 0

/-- The relational pseudo-instructions of R81: a CMP and then a test the host makes on RES. -/
inductive Relation where
  | eq | ne | lt | le | gt | ge
deriving DecidableEq, Repr

/-- The host's test on RES after CMP (R81, R113). -/
def Relation.test : Relation → Dword → Bool
  | .eq, res => res == 0
  | .ne, res => res != 0
  | .lt, res => res == 0xFFFFFFFFFFFFFFFF
  | .le, res => res != 1
  | .gt, res => res == 1
  | .ge, res => res != 0xFFFFFFFFFFFFFFFF

/-- What the relation says of two integers (R81, column "source operator"). -/
def Relation.holds : Relation → Int → Int → Prop
  | .eq, a, b => a = b
  | .ne, a, b => a ≠ b
  | .lt, a, b => a < b
  | .le, a, b => a ≤ b
  | .gt, a, b => a > b
  | .ge, a, b => a ≥ b

end Sys2Proof
end

