-- ==== Sys2Proof/Machine/Text.lean ====
section
/-! DEFINITION. The multi-base radix converter: the digit alphabet (R91), the string grammar (R92, R94), digit sequences (R95),
rendering (R171, R172). A string is its bytes, `TB[0]` first. -/

namespace Sys2Proof

/-- The sign marker `-` (R92, G1). -/
def minusByte : Byte := 0x2D

/-- `digitval(c)` (R91, G1): 0-9, a-f and A-F. -/
def digitval (c : Byte) : Option Nat :=
  if 0x30 ≤ c.toNat ∧ c.toNat ≤ 0x39 then some (c.toNat - 0x30)
  else if 0x61 ≤ c.toNat ∧ c.toNat ≤ 0x66 then some (c.toNat - 0x61 + 10)
  else if 0x41 ≤ c.toNat ∧ c.toNat ≤ 0x46 then some (c.toNat - 0x41 + 10)
  else none

/-- `digitchar(d)` for `d` in 0 .. 15, always lower case (R91). -/
def digitchar (d : Nat) : Byte := BitVec.ofNat 8 (if d ≤ 9 then 0x30 + d else 0x61 + d - 10)

/-- The bases of PARSE and STR (R94, R172): 2 to 16, and 256. -/
abbrev legalBase (b : Nat) : Prop := (2 ≤ b ∧ b ≤ 16) ∨ b = 256

/-- The accumulation `result = result*base + digit` over characters (R92, R94). -/
def accumChars (b : Nat) : Nat → List Byte → Except CmdFault Nat
  | acc, [] => .ok acc
  | acc, c :: cs =>
    match digitval c with
    | none => .error .invalidDigit
    | some d => if d < b then accumChars b (acc * b + d) cs else .error .invalidDigit

/-- The same accumulation over digit values (R95). -/
def accumDigits (b : Nat) : Nat → List Byte → Except CmdFault Nat
  | acc, [] => .ok acc
  | acc, s :: ss => if s.toNat < b then accumDigits b (acc * b + s.toNat) ss else .error .invalidDigit

/-- `SUM s[k] * 256^(n-1-k)`: big-endian bytes (R55, R94). -/
def bigEndianValue (s : List Byte) : Nat := magValue s.reverse

/-- The value of a string in a base (R94), base checked first. -/
def parseString (b : Nat) (s : List Byte) : Except CmdFault Int :=
  if ¬legalBase b then .error .invalidBase
  else if b = 256 then .ok (bigEndianValue s : Int)
  else
    match s with
    | [] => .ok 0
    | c :: cs =>
      if c = minusByte then (accumChars b 0 cs).map fun (acc : Nat) => -(acc : Int)
      else (accumChars b 0 (c :: cs)).map fun (acc : Nat) => (acc : Int)

/-- The value of a digit sequence in a base (R95), base checked first. -/
def parseDigitValues (b : Nat) (s : List Byte) : Except CmdFault Int :=
  if b < 2 then .error .invalidBase else (accumDigits b 0 s).map fun (acc : Nat) => (acc : Int)

/-- The byte of one rendered digit (R171): itself in base 256, its character otherwise. -/
def digitByte (b d : Nat) : Byte := if b = 256 then BitVec.ofNat 8 d else digitchar d

/-- `render(a, b)` (R171): most significant digit first, no leading zero, at least one digit. -/
def render (a b : Nat) : List Byte :=
  (if a = 0 then [0] else (digitsOf b a).reverse).map (digitByte b)

/-- Whether STR writes a `-` (R172): a negative value in a base up to 16. -/
abbrev hasMarker (z : Int) (b : Nat) : Prop := z < 0 ∧ b ≤ 16

/-- The length of STR's output, known before any byte is made (R172, R221). -/
def strLength (z : Int) (b minLength : Nat) : Nat :=
  max minLength (render z.natAbs b).length + if hasMarker z b then 1 else 0

/-- STR's output (R172): the marker, the padding, the digits. -/
def strBytes (z : Int) (b minLength : Nat) : List Byte :=
  let ds := render z.natAbs b
  (if hasMarker z b then [minusByte] else []) ++ List.replicate (minLength - ds.length) (digitByte b 0) ++ ds

end Sys2Proof
end

