-- ==== Sys2Proof/Machine/AddSub.lean ====
section
/-! DEFINITION. Adder/subtractor: ADD, SUB, NEG (42_addsub.md). -/

namespace Sys2Proof.Machine

/-- A command `x[ra] <- op(x[rb], x[rc])` (format DSS on integer registers). -/
def binaryX (op : Int → Int → Int) (xd xa xb : XReg) (s : State) : Except CmdFault State := do
  let a ← readX s xa
  let b ← readX s xb
  writeX s xd (op a b)

/-- A command `x[ra] <- op(x[rb])` (format DS on integer registers). -/
def unaryX (op : Int → Int) (xd xs : XReg) (s : State) : Except CmdFault State := do
  let z ← readX s xs
  writeX s xd (op z)

/-- ADD (R123). -/
def execAdd (xd xa xb : XReg) (s : State) : Host.Outcome State Fault Refusal :=
  s.finish (binaryX (fun a b => a + b) xd xa xb s)

/-- SUB (R124). -/
def execSub (xd xa xb : XReg) (s : State) : Host.Outcome State Fault Refusal :=
  s.finish (binaryX (fun a b => a - b) xd xa xb s)

/-- NEG (R125). -/
def execNeg (xd xs : XReg) (s : State) : Host.Outcome State Fault Refusal :=
  s.finish (unaryX (fun z => -z) xd xs s)

end Sys2Proof.Machine
end

