-- ==== Sys2Proof/Machine/Bitwise.lean ====
section
/-! DEFINITION. The two's-complement bitwise commands, the shifter and the bit queries: AND, OR, XOR, NOT, SHL, SHR, TWOS, FILL,
BITS, BIT (45_bitwise_shift.md). ARG may be as large as 2^64 - 1, so the commands that take a count decide from bit lengths whether
the value is needed at all: "FILL and SHL with a huge ARG terminate by faulting CapacityExceeded without building the value"
(R248; log entry 15). -/

namespace Sys2Proof.Machine

/-- AND (R152). -/
def execAnd (xd xa xb : XReg) (s : State) : Host.Outcome State Fault Refusal :=
  s.finish (binaryX (bitop Nat.land) xd xa xb s)

/-- OR (R153). -/
def execOr (xd xa xb : XReg) (s : State) : Host.Outcome State Fault Refusal :=
  s.finish (binaryX (bitop Nat.lor) xd xa xb s)

/-- XOR (R154). -/
def execXor (xd xa xb : XReg) (s : State) : Host.Outcome State Fault Refusal :=
  s.finish (binaryX (bitop Nat.xor) xd xa xb s)

/-- NOT (R155). -/
def execNot (xd xs : XReg) (s : State) : Host.Outcome State Fault Refusal :=
  s.finish (unaryX (fun z => -(z + 1)) xd xs s)

/-- Write `z * 2^n` (R156); "CapacityExceeded when z != 0 and bitlen(|z|) + n > W * MAXWORDS". -/
def writeShiftedLeft (s : State) (xd : XReg) (z : Int) (n : Nat) : Except CmdFault State :=
  if z = 0 then writeX s xd 0
  else if wordBits * s.params.maxWords < bitlen z.natAbs + n then .error .capacityExceeded
  else writeX s xd (z * 2 ^ n)

/-- SHL (R156). -/
def execShl (xd xs : XReg) (s : State) : Host.Outcome State Fault Refusal :=
  s.finish do
    let z ← readX s xs
    writeShiftedLeft s xd z s.arg.toNat

/-- `floor(z / 2^n)` (R157): 0 or -1 once every bit of the magnitude is shifted out. -/
def shiftedRight (z : Int) (n : Nat) : Int :=
  if bitlen z.natAbs ≤ n then (if z < 0 then -1 else 0) else ediv z (2 ^ n)

/-- SHR (R157). -/
def execShr (xd xs : XReg) (s : State) : Host.Outcome State Fault Refusal :=
  s.finish (unaryX (fun z => shiftedRight z s.arg.toNat) xd xs s)

/-- Write `tc(z, n)` (R158). A non-negative value of at most `n` bits is its own view; a negative one of fewer bits has a view of
`n` significant bits, which does not fit when `n > W * MAXWORDS`. -/
def writeView (s : State) (xd : XReg) (z : Int) (n : Nat) : Except CmdFault State :=
  if 0 ≤ z ∧ bitlen z.natAbs ≤ n then writeX s xd z
  else if z < 0 ∧ bitlen z.natAbs < n ∧ wordBits * s.params.maxWords < n then .error .capacityExceeded
  else writeX s xd (tc z n)

/-- TWOS (R158). -/
def execTwos (xd xs : XReg) (s : State) : Host.Outcome State Fault Refusal :=
  s.finish do
    let z ← readX s xs
    writeView s xd z s.arg.toNat

/-- Write `2^n - 1` (R159); "CapacityExceeded when n > W * MAXWORDS". -/
def writeFill (s : State) (xd : XReg) (n : Nat) : Except CmdFault State :=
  if wordBits * s.params.maxWords < n then .error .capacityExceeded else writeX s xd (2 ^ n - 1)

/-- FILL (R159). -/
def execFill (xd : XReg) (s : State) : Host.Outcome State Fault Refusal :=
  s.finish (writeFill s xd s.arg.toNat)

/-- BITS (R160, R161). -/
def execBits (xs : XReg) (s : State) : Host.Outcome State Fault Refusal :=
  s.finish do
    let u ← readXBig s xs
    .ok (s.setRes (BitVec.ofNat 64 (bitlen u.val.natAbs)))

/-- Bit `i` of a magnitude (R162), 0 for `i >= bits()`. -/
def magnitudeBit (k i : Nat) : Nat := if bitlen k ≤ i then 0 else k / 2 ^ i % 2

/-- BIT (R162): it reads the magnitude, not the view. -/
def execBit (xs : XReg) (s : State) : Host.Outcome State Fault Refusal :=
  s.finish do
    let z ← readX s xs
    .ok (s.setRes (BitVec.ofNat 64 (magnitudeBit z.natAbs s.arg.toNat)))

end Sys2Proof.Machine
end

