-- ==== Sys2Proof/Machine/Compare.lean ====
section
/-! DEFINITION. Comparison: CMP (41_comparison.md). -/

namespace Sys2Proof.Machine

/-- CMP (R113): the three-way signed comparison of R111, to RES. -/
def execCmp (xa xb : XReg) (s : State) : Host.Outcome State Fault Refusal :=
  s.finish do
    let u ← readXBig s xa
    let v ← readXBig s xb
    .ok (s.setRes (comparisonResult (BigInt.cmp u v)))

end Sys2Proof.Machine
end

