-- ==== Sys2Proof/Machine/Construct.lean ====
section
/-! DEFINITION. Construction: LDN, PARSE, PARSED, LDM, MOV (40_construction.md). -/

namespace Sys2Proof.Machine

/-- LDN (R93): the native integer in the low bits of ARG. -/
def execLdn (xd : XReg) (type : NativeType) (s : State) : Host.Outcome State Fault Refusal :=
  s.finish (writeX s xd (type.ofDword s.arg))

/-- PARSE (R94): the string in the transfer buffer. -/
def execParse (xd : XReg) (base : Fin 4096) (s : State) : Host.Outcome State Fault Refusal :=
  s.finish do
    let z ← parseString base.val s.content
    writeX s xd z

/-- PARSED (R95): the digit sequence in the transfer buffer. -/
def execParsed (xd : XReg) (base : Fin 4096) (s : State) : Host.Outcome State Fault Refusal :=
  s.finish do
    let z ← parseDigitValues base.val s.content
    writeX s xd z

/-- LDM (R96): the raw digit-word sequence in the transfer buffer, trimmed, with the given sign. -/
def execLdm (xd : XReg) (negative : Bool) (s : State) : Host.Outcome State Fault Refusal :=
  s.finish (writeX s xd (BigInt.val { sign := negative, magnitude := trim s.content }))

/-- MOV (R97). -/
def execMov (xd xs : XReg) (s : State) : Host.Outcome State Fault Refusal :=
  s.finish do
    let z ← readX s xs
    writeX s xd z

end Sys2Proof.Machine
end

