-- ==== Sys2Proof/Machine/Convert.lean ====
section
/-! DEFINITION. Conversion, serialisation and queries: CAST, STR, STM, SIGN, BYTES, DIGITS (46_conversion.md). -/

namespace Sys2Proof.Machine

/-- CAST (R170): a silent wrap, extended to 64 bits. -/
def execCast (xs : XReg) (type : NativeType) (s : State) : Host.Outcome State Fault Refusal :=
  s.finish do
    let z ← readX s xs
    .ok (s.setRes (extend64 type.signed type.bits (tc z type.bits)))

/-- STR (R172): base first, then the length, which is known before any byte is made (R221). -/
def execStr (xs : XReg) (base : Fin 4096) (s : State) : Host.Outcome State Fault Refusal :=
  s.finish do
    let z ← readX s xs
    if ¬legalBase base.val then .error .invalidBase
    else if s.params.tbMax < strLength z base.val s.arg.toNat then .error .bufferOverflow
    else writeOutput s (strBytes z base.val s.arg.toNat)

/-- STM (R173): the magnitude words, least significant first; the sign is not stored. -/
def execStm (xs : XReg) (s : State) : Host.Outcome State Fault Refusal :=
  s.finish do
    let u ← readXBig s xs
    writeOutput s u.magnitude

/-- SIGN (R175). -/
def execSign (xs : XReg) (s : State) : Host.Outcome State Fault Refusal :=
  s.finish do
    let z ← readX s xs
    .ok (s.setRes (truthResult (decide (z < 0))))

/-- BYTES (R176): `ceil(len * W / 8)`. -/
def execBytes (xs : XReg) (s : State) : Host.Outcome State Fault Refusal :=
  s.finish do
    let u ← readXBig s xs
    .ok (s.setRes (BitVec.ofNat 64 ((u.len * wordBits + 7) / 8)))

/-- DIGITS (R177). -/
def execDigits (xs : XReg) (s : State) : Host.Outcome State Fault Refusal :=
  s.finish do
    let u ← readXBig s xs
    .ok (s.setRes (BitVec.ofNat 64 u.len))

end Sys2Proof.Machine
end

