-- ==== Sys2Proof/Machine/Divide.lean ====
section
/-! DEFINITION. Divider: DIV, MOD, DIVMOD, Euclidean for every sign combination (44_divide.md, R142). -/

namespace Sys2Proof.Machine

/-- DIV (R143). -/
def execDiv (xd xa xb : XReg) (s : State) : Host.Outcome State Fault Refusal :=
  s.finish do
    let a ← readX s xa
    let b ← readX s xb
    if b = 0 then .error .divisionByZero else writeX s xd (ediv a b)

/-- MOD (R144). -/
def execMod (xd xa xb : XReg) (s : State) : Host.Outcome State Fault Refusal :=
  s.finish do
    let a ← readX s xa
    let b ← readX s xb
    if b = 0 then .error .divisionByZero else writeX s xd (emod a b)

/-- DIVMOD (R145): both writes or neither. A term with `xq = xr` is no command: its word is illegal (R77; log entry 12). -/
def execDivmod (xq xr xa xb : XReg) (s : State) : Host.Outcome State Fault Refusal :=
  s.finish do
    if xq = xr then .error .illegalCommand
    else
      let a ← readX s xa
      let b ← readX s xb
      if b = 0 then .error .divisionByZero
      else
        let t ← writeX s xq (ediv a b)
        writeX t xr (emod a b)

end Sys2Proof.Machine
end

