-- ==== Sys2Proof/Machine/Field.lean ====
section
/-! DEFINITION. The FieldElement layer: FNEW, FADD, FSUB, FMUL, FSMUL, FDIV, FPOW, FEQ, FGETV, FGETM, FMOV (47_field.md). -/

namespace Sys2Proof.Machine

/-- FNEW (R180): an out-of-range value is an error, not an input to `emod`. -/
def execFnew (fd : FReg) (xa xb : XReg) (s : State) : Host.Outcome State Fault Refusal :=
  s.finish do
    let v ← readX s xa
    let p ← readX s xb
    if 0 ≤ v ∧ v < p then writeF s fd v p else .error .outOfRange

/-- The compatibility check (R28, R181). -/
def compat (a b : FieldElement) : Except CmdFault Unit :=
  if a.modulus.val = b.modulus.val then .ok () else .error .incompatibleField

/-- FADD, FSUB and FMUL: "result is (a.value OP b.value) mod modulus" over the first operand's modulus (R181). -/
def binaryF (op : Int → Int → Int) (fd fa fb : FReg) (s : State) : Except CmdFault State := do
  let a ← readF s fa
  let b ← readF s fb
  compat a b
  writeF s fd (emod (op a.value.val b.value.val) a.modulus.val) a.modulus.val

/-- FADD (R182). -/
def execFadd (fd fa fb : FReg) (s : State) : Host.Outcome State Fault Refusal :=
  s.finish (binaryF (fun a b => a + b) fd fa fb s)

/-- FSUB (R183). -/
def execFsub (fd fa fb : FReg) (s : State) : Host.Outcome State Fault Refusal :=
  s.finish (binaryF (fun a b => a - b) fd fa fb s)

/-- FMUL (R184); the unreduced product is internal and not capacity checked (R26). -/
def execFmul (fd fa fb : FReg) (s : State) : Host.Outcome State Fault Refusal :=
  s.finish (binaryF (fun a b => a * b) fd fa fb s)

/-- FSMUL (R185): no compatibility check, any integer scalar. -/
def execFsmul (fd fa : FReg) (xb : XReg) (s : State) : Host.Outcome State Fault Refusal :=
  s.finish do
    let a ← readF s fa
    let k ← readX s xb
    writeF s fd (emod (a.value.val * k) a.modulus.val) a.modulus.val

/-- FDIV (R187): through the Fermat inverse `b.value^(p-2) mod p`. -/
def execFdiv (fd fa fb : FReg) (s : State) : Host.Outcome State Fault Refusal :=
  s.finish do
    let a ← readF s fa
    let b ← readF s fb
    compat a b
    let p := a.modulus.val
    if b.value.val = 0 then .error .divisionByZero
    else
      let inv := modpow b.value.val (p - 2).toNat p
      writeF s fd (emod (a.value.val * inv) p) p

/-- FPOW (R188): the exponent is reduced modulo `p - 1` first. -/
def execFpow (fd fa : FReg) (xb : XReg) (s : State) : Host.Outcome State Fault Refusal :=
  s.finish do
    let a ← readF s fa
    let e ← readX s xb
    let p := a.modulus.val
    if p - 1 = 0 then .error .divisionByZero
    else writeF s fd (modpow a.value.val (emod e (p - 1)).toNat p) p

/-- FEQ (R189): both the value and the modulus are compared. -/
def execFeq (fa fb : FReg) (s : State) : Host.Outcome State Fault Refusal :=
  s.finish do
    let a ← readF s fa
    let b ← readF s fb
    .ok (s.setRes (truthResult (decide (a.value.val = b.value.val ∧ a.modulus.val = b.modulus.val))))

/-- FGETV (R190). -/
def execFgetv (xd : XReg) (fa : FReg) (s : State) : Host.Outcome State Fault Refusal :=
  s.finish do
    let a ← readF s fa
    writeX s xd a.value.val

/-- FGETM (R191). -/
def execFgetm (xd : XReg) (fa : FReg) (s : State) : Host.Outcome State Fault Refusal :=
  s.finish do
    let a ← readF s fa
    writeX s xd a.modulus.val

/-- FMOV (R192): both components. -/
def execFmov (fd fa : FReg) (s : State) : Host.Outcome State Fault Refusal :=
  s.finish do
    let a ← readF s fa
    writeF s fd a.value.val a.modulus.val

end Sys2Proof.Machine
end

