-- ==== Sys2Proof/Machine/Helpers.lean ====
section
/-! DEFINITION. Helper functions: ABS, ILOG, POW, POWM (48_helpers.md). -/

namespace Sys2Proof.Machine

/-- ABS (R200). -/
def execAbs (xd xs : XReg) (s : State) : Host.Outcome State Fault Refusal :=
  s.finish (unaryX (fun z => (z.natAbs : Int)) xd xs s)

/-- ILOG (R201): the largest `k` with `b^k <= v`. -/
def execIlog (xd xa xb : XReg) (s : State) : Host.Outcome State Fault Refusal :=
  s.finish do
    let v ← readX s xa
    let b ← readX s xb
    if b < 1 ∨ v ≤ 0 then .error .domainError
    else if b = 1 then .error .domainError
    else writeX s xd (floorLog b.toNat v.toNat : Int)

/-- Write `b^e` (R202), for `e >= 0`. The exponent may have thousands of bits: the bases 0, 1 and -1 are read off its parity, and
with `|b| >= 2` the power has more than `e` bits, so it does not fit when `e >= W * MAXWORDS` (R248; log entry 15). -/
def writePower (s : State) (xd : XReg) (b : Int) (e : Nat) : Except CmdFault State :=
  if e = 0 then writeX s xd 1
  else if b = 0 ∨ b = 1 then writeX s xd b
  else if b = -1 then writeX s xd (if e % 2 = 0 then 1 else -1)
  else if wordBits * s.params.maxWords ≤ e then .error .capacityExceeded
  else writeX s xd (b ^ e)

/-- POW (R202). -/
def execPow (xd xa xb : XReg) (s : State) : Host.Outcome State Fault Refusal :=
  s.finish do
    let b ← readX s xa
    let e ← readX s xb
    if e < 0 then .error .domainError else writePower s xd b e.toNat

/-- POWM (R203): sources in the order `rb`, `rc`, `r4`; the zero modulus before the negative exponent. -/
def execPowm (xd xa xb xm : XReg) (s : State) : Host.Outcome State Fault Refusal :=
  s.finish do
    let b ← readX s xa
    let e ← readX s xb
    let m ← readX s xm
    if m = 0 then .error .divisionByZero
    else if e < 0 then .error .domainError
    else writeX s xd (modpow b e.toNat m)

end Sys2Proof.Machine
end

