-- ==== Sys2Proof/Machine/Multiply.lean ====
section
/-! DEFINITION. Multiplier: MUL (43_multiply.md). -/

namespace Sys2Proof.Machine

/-- MUL (R135): the exact product for every pair of operands (R133). -/
def execMul (xd xa xb : XReg) (s : State) : Host.Outcome State Fault Refusal :=
  s.finish (binaryX (fun a b => a * b) xd xa xb s)

end Sys2Proof.Machine
end

