-- ==== Sys2Proof/Machine/System.lean ====
section
/-! DEFINITION. The system command CLRERR (R230). The command set has no other (R231). -/

namespace Sys2Proof.Machine

/-- CLRERR (R230). -/
def execClrerr (s : State) : Host.Outcome State Fault Refusal := s.finish (.ok s.clearFirst)

end Sys2Proof.Machine
end

