-- ==== Sys2Proof/Machine/Dispatch.lean ====
section
/-! DEFINITION. Which meaning each command of the opcode map (R75) has. -/

namespace Sys2Proof.Machine

/-- One command (R7): one arm per row of R75. -/
def exec (i : Instr) (s : State) : Host.Outcome State Fault Refusal :=
  match i with
  | .ldn xd type => Sys2Proof.Machine.execLdn xd type s
  | .parse xd base => Sys2Proof.Machine.execParse xd base s
  | .parsed xd base => Sys2Proof.Machine.execParsed xd base s
  | .ldm xd negative => Sys2Proof.Machine.execLdm xd negative s
  | .mov xd xs => Sys2Proof.Machine.execMov xd xs s
  | .cmp xa xb => Sys2Proof.Machine.execCmp xa xb s
  | .add xd xa xb => Sys2Proof.Machine.execAdd xd xa xb s
  | .sub xd xa xb => Sys2Proof.Machine.execSub xd xa xb s
  | .neg xd xs => Sys2Proof.Machine.execNeg xd xs s
  | .mul xd xa xb => Sys2Proof.Machine.execMul xd xa xb s
  | .div xd xa xb => Sys2Proof.Machine.execDiv xd xa xb s
  | .mod xd xa xb => Sys2Proof.Machine.execMod xd xa xb s
  | .divmod xq xr xa xb => Sys2Proof.Machine.execDivmod xq xr xa xb s
  | .and xd xa xb => Sys2Proof.Machine.execAnd xd xa xb s
  | .or xd xa xb => Sys2Proof.Machine.execOr xd xa xb s
  | .xor xd xa xb => Sys2Proof.Machine.execXor xd xa xb s
  | .not xd xs => Sys2Proof.Machine.execNot xd xs s
  | .shl xd xs => Sys2Proof.Machine.execShl xd xs s
  | .shr xd xs => Sys2Proof.Machine.execShr xd xs s
  | .twos xd xs => Sys2Proof.Machine.execTwos xd xs s
  | .fill xd => Sys2Proof.Machine.execFill xd s
  | .bits xs => Sys2Proof.Machine.execBits xs s
  | .bit xs => Sys2Proof.Machine.execBit xs s
  | .cast xs type => Sys2Proof.Machine.execCast xs type s
  | .str xs base => Sys2Proof.Machine.execStr xs base s
  | .stm xs => Sys2Proof.Machine.execStm xs s
  | .sign xs => Sys2Proof.Machine.execSign xs s
  | .bytes xs => Sys2Proof.Machine.execBytes xs s
  | .digits xs => Sys2Proof.Machine.execDigits xs s
  | .fnew fd xa xb => Sys2Proof.Machine.execFnew fd xa xb s
  | .fadd fd fa fb => Sys2Proof.Machine.execFadd fd fa fb s
  | .fsub fd fa fb => Sys2Proof.Machine.execFsub fd fa fb s
  | .fmul fd fa fb => Sys2Proof.Machine.execFmul fd fa fb s
  | .fsmul fd fa xb => Sys2Proof.Machine.execFsmul fd fa xb s
  | .fdiv fd fa fb => Sys2Proof.Machine.execFdiv fd fa fb s
  | .fpow fd fa xb => Sys2Proof.Machine.execFpow fd fa xb s
  | .feq fa fb => Sys2Proof.Machine.execFeq fa fb s
  | .fgetv xd fa => Sys2Proof.Machine.execFgetv xd fa s
  | .fgetm xd fa => Sys2Proof.Machine.execFgetm xd fa s
  | .fmov fd fa => Sys2Proof.Machine.execFmov fd fa s
  | .abs xd xs => Sys2Proof.Machine.execAbs xd xs s
  | .ilog xd xa xb => Sys2Proof.Machine.execIlog xd xa xb s
  | .pow xd xa xb => Sys2Proof.Machine.execPow xd xa xb s
  | .powm xd xa xb xm => Sys2Proof.Machine.execPowm xd xa xb xm s
  | .clrerr => Sys2Proof.Machine.execClrerr s

end Sys2Proof.Machine
end

