-- ==== Sys2Proof/Machine/HostPort.lean ====
section
/-! DEFINITION. The host's transactions on one unit (R6, R31, R52, R231). -/

namespace Sys2Proof.Machine

/-- `Issue(cw)` (R6): the command the word decodes to, or `IllegalCommand` at decode, before any state is read (R79, R218, R224). -/
def issueCommand (cw : CmdWord) (s : State) : Host.Outcome State Fault Refusal :=
  match decode cw with
  | .ok i => exec i s
  | .error _ => .next (s.takeFault .illegalCommand)

/-- The value of a CSR by its number (R31); none above 4. -/
def State.csr? (s : State) (n : Nat) : Option Dword :=
  match n with
  | 0 => some s.arg
  | 1 => some s.res
  | 2 => some s.err
  | 3 => some s.efirst
  | 4 => some s.tlen
  | _ => none

/-- A read's answer goes to the host (R31, R52; log entry 10). A read has no other effect. -/
def State.reply (s : State) (r : HostReply) : State := { s with replies := s.replies ++ [r] }

/-- `ReadCSR(n)` (R31). -/
def readCsr (n : Nat) (s : State) : Host.Outcome State Fault Refusal :=
  match s.csr? n with
  | some v => .next (s.reply (.csr v))
  | none => .refused (.csrNumber n)

/-- `WriteCSR(n, v)` (R31): ARG takes any value, TLEN the values up to TB_MAX; RES, ERR and EFIRST are read-only. -/
def writeCsr (n : Nat) (v : Dword) (s : State) : Host.Outcome State Fault Refusal :=
  match n with
  | 0 => .next { s with arg := v }
  | 1 => .refused (.csrReadOnly 1)
  | 2 => .refused (.csrReadOnly 2)
  | 3 => .refused (.csrReadOnly 3)
  | 4 => if v.toNat ≤ s.params.tbMax then .next { s with tlen := v } else .refused (.tlenTooLarge v)
  | k => .refused (.csrNumber k)

/-- `ReadTB(a)` (R52). -/
def readTb (a : Nat) (s : State) : Host.Outcome State Fault Refusal :=
  if a < s.params.tbMax then .next (s.reply (.byte (s.tb.read a))) else .refused (.tbAddress a)

/-- `WriteTB(a, b)` (R52): TLEN is not changed. -/
def writeTb (a : Nat) (b : Byte) (s : State) : Host.Outcome State Fault Refusal :=
  if a < s.params.tbMax then .next { s with tb := s.tb.write a b } else .refused (.tbAddress a)

/-- One host transaction (R6). -/
def transact (t : HostTxn) (s : State) : Host.Outcome State Fault Refusal :=
  match t with
  | .issue cw => issueCommand cw s
  | .readCsr n => readCsr n s
  | .writeCsr n v => writeCsr n v s
  | .readTb a => readTb a s
  | .writeTb a b => writeTb a b s

/-- The host's next transaction and the state once it is taken from the list; none when the unit is idle. -/
def nextTransaction (s : State) : Option (HostTxn × State) :=
  match s.host with
  | [] => none
  | t :: rest => some (t, { s with host := rest })

/-- The transaction that issues a table word: the one 32-bit command word (R70), the bits above `nbits` zero. -/
def issueOfTableWord (nbits w : Nat) : HostTxn := .issue (BitVec.ofNat 32 (w % 2 ^ nbits))

end Sys2Proof.Machine
end

