-- ==== Sys2Proof/Machine/Step.lean ====
section
/-! DEFINITION. One step of the machine: the host's next transaction (R6, R61). -/

namespace Sys2Proof.Machine

/-- One step: the unit carries out the host's next transaction; with none left it is idle and holds all its state (R235). -/
def step (s : State) : Host.Outcome State Fault Refusal :=
  match nextTransaction s with
  | none => .next s
  | some (t, s') => transact t s'

/-- `s` with a command word put where the next step takes its transaction from (log entry 2). -/
def State.withFetchWord (s : State) (nbits w : Nat) : State := { s with host := issueOfTableWord nbits w :: s.host }

end Sys2Proof.Machine
end

