-- ==== Sys2Proof/Machine/Assembler.lean ====
section
/-! DEFINITION. The assembler syntax of the spec (R80) and its pseudo-instructions (R81). Nothing in the machine reads it: "the syntax
exists so that programs can be written down". -/

namespace Sys2Proof

/-- An operand as the assembler writes it (R80). -/
inductive AsmOperand where
  /-- An integer register, `x0` to `x15`. -/
  | x (r : XReg)
  /-- A field register, `f0` to `f15`. -/
  | f (r : FReg)
  /-- A base, a decimal number. -/
  | base (b : Fin 4096)
  /-- A native type code, `u8` to `s64`. -/
  | type (t : NativeType)
  /-- The sign of LDM, `pos` or `neg`. -/
  | sign (negative : Bool)
deriving DecidableEq, Repr

/-- The operands of a command "in the order destination(s), sources, immediate" (R80). -/
def Instr.operands : Instr → List AsmOperand
  | .ldn d t => [.x d, .type t]
  | .parse d b | .parsed d b => [.x d, .base b]
  | .ldm d g => [.x d, .sign g]
  | .mov d a | .neg d a | .not d a | .shl d a | .shr d a | .twos d a | .abs d a => [.x d, .x a]
  | .cmp a b => [.x a, .x b]
  | .add d a b | .sub d a b | .mul d a b | .div d a b | .mod d a b | .and d a b | .or d a b | .xor d a b | .ilog d a b
  | .pow d a b => [.x d, .x a, .x b]
  | .divmod q r a b => [.x q, .x r, .x a, .x b]
  | .powm d a b m => [.x d, .x a, .x b, .x m]
  | .fill d => [.x d]
  | .bits a | .bit a | .stm a | .sign a | .bytes a | .digits a => [.x a]
  | .cast a t => [.x a, .type t]
  | .str a b => [.x a, .base b]
  | .fnew d a b => [.f d, .x a, .x b]
  | .fadd d a b | .fsub d a b | .fmul d a b | .fdiv d a b => [.f d, .f a, .f b]
  | .fsmul d a b | .fpow d a b => [.f d, .f a, .x b]
  | .feq a b => [.f a, .f b]
  | .fgetv d a | .fgetm d a => [.x d, .f a]
  | .fmov d a => [.f d, .f a]
  | .clrerr => []

/-- The decimal digits of a number, most significant first. -/
def decimal (n : Nat) : String :=
  String.ofList ((if n = 0 then [0] else (digitsOf 10 n).reverse).map fun d => Char.ofNat (48 + d))

/-- The name of a native type (R80). -/
def NativeType.name (t : NativeType) : String :=
  match t.signed, t.width with
  | false, .w8 => "u8"
  | false, .w16 => "u16"
  | false, .w32 => "u32"
  | false, .w64 => "u64"
  | true, .w8 => "s8"
  | true, .w16 => "s16"
  | true, .w32 => "s32"
  | true, .w64 => "s64"

/-- An operand in the assembler's spelling (R80). -/
def AsmOperand.text : AsmOperand → String
  | .x r => "x" ++ decimal r.val
  | .f r => "f" ++ decimal r.val
  | .base b => decimal b.val
  | .type t => t.name
  | .sign false => "pos"
  | .sign true => "neg"

/-- A command in the assembler's spelling (R80): "the mnemonic .. in upper case, then the operands separated by commas". -/
def Instr.text (i : Instr) : String :=
  match i.operands with
  | [] => i.mnemonic
  | o :: os => i.mnemonic ++ " " ++ os.foldl (fun s p => s ++ ", " ++ p.text) o.text

/-- The in-place form `.IP` of a DSS or DS command (R81): the same command with `ra = rb = xd`; none for the other formats. The first
source field takes the destination's register number, also where the two fields name different register files. -/
def Instr.inPlace : Instr → Option Instr
  | .mov d _ => some (.mov d d)
  | .neg d _ => some (.neg d d)
  | .not d _ => some (.not d d)
  | .shl d _ => some (.shl d d)
  | .shr d _ => some (.shr d d)
  | .twos d _ => some (.twos d d)
  | .fgetv d _ => some (.fgetv d d)
  | .fgetm d _ => some (.fgetm d d)
  | .fmov d _ => some (.fmov d d)
  | .abs d _ => some (.abs d d)
  | .add d _ b => some (.add d d b)
  | .sub d _ b => some (.sub d d b)
  | .mul d _ b => some (.mul d d b)
  | .div d _ b => some (.div d d b)
  | .mod d _ b => some (.mod d d b)
  | .and d _ b => some (.and d d b)
  | .or d _ b => some (.or d d b)
  | .xor d _ b => some (.xor d d b)
  | .fnew d _ b => some (.fnew d d b)
  | .fadd d _ b => some (.fadd d d b)
  | .fsub d _ b => some (.fsub d d b)
  | .fmul d _ b => some (.fmul d d b)
  | .fsmul d _ b => some (.fsmul d d b)
  | .fdiv d _ b => some (.fdiv d d b)
  | .fpow d _ b => some (.fpow d d b)
  | .ilog d _ b => some (.ilog d d b)
  | .pow d _ b => some (.pow d d b)
  | .ldn _ _ | .parse _ _ | .parsed _ _ | .ldm _ _ | .cmp _ _ | .divmod _ _ _ _ | .fill _ | .bits _ | .bit _ | .cast _ _
  | .str _ _ | .stm _ | .sign _ | .bytes _ | .digits _ | .feq _ _ | .powm _ _ _ _ | .clrerr => none

/-- The pseudo-instructions of R81. -/
inductive Pseudo where
  /-- `EQ`, `NE`, `LT`, `LE`, `GT`, `GE` on integer registers. -/
  | relation (r : Relation) (xa xb : XReg)
  /-- `FNE fa, fb`. -/
  | fne (fa fb : FReg)
deriving DecidableEq, Repr

/-- The one command a pseudo-instruction expands to (R81). -/
def Pseudo.expand : Pseudo → Instr
  | .relation _ xa xb => .cmp xa xb
  | .fne fa fb => .feq fa fb

/-- The test the host makes on RES after the command (R81). -/
def Pseudo.test : Pseudo → Dword → Bool
  | .relation r _ _, res => r.test res
  | .fne _ _, res => res == 0

end Sys2Proof
end

