-- ==== Sys2Proof/Safety.lean ====
section
/-! DEFINITION. What holds of the machine at every command boundary: the state invariants of 10_state.md and 20_memory.md. -/

namespace Sys2Proof

/-- What a written integer register may hold (R24): a normalised BigInt of at most MAXWORDS words. -/
abbrev BigInt.Stored (p : Params) (u : BigInt) : Prop := u.Normalised ∧ u.len ≤ p.maxWords

/-- What a written field register may hold (R27): "Both components are normalised BigInts within capacity", and invariant I3,
"`0 <= value < modulus`". -/
abbrev FieldElement.Stored (p : Params) (e : FieldElement) : Prop :=
  e.value.Stored p ∧ e.modulus.Stored p ∧ 0 ≤ e.value.val ∧ e.value.val < e.modulus.val

namespace Machine

/-- The invariant of every command boundary. -/
structure State.Inv (s : State) : Prop where
  /-- R5. -/
  params : s.params.InRange
  /-- R22 to R24, R26. -/
  x : ∀ i : XReg, ∀ u ∈ s.x[i], u.Stored s.params
  /-- R27. -/
  f : ∀ i : FReg, ∀ e ∈ s.f[i], e.Stored s.params
  /-- R34: values 0 to 10. -/
  err : s.err.toNat ≤ 10
  /-- R35: values 0 to 10. -/
  efirst : s.efirst.toNat ≤ 10
  /-- R34, R35: "EFIRST = 0 says that no command has faulted since reset or the last CLRERR", the most recent one included. -/
  latch : s.efirst = 0 → s.err = 0
  /-- R36. -/
  tlen : s.tlen.toNat ≤ s.params.tbMax
  /-- The buffer's data is in its canonical form. -/
  tb : s.tb.wf = true
  /-- R37: the buffer has no address at or above TB_MAX. -/
  tbRange : ∀ c ∈ s.tb, c.1 < s.params.tbMax

/-- A source register of the command is unwritten (R25, R219). -/
abbrev State.LacksSource (s : State) (i : Instr) : Prop := (∃ r ∈ i.xSources, s.x[r] = none) ∨ ∃ r ∈ i.fSources, s.f[r] = none

end Machine
end Sys2Proof
end

