-- ==== Sys2Proof/Certificates/Slice0/Obligations.lean ====
section
/-! DEFINITION. The statements for the provers. The helpers of `Sys2Proof.Spec` write out in plain record updates, from the spec's own
tables, what a statement says: a command word as its fields, the two ways a command ends, the whole next state. A statement whose
conclusion is `exec i s = .next {s with ..}` therefore names every field that changes, and every field it does not name is unchanged. -/

namespace Sys2Proof.Spec

open Sys2Proof.Machine

/-- The outcome of a command. -/
abbrev Result : Type := Host.Outcome State Fault Refusal

/-- The command word with these fields: `imm12` 31:20, `rc` 19:16, `rb` 15:12, `ra` 11:8, `op` 7:0 (R71). -/
def word (imm12 : BitVec 12) (rc rb ra : Fin 16) (op : BitVec 8) : CmdWord :=
  imm12 ++ (BitVec.ofFin rc : BitVec 4) ++ (BitVec.ofFin rb : BitVec 4) ++ (BitVec.ofFin ra : BitVec 4) ++ op

/-- `imm12` with a register number in its low four bits, the field `r4` (R71). -/
def r4 (r : Fin 16) : BitVec 12 := BitVec.ofNat 12 r.val

/-- "on fault with code c: if EFIRST = 0: EFIRST <- c; ERR <- c" and nothing else (R222, R223). -/
def fault (c : Dword) (s : State) : Result := .next { s with err := c, efirst := if s.efirst = 0 then c else s.efirst }

/-- `x[d] <- z` and the record of success, or `CapacityExceeded` when `bitlen(|z|) > 8 * MAXWORDS` (R11, R26, R223). -/
def writeX (s : State) (d : XReg) (z : Int) : Result :=
  if bitlen z.natAbs ≤ 8 * s.params.maxWords then .next { s with x := s.x.set d (some (BigInt.big z)), err := 0 }
  else fault 9 s

/-- `RES <- v` and the record of success (R33, R223). -/
def writeRes (s : State) (v : Dword) : Result := .next { s with res := v, err := 0 }

/-- The valid content of the transfer buffer, `TB[0 .. TLEN-1]` (R36). -/
def buffer (s : State) : List Byte := (List.range s.tlen.toNat).map fun a => s.tb.read a

/-- `MemWrite(0, n, out); TLEN <- n` and the record of success: byte `a` is `out[a]` below `n` and as before from `n` on (R37, R51,
R223); every other field of the state is as before. -/
def Stores (s : State) (out : List Byte) (o : Result) : Prop :=
  ∃ t, o = .next t ∧ t = { s with tb := t.tb, tlen := t.tlen, err := 0 } ∧ t.tlen.toNat = out.length ∧
    ∀ a, t.tb.read a = (out[a]?).getD (s.tb.read a)

/-! ## The opcode map of R75, with the masks of R72 and the fields of R71 -/

/-- The register number in bits `lo + 3 .. lo`. -/
def reg (cw : CmdWord) (lo : Nat) : Fin 16 := (cw.extractLsb' lo 4).toFin

/-- `imm12` as a base (R73 a). -/
def base (cw : CmdWord) : Fin 4096 := (cw.extractLsb' 20 12).toFin

/-- `imm12[2:0]` as a native type: bit 22 is the signedness, bits 21:20 the width code (R73 b). -/
def type (cw : CmdWord) : NativeType :=
  { signed := cw.getLsbD 22
    width := match (cw.extractLsb' 20 2).toNat with
      | 0 => .w8
      | 1 => .w16
      | 2 => .w32
      | _ => .w64 }

/-- A row: opcode, mask of fixed bits, the command. -/
abbrev Row : Type := BitVec 8 × CmdWord × (CmdWord → Instr)

/-- The rows `0x01` to `0x42`. -/
def rowsA : List Row :=
  [(0x01, 0xFF8FF0FF, fun w => .ldn (reg w 8) (type w)),
   (0x02, 0x000FF0FF, fun w => .parse (reg w 8) (base w)),
   (0x03, 0x000FF0FF, fun w => .parsed (reg w 8) (base w)),
   (0x04, 0xFFEFF0FF, fun w => .ldm (reg w 8) (w.getLsbD 20)),
   (0x05, 0xFFFF00FF, fun w => .mov (reg w 8) (reg w 12)),
   (0x10, 0xFFF00FFF, fun w => .cmp (reg w 12) (reg w 16)),
   (0x20, 0xFFF000FF, fun w => .add (reg w 8) (reg w 12) (reg w 16)),
   (0x21, 0xFFF000FF, fun w => .sub (reg w 8) (reg w 12) (reg w 16)),
   (0x22, 0xFFFF00FF, fun w => .neg (reg w 8) (reg w 12)),
   (0x30, 0xFFF000FF, fun w => .mul (reg w 8) (reg w 12) (reg w 16)),
   (0x40, 0xFFF000FF, fun w => .div (reg w 8) (reg w 12) (reg w 16)),
   (0x41, 0xFFF000FF, fun w => .mod (reg w 8) (reg w 12) (reg w 16)),
   (0x42, 0xFF0000FF, fun w => .divmod (reg w 8) (reg w 20) (reg w 12) (reg w 16))]

/-- The rows `0x50` to `0x65`. -/
def rowsB : List Row :=
  [(0x50, 0xFFF000FF, fun w => .and (reg w 8) (reg w 12) (reg w 16)),
   (0x51, 0xFFF000FF, fun w => .or (reg w 8) (reg w 12) (reg w 16)),
   (0x52, 0xFFF000FF, fun w => .xor (reg w 8) (reg w 12) (reg w 16)),
   (0x53, 0xFFFF00FF, fun w => .not (reg w 8) (reg w 12)),
   (0x54, 0xFFFF00FF, fun w => .shl (reg w 8) (reg w 12)),
   (0x55, 0xFFFF00FF, fun w => .shr (reg w 8) (reg w 12)),
   (0x56, 0xFFFF00FF, fun w => .twos (reg w 8) (reg w 12)),
   (0x57, 0xFFFFF0FF, fun w => .fill (reg w 8)),
   (0x58, 0xFFFF0FFF, fun w => .bits (reg w 12)),
   (0x59, 0xFFFF0FFF, fun w => .bit (reg w 12)),
   (0x60, 0xFF8F0FFF, fun w => .cast (reg w 12) (type w)),
   (0x61, 0x000F0FFF, fun w => .str (reg w 12) (base w)),
   (0x62, 0xFFFF0FFF, fun w => .stm (reg w 12)),
   (0x63, 0xFFFF0FFF, fun w => .sign (reg w 12)),
   (0x64, 0xFFFF0FFF, fun w => .bytes (reg w 12)),
   (0x65, 0xFFFF0FFF, fun w => .digits (reg w 12))]

/-- The rows `0x70` to `0xF0`. -/
def rowsC : List Row :=
  [(0x70, 0xFFF000FF, fun w => .fnew (reg w 8) (reg w 12) (reg w 16)),
   (0x71, 0xFFF000FF, fun w => .fadd (reg w 8) (reg w 12) (reg w 16)),
   (0x72, 0xFFF000FF, fun w => .fsub (reg w 8) (reg w 12) (reg w 16)),
   (0x73, 0xFFF000FF, fun w => .fmul (reg w 8) (reg w 12) (reg w 16)),
   (0x74, 0xFFF000FF, fun w => .fsmul (reg w 8) (reg w 12) (reg w 16)),
   (0x75, 0xFFF000FF, fun w => .fdiv (reg w 8) (reg w 12) (reg w 16)),
   (0x76, 0xFFF000FF, fun w => .fpow (reg w 8) (reg w 12) (reg w 16)),
   (0x77, 0xFFF00FFF, fun w => .feq (reg w 12) (reg w 16)),
   (0x78, 0xFFFF00FF, fun w => .fgetv (reg w 8) (reg w 12)),
   (0x79, 0xFFFF00FF, fun w => .fgetm (reg w 8) (reg w 12)),
   (0x7A, 0xFFFF00FF, fun w => .fmov (reg w 8) (reg w 12)),
   (0x80, 0xFFFF00FF, fun w => .abs (reg w 8) (reg w 12)),
   (0x81, 0xFFF000FF, fun w => .ilog (reg w 8) (reg w 12) (reg w 16)),
   (0x82, 0xFFF000FF, fun w => .pow (reg w 8) (reg w 12) (reg w 16)),
   (0x83, 0xFF0000FF, fun w => .powm (reg w 8) (reg w 12) (reg w 16) (reg w 20)),
   (0xF0, 0xFFFFFFFF, fun _ => .clrerr)]

/-- The complete opcode map (R75). -/
def opcodeMap : List Row := rowsA ++ rowsB ++ rowsC

/-- The word passes R79's steps 1 to 3 for a row of the map. -/
def Selects (cw : CmdWord) (row : Row) : Prop :=
  row ∈ opcodeMap ∧ cw &&& row.2.1 = row.1.setWidth 32 ∧ ¬(row.1 = 0x42 ∧ reg cw 8 = reg cw 20)

/-- The commands that write RES (R33). -/
def resWriters : List String := ["CMP", "BITS", "BIT", "CAST", "SIGN", "BYTES", "DIGITS", "FEQ"]

/-- The commands whose rules admit `CapacityExceeded` (R220), OR left out. -/
def capacityCommands : List String :=
  ["LDN", "PARSE", "PARSED", "LDM", "ADD", "SUB", "MUL", "AND", "XOR", "NOT", "SHL", "TWOS", "FILL", "POW"]

end Sys2Proof.Spec

open Sys2Proof Sys2Proof.Machine

/-! ## Encoding and decoding -/

/-- Eight words, written from R75's table, mean what the table says. They take seven of R72's twelve formats: DI3, DI12, SS,
DSS, DSSR (DIVMOD and POWM), SI12 and Z. -/
def Obligations.SampleWordsDecode : Prop :=
  decode 0x00700201 = .ok (.ldn 2 ⟨true, .w64⟩) ∧
  decode 0x01000102 = .ok (.parse 1 16) ∧
  decode 0x00021010 = .ok (.cmp 1 2) ∧
  decode 0x00021320 = .ok (.add 3 1 2) ∧
  decode 0x00421342 = .ok (.divmod 3 4 1 2) ∧
  decode 0x01001061 = .ok (.str 1 16) ∧
  decode 0x00321483 = .ok (.powm 4 1 2 3) ∧
  decode 0x000000F0 = .ok .clrerr

/-- R79, R72, R75 to R78: the decoder accepts exactly the words that pass the mask of a row (and are not DIVMOD with `ra = r4`), as that
row's command with the fields of R71; the 45 opcodes are distinct, so no word matches two rows. -/
def Obligations.DecodeIsTheOpcodeMap : Prop :=
  Spec.opcodeMap.length = 45 ∧ (Spec.opcodeMap.map fun row => row.1).Nodup ∧
  (∀ cw row row', Spec.Selects cw row → Spec.Selects cw row' → row = row') ∧
  ∀ cw i, decode cw = .ok i ↔ ∃ row, Spec.Selects cw row ∧ i = row.2.2 cw

/-- Every well-formed command reads back from its word, with every operand at every value. -/
def Obligations.DecodeReadsBackEncode : Prop := ∀ i : Instr, i.wellFormed = true → decode (encode i) = .ok i

/-- Every word the decoder accepts is the encoder's word of the command it stands for, and that command is well-formed: no accepted
word has a bit that its command does not determine. -/
def Obligations.EncodeReadsBackDecode : Prop :=
  ∀ (cw : CmdWord) (i : Instr), decode cw = .ok i → encode i = cw ∧ i.wellFormed = true

/-- R76, R77, R218: a word that no row selects raises IllegalCommand, whatever the state, and changes nothing else; a word that a row
selects never raises it. -/
def Obligations.IllegalWordsRaiseIllegalCommand : Prop :=
  ∀ (cw : CmdWord) (rest : List HostTxn) (s : State), s.host = .issue cw :: rest →
    ((¬∃ row, Spec.Selects cw row) → step s = Spec.fault 7 { s with host := rest }) ∧
    ((∃ row, Spec.Selects cw row) → ∃ t, step s = .next t ∧ t.err ≠ 7)

/-! ## Steps and host transactions -/

/-- A step with an Issue at the head of the host's list runs the decoded command on the state with that transaction taken away; so does a
step on the state that `withFetchWord` makes. (The list of transactions is the model's: log entries 1 and 2.) -/
def Obligations.StepRunsTheDecodedCommand : Prop :=
  ∀ (cw : CmdWord) (i : Instr) (s : State), decode cw = .ok i →
    (∀ rest, s.host = .issue cw :: rest → step s = exec i { s with host := rest }) ∧
    step (s.withFetchWord 32 cw.toNat) = exec i s

/-- R31, R52, R231, R235: a read answers the value and changes nothing else; a legal write changes exactly the addressed state; with no
transaction left the unit holds its state. (That an empty list of transactions is an idle step is the model's choice, log entry 1; so is
where an answer goes, log entry 10.) -/
def Obligations.HostTransactionsChangeOnlyWhatTheyAddress : Prop :=
  ∀ (s : State) (rest : List HostTxn),
    (s.host = [] → step s = .next s) ∧
    (∀ (n : Fin 5), s.host = .readCsr n :: rest →
      step s = .next { s with
        host := rest, replies := s.replies ++ [.csr (#v[s.arg, s.res, s.err, s.efirst, s.tlen][n])] }) ∧
    (∀ v, s.host = .writeCsr 0 v :: rest → step s = .next { s with host := rest, arg := v }) ∧
    (∀ v : Dword, s.host = .writeCsr 4 v :: rest → v.toNat ≤ s.params.tbMax →
      step s = .next { s with host := rest, tlen := v }) ∧
    (∀ a, s.host = .readTb a :: rest → a < s.params.tbMax →
      step s = .next { s with host := rest, replies := s.replies ++ [.byte (s.tb.read a)] }) ∧
    (∀ a b, s.host = .writeTb a b :: rest → a < s.params.tbMax →
      ∃ t, step s = .next t ∧ t = { s with host := rest, tb := t.tb } ∧
        ∀ c, t.tb.read c = if c = a then b else s.tb.read c)

/-- U9: the host transactions the spec gives no meaning are refused by name. -/
def Obligations.HostProtocolViolationsAreRefused : Prop :=
  ∀ (s : State) (rest : List HostTxn),
    (∀ n, 4 < n → s.host = .readCsr n :: rest → step s = .refused (.csrNumber n)) ∧
    (∀ n v, 4 < n → s.host = .writeCsr n v :: rest → step s = .refused (.csrNumber n)) ∧
    (∀ n v, n = 1 ∨ n = 2 ∨ n = 3 → s.host = .writeCsr n v :: rest → step s = .refused (.csrReadOnly n)) ∧
    (∀ v : Dword, s.params.tbMax < v.toNat → s.host = .writeCsr 4 v :: rest → step s = .refused (.tlenTooLarge v)) ∧
    (∀ a, s.params.tbMax ≤ a → s.host = .readTb a :: rest → step s = .refused (.tbAddress a)) ∧
    (∀ a b, s.params.tbMax ≤ a → s.host = .writeTb a b :: rest → step s = .refused (.tbAddress a))

/-! ## What every command does -/

/-- R222, R223, R34, R35: every issued word ends; either with ERR 0 and EFIRST unchanged (0 for CLRERR), or with one code of 1 to 10 in
ERR, in EFIRST too if that was 0, and NOTHING else changed. -/
def Obligations.EveryCommandSucceedsOrRecordsOneFault : Prop :=
  ∀ (cw : CmdWord) (s : State),
    (∃ i t, decode cw = .ok i ∧ issueCommand cw s = .next t ∧ t.err = 0 ∧
      t.efirst = if i = .clrerr then 0 else s.efirst) ∨
    ∃ c : Dword, 1 ≤ c.toNat ∧ c.toNat ≤ 10 ∧ issueCommand cw s = Spec.fault c s

/-- R219, R224: a command with an unwritten source register raises UnwrittenRegister before any check of its own, and no other command
does. -/
def Obligations.UnwrittenSourcesAreFoundFirst : Prop :=
  ∀ (i : Instr) (s : State), i.wellFormed = true →
    (s.LacksSource i → exec i s = Spec.fault 8 s) ∧ (¬s.LacksSource i → ∃ t, exec i s = .next t ∧ t.err ≠ 8)

/-- R211: which command can raise which code; no command raises a code above 10. -/
def Obligations.FaultCodesAndTheirCommands : Prop :=
  ∀ (i : Instr) (s t : State), i.wellFormed = true → exec i s = .next t →
    t.err.toNat ≤ 10 ∧
    (t.err = 1 → i.mnemonic ∈ ["PARSE", "PARSED", "STR"]) ∧
    (t.err = 2 → i.mnemonic ∈ ["PARSE", "PARSED"]) ∧
    (t.err = 3 → i.mnemonic ∈ ["DIV", "MOD", "DIVMOD", "FDIV", "FPOW", "POWM"]) ∧
    (t.err = 4 → i.mnemonic = "FNEW") ∧
    (t.err = 5 → i.mnemonic ∈ ["FADD", "FSUB", "FMUL", "FDIV"]) ∧
    (t.err = 6 → i.mnemonic ∈ ["ILOG", "POW", "POWM"]) ∧
    t.err ≠ 7 ∧
    (t.err = 8 → i.xSources ≠ [] ∨ i.fSources ≠ []) ∧
    (s.Inv → t.err = 9 → i.mnemonic ∈ Spec.capacityCommands) ∧
    (t.err = 10 → i.mnemonic ∈ ["STR", "STM"])

/-- R220: only the commands whose rules admit it raise CapacityExceeded (LDN with MAXWORDS below 8 only, AND with two negative operands
only); OR, the divider, POWM, ILOG, SHR, NEG, ABS, the copies and every field command never do. -/
def Obligations.CapacityExceededOnlyWhereAdmitted : Prop :=
  ∀ (i : Instr) (s t : State), s.Inv → i.wellFormed = true → exec i s = .next t → t.err = 9 →
    i.mnemonic ∈ Spec.capacityCommands ∧
    (∀ xd type, i = .ldn xd type → s.params.maxWords < 8) ∧
    (∀ xd xa xb, i = .and xd xa xb → ∃ u v, s.x[xa] = some u ∧ s.x[xb] = some v ∧ u.val < 0 ∧ v.val < 0)

/-- R227: "issuing the same command word again with the same state faults again with the same code"; the second record changes nothing. -/
def Obligations.ReissuingAFaultingWordFaultsAgain : Prop :=
  ∀ (cw : CmdWord) (s t : State), issueCommand cw s = .next t → t.err ≠ 0 → issueCommand cw t = .next t

/-- R247, R75: a command's outcome and results depend on its source registers, on ARG if its row says so, on the buffer's content if its
row says so, and on the parameters; on nothing else of the state. -/
def Obligations.CommandsDependOnlyOnTheirOperands : Prop :=
  ∀ (i : Instr) (s s' : State), s.Inv → s'.Inv → s.params = s'.params →
    (∀ r ∈ i.xSources, s.x[r] = s'.x[r]) → (∀ r ∈ i.fSources, s.f[r] = s'.f[r]) →
    (i.readsArg = true → s.arg = s'.arg) → (i.loadsBuffer = true → Spec.buffer s = Spec.buffer s') →
    ∃ t t', exec i s = .next t ∧ exec i s' = .next t' ∧ t.err = t'.err ∧
      (t.err = 0 → (∀ d ∈ i.xDests, t.x[d] = t'.x[d]) ∧ (∀ d ∈ i.fDests, t.f[d] = t'.f[d]) ∧
        (i.writesRes = true → t.res = t'.res) ∧ (i.storesBuffer = true → Spec.buffer t = Spec.buffer t'))

/-- R2: "BigInt never depends on FieldElement": with other field registers a command that is not of the field layer does the same, and it
leaves the field registers alone. -/
def Obligations.BigIntCommandsIgnoreTheFieldLayer : Prop :=
  ∀ (i : Instr) (s t : State) (g : Vector (Option FieldElement) 16), i.isField = false → exec i s = .next t →
    t.f = s.f ∧ exec i { s with f := g } = .next { t with f := g }

/-- The frame of the whole command set (R21, R32, R39): no register but a command's destinations changes, RES changes only in the commands
that write it, TB and TLEN only in STR and STM, ARG, the parameters and the host's lists never. -/
def Obligations.CommandsChangeOnlyTheirDestinations : Prop :=
  ∀ (i : Instr) (s t : State), exec i s = .next t →
    (∀ r : XReg, r ∉ i.xDests → t.x[r] = s.x[r]) ∧ (∀ r : FReg, r ∉ i.fDests → t.f[r] = s.f[r]) ∧
    (i.writesRes = false → t.res = s.res) ∧
    (i.storesBuffer = false → t.tlen = s.tlen ∧ ∀ a, t.tb.read a = s.tb.read a) ∧
    t.arg = s.arg ∧ t.params = s.params ∧ t.host = s.host ∧ t.replies = s.replies

/-- R33: RES is written by eight commands and by no other; a command that faults leaves it unchanged. -/
def Obligations.OnlyTheEightQueriesWriteRes : Prop :=
  ∀ (i : Instr) (s t : State), exec i s = .next t →
    (i.mnemonic ∉ Spec.resWriters → t.res = s.res) ∧ (t.err ≠ 0 → t.res = s.res) ∧
    (i.mnemonic ∈ Spec.resWriters → t.err = 0 → ∀ r, exec i { s with res := r } = .next t)

/-- R37, R50, R51: only STR and STM touch the buffer; the bytes at and above the new TLEN keep their values; and a written register stays
written (R25). -/
def Obligations.StoresKeepTheRestOfTheBuffer : Prop :=
  ∀ (i : Instr) (s t : State), exec i s = .next t →
    (i.mnemonic ∉ ["STR", "STM"] → t.tlen = s.tlen ∧ t.tb = s.tb) ∧
    (s.Inv → i.mnemonic ∈ ["STR", "STM"] → t.err = 0 → ∀ a, t.tlen.toNat ≤ a → t.tb.read a = s.tb.read a) ∧
    (∀ r : XReg, s.x[r] ≠ none → t.x[r] ≠ none) ∧ ∀ r : FReg, s.f[r] ≠ none → t.f[r] ≠ none

/-! ## The invariant and reset -/

/-- The state after reset satisfies the invariant, whatever the parameters; so does the model's `State.reset`. -/
def Obligations.ResetSatisfiesTheInvariant : Prop :=
  (∀ p : Params, p.InRange → (State.resetWith p).Inv) ∧ State.reset.Inv

/-- Every step keeps the invariant: registers stay normalised and within capacity with zero POSITIVE (R22 to R26), field registers keep
`0 <= value < modulus` (R27, R193), ERR and EFIRST stay in 0 to 10 (R34, R35), TLEN stays at most TB_MAX (R36), the buffer keeps its
canonical form and its size. -/
def Obligations.EveryStepKeepsTheInvariant : Prop := ∀ s t : State, s.Inv → step s = .next t → t.Inv

/-- R40: the state after reset; the buffer's bytes are the free values of log entry 4, whatever they are. -/
def Obligations.ResetState : Prop :=
  (∀ r : XReg, State.reset.x[r] = none) ∧ (∀ r : FReg, State.reset.f[r] = none) ∧
  State.reset.arg = 0 ∧ State.reset.res = 0 ∧ State.reset.err = 0 ∧ State.reset.efirst = 0 ∧ State.reset.tlen = 0 ∧
  ∀ a, State.reset.tb.read a = Config.tbAfterReset a

/-- R241: right after reset a command with a source register raises UnwrittenRegister, the three loads load 0 (in a legal base), LDN loads
0, FILL gives 0 and CLRERR succeeds. -/
def Obligations.FirstCommandsAfterReset : Prop :=
  ∀ p : Params, p.InRange →
    (∀ i : Instr, i.wellFormed = true → i.xSources ≠ [] ∨ i.fSources ≠ [] →
      exec i (State.resetWith p) = Spec.fault 8 (State.resetWith p)) ∧
    (∀ i : Instr, ∀ d : XReg,
      (∃ b : Fin 4096, (2 ≤ b.val ∧ b.val ≤ 16 ∨ b.val = 256) ∧ i = .parse d b) ∨
      (∃ b : Fin 4096, 2 ≤ b.val ∧ i = .parsed d b) ∨ (∃ g, i = .ldm d g) ∨ (∃ ty, i = .ldn d ty) ∨ i = .fill d →
      exec i (State.resetWith p) =
        .next { State.resetWith p with x := (State.resetWith p).x.set d (some ⟨false, [0]⟩) }) ∧
    exec .clrerr (State.resetWith p) = .next (State.resetWith p)

/-! ## Construction -/

/-- R93, LDN: the low `N` bits of ARG, signed or unsigned; the upper bits are ignored. -/
def Obligations.LdnLoadsTheNativeInteger : Prop :=
  ∀ (xd : XReg) (code : BitVec 3) (s : State), s.Inv →
    decode (Spec.word (code.setWidth 12) 0 0 xd 0x01) = .ok (.ldn xd (NativeType.ofCode code)) ∧
    let n : Nat := 8 * 2 ^ (code.toNat % 4)
    let v : Nat := s.arg.toNat % 2 ^ n
    exec (.ldn xd (NativeType.ofCode code)) s =
      Spec.writeX s xd (if 4 ≤ code.toNat ∧ 2 ^ (n - 1) ≤ v then (v : Int) - 2 ^ n else (v : Int))

/-- R94, R92, PARSE: the base is checked first; base 256 reads big-endian bytes; in the bases 2 to 16 an optional `-` (0x2D) and then digits,
accumulated from the left, and any other character is InvalidDigit. (The codes of `-` and of the digit
characters, `0x2D` and `digitval`, are ASCII: PRESUMED, log entry 16, the spec's general knowledge G1.) -/
def Obligations.ParseReadsTheString : Prop :=
  ∀ (xd : XReg) (b : Fin 4096) (s : State), s.Inv →
    decode (Spec.word (BitVec.ofFin b) 0 0 xd 0x02) = .ok (.parse xd b) ∧
    (¬(2 ≤ b.val ∧ b.val ≤ 16 ∨ b.val = 256) → exec (.parse xd b) s = Spec.fault 1 s) ∧
    (b.val = 256 → exec (.parse xd b) s = Spec.writeX s xd
      (∑ k ∈ Finset.range s.tlen.toNat, ((Spec.buffer s).getD k 0).toNat * 256 ^ (s.tlen.toNat - 1 - k) : Nat)) ∧
    (2 ≤ b.val ∧ b.val ≤ 16 → ∀ (neg : Bool) (cs : List Byte),
      Spec.buffer s = (if neg then [0x2D] else []) ++ cs → (neg = false → cs.head? ≠ some 0x2D) →
      ((∀ c ∈ cs, ∃ d, digitval c = some d ∧ d < b.val) →
        let acc : Nat := cs.foldl (fun acc c => acc * b.val + (digitval c).getD 0) 0
        exec (.parse xd b) s = Spec.writeX s xd (if neg then -(acc : Int) else acc)) ∧
      ((∃ c ∈ cs, ∀ d, digitval c = some d → b.val ≤ d) → exec (.parse xd b) s = Spec.fault 2 s))

/-- R95, PARSED: each byte is a digit value, most significant first; any base from 2; no sign. -/
def Obligations.ParsedReadsTheDigitSequence : Prop :=
  ∀ (xd : XReg) (b : Fin 4096) (s : State), s.Inv →
    decode (Spec.word (BitVec.ofFin b) 0 0 xd 0x03) = .ok (.parsed xd b) ∧
    (b.val < 2 → exec (.parsed xd b) s = Spec.fault 1 s) ∧
    (2 ≤ b.val → (∃ c ∈ Spec.buffer s, b.val ≤ c.toNat) → exec (.parsed xd b) s = Spec.fault 2 s) ∧
    (2 ≤ b.val → (∀ c ∈ Spec.buffer s, c.toNat < b.val) →
      exec (.parsed xd b) s =
        Spec.writeX s xd ((Spec.buffer s).foldl (fun acc c => acc * b.val + c.toNat) 0 : Nat))

/-- R96, LDM: the buffer's bytes are the words, least significant first, trimmed (R90); the given sign, but zero is POSITIVE. -/
def Obligations.LdmLoadsTheTrimmedWords : Prop :=
  ∀ (xd : XReg) (negative : Bool) (s : State), s.Inv →
    decode (Spec.word (if negative then 1 else 0) 0 0 xd 0x04) = .ok (.ldm xd negative) ∧
    let m := trim (Spec.buffer s)
    let a : Nat := ∑ k ∈ Finset.range s.tlen.toNat, ((Spec.buffer s).getD k 0).toNat * 256 ^ k
    exec (.ldm xd negative) s = Spec.writeX s xd (if negative then -(a : Int) else a) ∧
    (m.length ≤ s.params.maxWords → exec (.ldm xd negative) s =
      .next { s with x := s.x.set xd (some { sign := negative && decide (m ≠ [0]), magnitude := m }), err := 0 }) ∧
    (s.params.maxWords < m.length → exec (.ldm xd negative) s = Spec.fault 9 s)

/-- R97, R190, R191, R192: the four copies write exactly what the source holds, component by component, and never fault on a written
source. -/
def Obligations.CopiesCopyTheRegister : Prop :=
  ∀ (d a : Fin 16) (s : State), s.Inv →
    decode (Spec.word 0 0 a d 0x05) = .ok (.mov d a) ∧ decode (Spec.word 0 0 a d 0x78) = .ok (.fgetv d a) ∧
    decode (Spec.word 0 0 a d 0x79) = .ok (.fgetm d a) ∧ decode (Spec.word 0 0 a d 0x7A) = .ok (.fmov d a) ∧
    (s.x[a] = none → exec (.mov d a) s = Spec.fault 8 s) ∧
    (s.f[a] = none → exec (.fgetv d a) s = Spec.fault 8 s ∧ exec (.fgetm d a) s = Spec.fault 8 s ∧
      exec (.fmov d a) s = Spec.fault 8 s) ∧
    (∀ u, s.x[a] = some u → exec (.mov d a) s = .next { s with x := s.x.set d (some u), err := 0 }) ∧
    ∀ e, s.f[a] = some e →
      exec (.fgetv d a) s = .next { s with x := s.x.set d (some e.value), err := 0 } ∧
      exec (.fgetm d a) s = .next { s with x := s.x.set d (some e.modulus), err := 0 } ∧
      exec (.fmov d a) s = .next { s with f := s.f.set d (some e), err := 0 }

/-! ## Comparison -/

/-- R113, R111, R112, CMP: -1, 0 or +1 in RES by the order of the integers; the word-serial comparison gives that order, and equal integers
are equal sign and words. -/
def Obligations.CmpOrdersTheIntegers : Prop :=
  ∀ (a b : XReg) (s : State), s.Inv →
    decode (Spec.word 0 b a 0 0x10) = .ok (.cmp a b) ∧
    (s.x[a] = none ∨ s.x[b] = none → exec (.cmp a b) s = Spec.fault 8 s) ∧
    ∀ u v, s.x[a] = some u → s.x[b] = some v →
      (u.val < v.val → BigInt.cmp u v = .lt ∧ exec (.cmp a b) s = Spec.writeRes s 0xFFFFFFFFFFFFFFFF) ∧
      (u.val = v.val → u = v ∧ BigInt.cmp u v = .eq ∧ exec (.cmp a b) s = Spec.writeRes s 0) ∧
      (v.val < u.val → BigInt.cmp u v = .gt ∧ exec (.cmp a b) s = Spec.writeRes s 1)

/-- R81: each relational pseudo-instruction's test on RES, after its command has succeeded, says whether the relation holds. -/
def Obligations.RelationalTestsReadTheComparison : Prop :=
  ∀ (s : State), s.Inv →
    (∀ (r : Relation) (a b : XReg) (u v : BigInt), s.x[a] = some u → s.x[b] = some v →
      ∃ t, exec (Pseudo.relation r a b).expand s = .next t ∧ t.err = 0 ∧
        ((Pseudo.relation r a b).test t.res = true ↔ r.holds u.val v.val)) ∧
    ∀ (a b : FReg) (e g : FieldElement), s.f[a] = some e → s.f[b] = some g →
      ∃ t, exec (Pseudo.fne a b).expand s = .next t ∧ t.err = 0 ∧ ((Pseudo.fne a b).test t.res = true ↔ e ≠ g)

/-! ## Adder, subtractor, multiplier -/

/-- R123, R122, ADD: the exact sum, as the carry datapath delivers it. -/
def Obligations.AddIsTheExactSum : Prop :=
  ∀ (d a b : XReg) (s : State), s.Inv →
    decode (Spec.word 0 b a d 0x20) = .ok (.add d a b) ∧
    (s.x[a] = none ∨ s.x[b] = none → exec (.add d a b) s = Spec.fault 8 s) ∧
    ∀ u v, s.x[a] = some u → s.x[b] = some v →
      exec (.add d a b) s = Spec.writeX s d (u.val + v.val) ∧ sadd u v = BigInt.big (u.val + v.val)

/-- R124, SUB: the exact difference, as the datapath "`a + (-b)`" delivers it. -/
def Obligations.SubIsTheExactDifference : Prop :=
  ∀ (d a b : XReg) (s : State), s.Inv →
    decode (Spec.word 0 b a d 0x21) = .ok (.sub d a b) ∧
    (s.x[a] = none ∨ s.x[b] = none → exec (.sub d a b) s = Spec.fault 8 s) ∧
    ∀ u v, s.x[a] = some u → s.x[b] = some v →
      exec (.sub d a b) s = Spec.writeX s d (u.val - v.val) ∧ sadd u (sneg v) = BigInt.big (u.val - v.val)

/-- R125, R200, NEG and ABS: the same magnitude with the sign turned (zero stays POSITIVE) or POSITIVE; never CapacityExceeded. -/
def Obligations.NegAndAbsKeepTheMagnitude : Prop :=
  ∀ (d a : XReg) (s : State), s.Inv →
    decode (Spec.word 0 0 a d 0x22) = .ok (.neg d a) ∧ decode (Spec.word 0 0 a d 0x80) = .ok (.abs d a) ∧
    (s.x[a] = none → exec (.neg d a) s = Spec.fault 8 s ∧ exec (.abs d a) s = Spec.fault 8 s) ∧
    ∀ u, s.x[a] = some u →
      (∃ w : BigInt, w = (if u.magnitude = [0] then { sign := false, magnitude := u.magnitude } else
          { sign := !u.sign, magnitude := u.magnitude }) ∧ w.val = -u.val ∧
        exec (.neg d a) s = .next { s with x := s.x.set d (some w), err := 0 }) ∧
      ∃ w : BigInt, w = { sign := false, magnitude := u.magnitude } ∧ w.val = |u.val| ∧
        exec (.abs d a) s = .next { s with x := s.x.set d (some w), err := 0 }

/-- R135, R130, MUL: the exact product, as the sign rule over the folded convolution of the words delivers it; its length is the sum of the
operands' lengths or one less, and 1 for zero. -/
def Obligations.MulIsTheExactProduct : Prop :=
  ∀ (d a b : XReg) (s : State), s.Inv →
    decode (Spec.word 0 b a d 0x30) = .ok (.mul d a b) ∧
    (s.x[a] = none ∨ s.x[b] = none → exec (.mul d a b) s = Spec.fault 8 s) ∧
    ∀ u v, s.x[a] = some u → s.x[b] = some v →
      exec (.mul d a b) s = Spec.writeX s d (u.val * v.val) ∧ smul u v = BigInt.big (u.val * v.val) ∧
      (u.val * v.val = 0 → (smul u v).len = 1) ∧
      (u.val * v.val ≠ 0 → (smul u v).len = u.len + v.len ∨ (smul u v).len + 1 = u.len + v.len)

/-- R131 steps 1 to 5 in exact arithmetic: over a field with a primitive root of unity of the transform length, the inverse transform of the
pointwise product of the two transforms is the acyclic convolution of the words, because the length is at least the sum of the
lengths. (The transform's formula is the spec's general knowledge, G2; that the model has the exact transform and no binary64 arithmetic is
log entry 8.) -/
def Obligations.TransformRecoversTheConvolution : Prop :=
  ∀ (K : Type) [Field K] (a b : List Byte) (w : K), IsPrimitiveRoot w (fftLength (a.length + b.length)) →
    ∀ k < fftLength (a.length + b.length),
      fftCoeffScaled (fftLength (a.length + b.length)) w w⁻¹ a b k =
        (fftLength (a.length + b.length) : K) * (convCoeff a b k : K)

/-! ## Divider -/

/-- R142, R140, R141: long division of the magnitudes and the sign table give the Euclidean quotient and remainder of the integers, both
normalised; a zero divisor is the one error. -/
def Obligations.LongDivisionIsEuclidean : Prop :=
  ∀ u v : BigInt, u.Normalised → v.Normalised →
    (v.val = 0 → sdivmod u v = .error .divisionByZero) ∧
    (v.val ≠ 0 → ∃ q r : BigInt, sdivmod u v = .ok (q, r) ∧ q.Normalised ∧ r.Normalised ∧
      u.val = q.val * v.val + r.val ∧ 0 ≤ r.val ∧ r.val < |v.val| ∧ q.val = ediv u.val v.val ∧ r.val = emod u.val v.val)

/-- R143, R144, R146, DIV and MOD: the Euclidean quotient and remainder; a zero divisor is DivisionByZero; never CapacityExceeded. -/
def Obligations.DivAndModAreEuclidean : Prop :=
  ∀ (d a b : XReg) (s : State), s.Inv →
    decode (Spec.word 0 b a d 0x40) = .ok (.div d a b) ∧ decode (Spec.word 0 b a d 0x41) = .ok (.mod d a b) ∧
    (s.x[a] = none ∨ s.x[b] = none → exec (.div d a b) s = Spec.fault 8 s ∧ exec (.mod d a b) s = Spec.fault 8 s) ∧
    ∀ u v, s.x[a] = some u → s.x[b] = some v →
      (v.val = 0 → exec (.div d a b) s = Spec.fault 3 s ∧ exec (.mod d a b) s = Spec.fault 3 s) ∧
      (v.val ≠ 0 → ∃ q r : Int, u.val = q * v.val + r ∧ 0 ≤ r ∧ r < |v.val| ∧
        exec (.div d a b) s = .next { s with x := s.x.set d (some (BigInt.big q)), err := 0 } ∧
        exec (.mod d a b) s = .next { s with x := s.x.set d (some (BigInt.big r)), err := 0 })

/-- R145, DIVMOD: both results or neither; either destination may be a source. -/
def Obligations.DivmodWritesBothOrNeither : Prop :=
  ∀ (q r a b : XReg) (s : State), s.Inv →
    (q = r → ∃ e, decode (Spec.word (Spec.r4 r) b a q 0x42) = .error e) ∧
    (q ≠ r →
      decode (Spec.word (Spec.r4 r) b a q 0x42) = .ok (.divmod q r a b) ∧
      (s.x[a] = none ∨ s.x[b] = none → exec (.divmod q r a b) s = Spec.fault 8 s) ∧
      ∀ u v, s.x[a] = some u → s.x[b] = some v →
        (v.val = 0 → exec (.divmod q r a b) s = Spec.fault 3 s) ∧
        (v.val ≠ 0 → exec (.divmod q r a b) s = .next { s with
          x := (s.x.set q (some (BigInt.big (ediv u.val v.val)))).set r (some (BigInt.big (emod u.val v.val)))
          err := 0 }))

/-! ## The two's-complement view, shifts and bit queries -/

/-- R152, R153, R154, R151: the result of AND, OR and XOR is the one integer whose bits in the infinite sign-extended form are the operation
on the operands' bits; AND can exceed the capacity only when both operands are negative, OR never. -/
def Obligations.BitwiseCommandsActOnEveryBit : Prop :=
  ∀ (d a b : XReg) (s : State), s.Inv →
    decode (Spec.word 0 b a d 0x50) = .ok (.and d a b) ∧ decode (Spec.word 0 b a d 0x51) = .ok (.or d a b) ∧
    decode (Spec.word 0 b a d 0x52) = .ok (.xor d a b) ∧
    (s.x[a] = none ∨ s.x[b] = none → exec (.and d a b) s = Spec.fault 8 s ∧ exec (.or d a b) s = Spec.fault 8 s ∧
      exec (.xor d a b) s = Spec.fault 8 s) ∧
    ∀ u v, s.x[a] = some u → s.x[b] = some v →
      (∃ r : Int, exec (.and d a b) s = Spec.writeX s d r ∧ bitop Nat.land u.val v.val = r ∧
        (¬(u.val < 0 ∧ v.val < 0) → |r| ≤ max |u.val| |v.val|) ∧
        ∀ y : Int, y = r ↔ ∀ i, (ibit y i = 1 ↔ ibit u.val i = 1 ∧ ibit v.val i = 1)) ∧
      (∃ r : Int, exec (.or d a b) s = .next { s with x := s.x.set d (some (BigInt.big r)), err := 0 } ∧
        bitop Nat.lor u.val v.val = r ∧
        ∀ y : Int, y = r ↔ ∀ i, (ibit y i = 1 ↔ ibit u.val i = 1 ∨ ibit v.val i = 1)) ∧
      ∃ r : Int, exec (.xor d a b) s = Spec.writeX s d r ∧ bitop Nat.xor u.val v.val = r ∧
        ∀ y : Int, y = r ↔ ∀ i, (ibit y i = 1 ↔ ¬(ibit u.val i = 1 ↔ ibit v.val i = 1))

/-- R155, NOT: `-(z + 1)`, which flips every bit of the infinite form. -/
def Obligations.NotFlipsEveryBit : Prop :=
  ∀ (d a : XReg) (s : State), s.Inv →
    decode (Spec.word 0 0 a d 0x53) = .ok (.not d a) ∧
    (s.x[a] = none → exec (.not d a) s = Spec.fault 8 s) ∧
    ∀ u, s.x[a] = some u → exec (.not d a) s = Spec.writeX s d (-(u.val + 1)) ∧
      ∀ i, ibit (-(u.val + 1)) i = 1 - ibit u.val i

/-- R156, R157, SHL and SHR: `z * 2^ARG` (CapacityExceeded exactly when `z != 0` and `bitlen(|z|) + ARG > 8 * MAXWORDS`) and
`floor(z / 2^ARG)` (never CapacityExceeded), for every 64-bit count. -/
def Obligations.ShiftsMultiplyAndFloor : Prop :=
  ∀ (d a : XReg) (s : State), s.Inv →
    decode (Spec.word 0 0 a d 0x54) = .ok (.shl d a) ∧ decode (Spec.word 0 0 a d 0x55) = .ok (.shr d a) ∧
    (s.x[a] = none → exec (.shl d a) s = Spec.fault 8 s ∧ exec (.shr d a) s = Spec.fault 8 s) ∧
    ∀ u, s.x[a] = some u →
      (u.val ≠ 0 ∧ 8 * s.params.maxWords < bitlen u.val.natAbs + s.arg.toNat → exec (.shl d a) s = Spec.fault 9 s) ∧
      (¬(u.val ≠ 0 ∧ 8 * s.params.maxWords < bitlen u.val.natAbs + s.arg.toNat) →
        exec (.shl d a) s = .next { s with x := s.x.set d (some (BigInt.big (u.val * 2 ^ s.arg.toNat))), err := 0 }) ∧
      exec (.shr d a) s = .next { s with x := s.x.set d (some (BigInt.big ⌊(u.val : ℚ) / 2 ^ s.arg.toNat⌋)), err := 0 }

/-- R158, R159, TWOS and FILL: `z mod 2^ARG` as a non-negative integer and `2^ARG - 1`, for every 64-bit width. -/
def Obligations.TwosAndFillGiveTheView : Prop :=
  ∀ (d a : XReg) (s : State), s.Inv →
    decode (Spec.word 0 0 a d 0x56) = .ok (.twos d a) ∧ decode (Spec.word 0 0 0 d 0x57) = .ok (.fill d) ∧
    (s.x[a] = none → exec (.twos d a) s = Spec.fault 8 s) ∧
    (∀ u, s.x[a] = some u → exec (.twos d a) s = Spec.writeX s d (emod u.val (2 ^ s.arg.toNat))) ∧
    (s.arg.toNat ≤ 8 * s.params.maxWords →
      exec (.fill d) s = .next { s with x := s.x.set d (some (BigInt.big (2 ^ s.arg.toNat - 1))), err := 0 }) ∧
    (8 * s.params.maxWords < s.arg.toNat → exec (.fill d) s = Spec.fault 9 s)

/-- R161, R162, BITS and BIT: the bit length of the magnitude, and bit `ARG` of the magnitude, which is bit `i mod 8` of word `i div 8` and 0
beyond the last word. -/
def Obligations.BitsAndBitReadTheMagnitude : Prop :=
  ∀ (a : XReg) (s : State), s.Inv →
    decode (Spec.word 0 0 a 0 0x58) = .ok (.bits a) ∧ decode (Spec.word 0 0 a 0 0x59) = .ok (.bit a) ∧
    (s.x[a] = none → exec (.bits a) s = Spec.fault 8 s ∧ exec (.bit a) s = Spec.fault 8 s) ∧
    ∀ u, s.x[a] = some u →
      (∃ v : Dword, v.toNat = bitlen u.val.natAbs ∧ exec (.bits a) s = Spec.writeRes s v) ∧
      ∃ v : Dword, (v.toNat : Int) = emod (ediv |u.val| (2 ^ s.arg.toNat)) 2 ∧
        v = (if (u.magnitude.getD (s.arg.toNat / 8) 0).getLsbD (s.arg.toNat % 8) then 1 else 0) ∧
        exec (.bit a) s = Spec.writeRes s v

/-! ## Conversion and queries -/

/-- R170, CAST: the value modulo `2^N`, extended to 64 bits by the type's signedness; nothing faults but an unwritten source. -/
def Obligations.CastWrapsAndExtends : Prop :=
  ∀ (a : XReg) (code : BitVec 3) (s : State), s.Inv →
    decode (Spec.word (code.setWidth 12) 0 a 0 0x60) = .ok (.cast a (NativeType.ofCode code)) ∧
    (s.x[a] = none → exec (.cast a (NativeType.ofCode code)) s = Spec.fault 8 s) ∧
    ∀ u, s.x[a] = some u →
      let n : Nat := 8 * 2 ^ (code.toNat % 4)
      ∃ y : Int, (∃ k : Int, u.val = y + k * 2 ^ n) ∧
        (code.toNat < 4 → 0 ≤ y ∧ y < 2 ^ n) ∧ (4 ≤ code.toNat → -2 ^ (n - 1) ≤ y ∧ y < 2 ^ (n - 1)) ∧
        exec (.cast a (NativeType.ofCode code)) s = Spec.writeRes s (BitVec.ofInt 64 y)

/-- R172, R171, STR: InvalidBase first; then the digits of the magnitude in the base (most significant first, no leading zero, at least
one), padded with zero digits to ARG digits, after a `-` for a negative value in the bases up to 16; BufferOverflow if that is longer
than TB_MAX, before any byte is stored. (The codes of `-` and of the digit
characters, `0x2D` and `digitchar`, are ASCII: PRESUMED, log entry 16, the spec's general knowledge G1.) -/
def Obligations.StrRendersTheValue : Prop :=
  ∀ (a : XReg) (b : Fin 4096) (s : State), s.Inv →
    decode (Spec.word (BitVec.ofFin b) 0 a 0 0x61) = .ok (.str a b) ∧
    (s.x[a] = none → exec (.str a b) s = Spec.fault 8 s) ∧
    ∀ u, s.x[a] = some u →
      (¬(2 ≤ b.val ∧ b.val ≤ 16 ∨ b.val = 256) → exec (.str a b) s = Spec.fault 1 s) ∧
      (2 ≤ b.val ∧ b.val ≤ 16 ∨ b.val = 256 →
        ∃ ds : List Nat, ds ≠ [] ∧ (∀ d ∈ ds, d < b.val) ∧ (ds.head? = some 0 → ds = [0]) ∧
          ds.foldl (fun acc d => acc * b.val + d) 0 = u.val.natAbs ∧
          let char : Nat → Byte := fun d => if b.val = 256 then BitVec.ofNat 8 d else digitchar d
          let out : List Byte := (if u.val < 0 ∧ b.val ≤ 16 then [0x2D] else []) ++
            List.replicate (s.arg.toNat - ds.length) (char 0) ++ ds.map char
          (out.length ≤ s.params.tbMax → Spec.Stores s out (exec (.str a b) s)) ∧
          (s.params.tbMax < out.length → exec (.str a b) s = Spec.fault 10 s))

/-- R173, STM: the magnitude's words, least significant first; and LDM with the value's sign restores the register's content. -/
def Obligations.StmStoresTheMagnitude : Prop :=
  ∀ (a : XReg) (s : State), s.Inv →
    decode (Spec.word 0 0 a 0 0x62) = .ok (.stm a) ∧
    (s.x[a] = none → exec (.stm a) s = Spec.fault 8 s) ∧
    ∀ u, s.x[a] = some u →
      (s.params.tbMax < u.len → exec (.stm a) s = Spec.fault 10 s) ∧
      (u.len ≤ s.params.tbMax → Spec.Stores s u.magnitude (exec (.stm a) s) ∧
        ∀ d : XReg, ∃ t t', exec (.stm a) s = .next t ∧ exec (.ldm d u.sign) t = .next t' ∧ t'.err = 0 ∧
          t'.x[d] = some u)

/-- R174: for every legal base and every minimum length, STR and then PARSE in the same base gives the value back, up to the sign in base
256, which carries none. -/
def Obligations.ParseReadsBackWhatStrWrote : Prop :=
  ∀ (a d : XReg) (b : Fin 4096) (s t : State) (u : BigInt), s.Inv → s.x[a] = some u →
    (2 ≤ b.val ∧ b.val ≤ 16 ∨ b.val = 256) → exec (.str a b) s = .next t → t.err = 0 →
    ∃ t', exec (.parse d b) t = .next t' ∧ t'.err = 0 ∧
      t'.x[d] = some (if b.val = 256 then { sign := false, magnitude := u.magnitude } else u)

/-- R175, R176, R177, SIGN, BYTES and DIGITS: the stored sign; the number of words, which with `W = 8` is the number of bytes. -/
def Obligations.QueriesReadSignAndSize : Prop :=
  ∀ (a : XReg) (s : State), s.Inv →
    decode (Spec.word 0 0 a 0 0x63) = .ok (.sign a) ∧ decode (Spec.word 0 0 a 0 0x64) = .ok (.bytes a) ∧
    decode (Spec.word 0 0 a 0 0x65) = .ok (.digits a) ∧
    (s.x[a] = none → exec (.sign a) s = Spec.fault 8 s ∧ exec (.bytes a) s = Spec.fault 8 s ∧
      exec (.digits a) s = Spec.fault 8 s) ∧
    ∀ u, s.x[a] = some u →
      exec (.sign a) s = Spec.writeRes s (if u.val < 0 then 1 else 0) ∧
      exec (.sign a) s = Spec.writeRes s (if u.sign then 1 else 0) ∧
      ∃ v : Dword, v.toNat = u.magnitude.length ∧ exec (.bytes a) s = Spec.writeRes s v ∧
        exec (.digits a) s = Spec.writeRes s v

/-! ## The field layer -/

/-- R180, FNEW: the pair as it stands when `0 <= v < p`, OutOfRange otherwise; no other check. -/
def Obligations.FnewChecksTheRange : Prop :=
  ∀ (d : FReg) (a b : XReg) (s : State), s.Inv →
    decode (Spec.word 0 b a d 0x70) = .ok (.fnew d a b) ∧
    (s.x[a] = none ∨ s.x[b] = none → exec (.fnew d a b) s = Spec.fault 8 s) ∧
    ∀ u v, s.x[a] = some u → s.x[b] = some v →
      (0 ≤ u.val ∧ u.val < v.val →
        exec (.fnew d a b) s = .next { s with f := s.f.set d (some { value := u, modulus := v }), err := 0 }) ∧
      (¬(0 ≤ u.val ∧ u.val < v.val) → exec (.fnew d a b) s = Spec.fault 4 s)

/-- R181 to R184, FADD, FSUB and FMUL: IncompatibleField for different moduli; otherwise the residue of the sum, difference or product, over
the first operand's modulus, unchanged. -/
def Obligations.FieldArithmeticIsModular : Prop :=
  ∀ (d a b : FReg) (s : State), s.Inv →
    decode (Spec.word 0 b a d 0x71) = .ok (.fadd d a b) ∧ decode (Spec.word 0 b a d 0x72) = .ok (.fsub d a b) ∧
    decode (Spec.word 0 b a d 0x73) = .ok (.fmul d a b) ∧
    (s.f[a] = none ∨ s.f[b] = none → exec (.fadd d a b) s = Spec.fault 8 s ∧ exec (.fsub d a b) s = Spec.fault 8 s ∧
      exec (.fmul d a b) s = Spec.fault 8 s) ∧
    ∀ e g, s.f[a] = some e → s.f[b] = some g →
      (e.modulus.val ≠ g.modulus.val → exec (.fadd d a b) s = Spec.fault 5 s ∧ exec (.fsub d a b) s = Spec.fault 5 s ∧
        exec (.fmul d a b) s = Spec.fault 5 s) ∧
      (e.modulus.val = g.modulus.val →
        let p := e.modulus.val
        let put := fun r : Int => (.next { s with
          f := s.f.set d (some { value := BigInt.big r, modulus := e.modulus }), err := 0 } : Spec.Result)
        exec (.fadd d a b) s = put (emod (e.value.val + g.value.val) p) ∧
        exec (.fsub d a b) s = put (emod (e.value.val - g.value.val) p) ∧
        exec (.fmul d a b) s = put (emod (e.value.val * g.value.val) p))

/-- R185, FSMUL: any integer scalar, no compatibility check, reduced modulo the field's modulus. -/
def Obligations.FsmulTakesAnyScalar : Prop :=
  ∀ (d a : FReg) (b : XReg) (s : State), s.Inv →
    decode (Spec.word 0 b a d 0x74) = .ok (.fsmul d a b) ∧
    (s.f[a] = none ∨ s.x[b] = none → exec (.fsmul d a b) s = Spec.fault 8 s) ∧
    ∀ e v, s.f[a] = some e → s.x[b] = some v → ∃ r : Int,
      (∃ k : Int, e.value.val * v.val = k * e.modulus.val + r) ∧ 0 ≤ r ∧ r < e.modulus.val ∧
      exec (.fsmul d a b) s = .next { s with
        f := s.f.set d (some { value := BigInt.big r, modulus := e.modulus }), err := 0 }

/-- R187, FDIV: IncompatibleField before DivisionByZero; then `a * (b^(p-2) mod p) mod p`, and for a prime modulus that times the divisor is
the dividend. -/
def Obligations.FdivUsesTheFermatInverse : Prop :=
  ∀ (d a b : FReg) (s : State), s.Inv →
    decode (Spec.word 0 b a d 0x75) = .ok (.fdiv d a b) ∧
    (s.f[a] = none ∨ s.f[b] = none → exec (.fdiv d a b) s = Spec.fault 8 s) ∧
    ∀ e g, s.f[a] = some e → s.f[b] = some g →
      (e.modulus.val ≠ g.modulus.val → exec (.fdiv d a b) s = Spec.fault 5 s) ∧
      (e.modulus.val = g.modulus.val → g.value.val = 0 → exec (.fdiv d a b) s = Spec.fault 3 s) ∧
      (e.modulus.val = g.modulus.val → g.value.val ≠ 0 →
        let p := e.modulus.val
        let c := emod (e.value.val * emod (g.value.val ^ (p - 2).toNat) p) p
        2 ≤ p ∧
        exec (.fdiv d a b) s = .next { s with
          f := s.f.set d (some { value := BigInt.big c, modulus := e.modulus }), err := 0 } ∧
        (p.natAbs.Prime → emod (c * g.value.val) p = e.value.val))

/-- R188, FPOW: the exponent is reduced modulo `p - 1` first, so a negative one is accepted; modulus 1 is DivisionByZero; base 0 is not
treated apart. -/
def Obligations.FpowReducesTheExponent : Prop :=
  ∀ (d a : FReg) (b : XReg) (s : State), s.Inv →
    decode (Spec.word 0 b a d 0x76) = .ok (.fpow d a b) ∧
    (s.f[a] = none ∨ s.x[b] = none → exec (.fpow d a b) s = Spec.fault 8 s) ∧
    ∀ e v, s.f[a] = some e → s.x[b] = some v →
      (e.modulus.val = 1 → exec (.fpow d a b) s = Spec.fault 3 s) ∧
      (e.modulus.val ≠ 1 →
        let p := e.modulus.val
        exec (.fpow d a b) s = .next { s with
          f := s.f.set d (some { value := BigInt.big (emod (e.value.val ^ (emod v.val (p - 1)).toNat) p)
                                 modulus := e.modulus }), err := 0 })

/-- R194: for a prime modulus and a nonzero value, FPOW with exponent `p - 1` gives 1, FDIV of the element by itself gives 1, and the power
for a sum of any two integer exponents is the field product of the two powers. -/
def Obligations.FermatConsistency : Prop :=
  ∀ (d a : FReg) (x1 x2 x3 : XReg) (s : State) (e : FieldElement) (v1 v2 v3 : BigInt), s.Inv →
    s.f[a] = some e → e.modulus.val.natAbs.Prime → e.value.val ≠ 0 →
    s.x[x1] = some v1 → s.x[x2] = some v2 → s.x[x3] = some v3 → v3.val = v1.val + v2.val →
    let one : Option FieldElement := some { value := { sign := false, magnitude := [1] }, modulus := e.modulus }
    (v1.val = e.modulus.val - 1 → ∃ t, exec (.fpow d a x1) s = .next t ∧ t.err = 0 ∧ t.f[d] = one) ∧
    (∃ t, exec (.fdiv d a a) s = .next t ∧ t.err = 0 ∧ t.f[d] = one) ∧
    ∃ t1 t2 t3 e1 e2 e3, exec (.fpow d a x1) s = .next t1 ∧ t1.f[d] = some e1 ∧
      exec (.fpow d a x2) s = .next t2 ∧ t2.f[d] = some e2 ∧ exec (.fpow d a x3) s = .next t3 ∧ t3.f[d] = some e3 ∧
      e3.value.val = emod (e1.value.val * e2.value.val) e.modulus.val

/-- R189, FEQ: 1 exactly when both value and modulus are equal; never IncompatibleField. -/
def Obligations.FeqComparesValueAndModulus : Prop :=
  ∀ (a b : FReg) (s : State), s.Inv →
    decode (Spec.word 0 b a 0 0x77) = .ok (.feq a b) ∧
    (s.f[a] = none ∨ s.f[b] = none → exec (.feq a b) s = Spec.fault 8 s) ∧
    ∀ e g, s.f[a] = some e → s.f[b] = some g →
      (e.value.val = g.value.val ∧ e.modulus.val = g.modulus.val → e = g ∧ exec (.feq a b) s = Spec.writeRes s 1) ∧
      (¬(e.value.val = g.value.val ∧ e.modulus.val = g.modulus.val) → e ≠ g ∧ exec (.feq a b) s = Spec.writeRes s 0)

/-! ## Helpers and system -/

/-- R201, ILOG: the `k` with `b^k <= v < b^(k+1)`; DomainError for a base below 2 or a value below 1; never CapacityExceeded. -/
def Obligations.IlogIsTheFloorLogarithm : Prop :=
  ∀ (d a b : XReg) (s : State), s.Inv →
    decode (Spec.word 0 b a d 0x81) = .ok (.ilog d a b) ∧
    (s.x[a] = none ∨ s.x[b] = none → exec (.ilog d a b) s = Spec.fault 8 s) ∧
    ∀ v g, s.x[a] = some v → s.x[b] = some g →
      (g.val < 1 ∨ v.val ≤ 0 ∨ g.val = 1 → exec (.ilog d a b) s = Spec.fault 6 s) ∧
      (2 ≤ g.val → 1 ≤ v.val → ∃ k : Nat, g.val ^ k ≤ v.val ∧ v.val < g.val ^ (k + 1) ∧
        exec (.ilog d a b) s = .next { s with x := s.x.set d (some (BigInt.big k)), err := 0 })

/-- R202, POW: the exact power with `b^0 = 1` for every base, for exponents of any size; DomainError for a negative exponent. -/
def Obligations.PowIsTheExactPower : Prop :=
  ∀ (d a b : XReg) (s : State), s.Inv →
    decode (Spec.word 0 b a d 0x82) = .ok (.pow d a b) ∧
    (s.x[a] = none ∨ s.x[b] = none → exec (.pow d a b) s = Spec.fault 8 s) ∧
    ∀ g e, s.x[a] = some g → s.x[b] = some e →
      (e.val < 0 → exec (.pow d a b) s = Spec.fault 6 s) ∧
      (0 ≤ e.val → exec (.pow d a b) s = Spec.writeX s d (g.val ^ e.val.toNat))

/-- R203, R186, POWM: the zero modulus is found before the negative exponent; otherwise the Euclidean remainder of the power, as
square-and-multiply delivers it; never CapacityExceeded. -/
def Obligations.PowmIsTheModularPower : Prop :=
  ∀ (d a b m : XReg) (s : State), s.Inv →
    decode (Spec.word (Spec.r4 m) b a d 0x83) = .ok (.powm d a b m) ∧
    (s.x[a] = none ∨ s.x[b] = none ∨ s.x[m] = none → exec (.powm d a b m) s = Spec.fault 8 s) ∧
    ∀ g e p, s.x[a] = some g → s.x[b] = some e → s.x[m] = some p →
      (p.val = 0 → exec (.powm d a b m) s = Spec.fault 3 s) ∧
      (p.val ≠ 0 → e.val < 0 → exec (.powm d a b m) s = Spec.fault 6 s) ∧
      (p.val ≠ 0 → 0 ≤ e.val →
        modpow g.val e.val.toNat p.val = emod (g.val ^ e.val.toNat) p.val ∧
        exec (.powm d a b m) s =
          .next { s with x := s.x.set d (some (BigInt.big (emod (g.val ^ e.val.toNat) p.val))), err := 0 })

/-- R204: for a modulus of at least 2, FPOW with a non-negative exponent below `p - 1` gives the residue that POWM gives on the value, the
exponent and the modulus, and FDIV multiplies by what POWM gives with the exponent `p - 2`. -/
def Obligations.HelpersAgreeWithTheFieldLayer : Prop :=
  ∀ (d a c : FReg) (xd xv xe xm : XReg) (s : State) (g h : FieldElement) (e : BigInt), s.Inv →
    s.f[a] = some g → 2 ≤ g.modulus.val → s.x[xv] = some g.value → s.x[xm] = some g.modulus → s.x[xe] = some e →
    (0 ≤ e.val → e.val < g.modulus.val - 1 →
      ∃ t t' r, exec (.fpow d a xe) s = .next t ∧ exec (.powm xd xv xe xm) s = .next t' ∧ t.f[d] = some r ∧
        t'.x[xd] = some r.value) ∧
    (s.f[c] = some h → h.modulus.val = g.modulus.val → g.value.val ≠ 0 → e.val = g.modulus.val - 2 →
      ∃ t t' r i, exec (.fdiv d c a) s = .next t ∧ exec (.powm xd xv xe xm) s = .next t' ∧ t.f[d] = some r ∧
        t'.x[xd] = some i ∧ r.value.val = emod (h.value.val * i.val) g.modulus.val)

/-- R230, CLRERR: EFIRST and ERR become 0 and nothing else changes; its word is exactly `0x000000F0`, and every other word with that opcode
raises IllegalCommand without clearing EFIRST. -/
def Obligations.ClrerrClearsTheStickyRecord : Prop :=
  (∀ s : State, exec .clrerr s = .next { s with err := 0, efirst := 0 }) ∧
  ∀ (cw : CmdWord) (s : State), cw.extractLsb' 0 8 = 0xF0 →
    issueCommand cw s = if cw = 0x000000F0 then .next { s with err := 0, efirst := 0 } else Spec.fault 7 s
end

