-- ==== Sys2Proof/Laws/Arith.lean ====
section
/-! SUPPORT. The laws of the spec's notation (R8 to R10): division, bit length, digit sequences, `val` and `big`. -/

namespace Sys2Proof

/-! ## Division (R9) -/

theorem emod_nonneg (a : Int) {b : Int} (h : b ≠ 0) : 0 ≤ emod a b := Int.emod_nonneg a h

theorem emod_lt (a : Int) {b : Int} (h : b ≠ 0) : emod a b < |b| := Int.emod_lt_abs a h

theorem ediv_mul_add_emod (a b : Int) : ediv a b * b + emod a b = a := by
  unfold ediv emod; rw [mul_comm]; exact Int.mul_ediv_add_emod a b

/-- R9: `emod` is the unique remainder and `ediv` the quotient that goes with it. -/
theorem ediv_emod_unique {a b q r : Int} (h : a = q * b + r) (h0 : 0 ≤ r) (h1 : r < |b|) :
    ediv a b = q ∧ emod a b = r := by
  have hb : b ≠ 0 := by rintro rfl; simp at h1; omega
  unfold ediv emod
  have := (Int.ediv_emod_unique'' hb (r := r) (q := q) (a := a)).2 ⟨by rw [h]; ring, h0, h1⟩
  exact this

theorem emod_eq_of_range {a b : Int} (h0 : 0 ≤ a) (h1 : a < b) : emod a b = a := Int.emod_eq_of_lt h0 h1

/-! ## Bit length (R9) -/

@[simp] theorem bitlen_zero : bitlen 0 = 0 := rfl

theorem lt_two_pow_bitlen (k : Nat) : k < 2 ^ bitlen k := by
  unfold bitlen
  split
  · simp [*]
  · exact Nat.lt_log2_self

theorem two_pow_bitlen_le {k : Nat} (h : k ≠ 0) : 2 ^ (bitlen k - 1) ≤ k := by
  simp only [bitlen, h, if_false, Nat.add_sub_cancel]
  exact Nat.log2_self_le h

/-- `bitlen k` is the least width that holds `k`. -/
theorem bitlen_le_iff {k n : Nat} : bitlen k ≤ n ↔ k < 2 ^ n := by
  constructor
  · exact fun h => (lt_two_pow_bitlen k).trans_le (Nat.pow_le_pow_right (by decide) h)
  · intro h
    rcases eq_or_ne k 0 with rfl | hk
    · simp
    · have := (two_pow_bitlen_le hk).trans_lt h
      have := (Nat.pow_lt_pow_iff_right (by decide : 1 < 2)).1 this
      omega

theorem lt_bitlen_iff {k n : Nat} : n < bitlen k ↔ 2 ^ n ≤ k := by
  have := @bitlen_le_iff k n
  omega

theorem bitlen_pos {k : Nat} (h : k ≠ 0) : 0 < bitlen k := by
  rw [lt_bitlen_iff, pow_zero]; exact Nat.pos_of_ne_zero h

/-- `bitlen(k * 2^n) = bitlen(k) + n` for `k != 0`. -/
theorem bitlen_mul_two_pow {k : Nat} (h : k ≠ 0) (n : Nat) : bitlen (k * 2 ^ n) = bitlen k + n := by
  apply le_antisymm
  · rw [bitlen_le_iff, pow_add]
    exact Nat.mul_lt_mul_of_pos_right (lt_two_pow_bitlen k) (by positivity)
  · have hp := bitlen_pos h
    have : bitlen k - 1 + n < bitlen (k * 2 ^ n) := by
      rw [lt_bitlen_iff, pow_add]
      exact Nat.mul_le_mul_right _ (two_pow_bitlen_le h)
    omega

/-! ## Digit sequences -/

theorem digitsFuel_value {b : Nat} (hb : 2 ≤ b) (fuel n : Nat) (h : n < 2 ^ fuel) :
    digitsValue b (digitsFuel b fuel n) = n := by
  induction fuel generalizing n with
  | zero => simp [digitsFuel, digitsValue] at *; omega
  | succ k ih =>
    unfold digitsFuel
    split
    · simp [digitsValue, *]
    · have hd : n / b < 2 ^ k := by
        rw [Nat.div_lt_iff_lt_mul (by omega)]
        calc n < 2 ^ k * 2 := by rw [← pow_succ]; exact h
          _ ≤ 2 ^ k * b := Nat.mul_le_mul_left _ hb
      simp [digitsValue, ih _ hd, Nat.mod_add_div]

theorem digitsOf_value {b : Nat} (hb : 2 ≤ b) (n : Nat) : digitsValue b (digitsOf b n) = n :=
  digitsFuel_value hb _ n (lt_two_pow_bitlen n)

theorem digitsFuel_lt {b : Nat} (hb : 2 ≤ b) (fuel n : Nat) : ∀ d ∈ digitsFuel b fuel n, d < b := by
  induction fuel generalizing n with
  | zero => simp [digitsFuel]
  | succ k ih =>
    unfold digitsFuel
    split
    · simp
    · intro d hd
      rcases List.mem_cons.1 hd with rfl | hd
      · exact Nat.mod_lt _ (by omega)
      · exact ih _ d hd

theorem digitsOf_lt {b : Nat} (hb : 2 ≤ b) (n : Nat) : ∀ d ∈ digitsOf b n, d < b := digitsFuel_lt hb _ n

theorem digitsOf_eq_nil_iff {b n : Nat} : digitsOf b n = [] ↔ n = 0 := by
  constructor
  · intro h
    by_contra hn
    have := bitlen_pos hn
    obtain ⟨k, hk⟩ : ∃ k, bitlen n = k + 1 := ⟨bitlen n - 1, by omega⟩
    simp [digitsOf, hk, digitsFuel, hn] at h
  · rintro rfl; rfl

/-- The digit sequence does not depend on how much more fuel than needed it is given. -/
theorem digitsFuel_eq {b : Nat} (hb : 2 ≤ b) {f g n : Nat} (hf : n < 2 ^ f) (hg : n < 2 ^ g) :
    digitsFuel b f n = digitsFuel b g n := by
  induction f generalizing g n with
  | zero =>
    obtain rfl : n = 0 := by simpa using hf
    cases g <;> simp [digitsFuel]
  | succ f ih =>
    cases g with
    | zero =>
      obtain rfl : n = 0 := by simpa using hg
      simp [digitsFuel]
    | succ g =>
      unfold digitsFuel
      split
      · rfl
      · have half : ∀ k, n < 2 ^ (k + 1) → n / b < 2 ^ k := fun k hk => by
          rw [Nat.div_lt_iff_lt_mul (by omega)]
          calc n < 2 ^ k * 2 := by rw [← pow_succ]; exact hk
            _ ≤ 2 ^ k * b := Nat.mul_le_mul_left _ hb
        rw [ih (half f hf) (half g hg)]

/-- One digit at a time: the least significant digit and the digits of the rest. -/
theorem digitsOf_step {b n : Nat} (hb : 2 ≤ b) (hn : n ≠ 0) : digitsOf b n = n % b :: digitsOf b (n / b) := by
  have hp := bitlen_pos hn
  obtain ⟨k, hk⟩ : ∃ k, bitlen n = k + 1 := ⟨bitlen n - 1, by omega⟩
  have h1 : n / b < 2 ^ k := by
    rw [Nat.div_lt_iff_lt_mul (by omega)]
    calc n < 2 ^ k * 2 := by rw [← pow_succ, ← hk]; exact lt_two_pow_bitlen n
      _ ≤ 2 ^ k * b := Nat.mul_le_mul_left _ hb
  conv_lhs => rw [digitsOf, hk, digitsFuel, if_neg hn]
  rw [digitsOf, digitsFuel_eq hb h1 (lt_two_pow_bitlen _)]

@[simp] theorem digitsOf_zero (b : Nat) : digitsOf b 0 = [] := rfl

/-- The length of the digit sequence says between which powers of the base the number lies. -/
theorem digitsOf_length_le_iff {b : Nat} (hb : 2 ≤ b) (n k : Nat) : (digitsOf b n).length ≤ k ↔ n < b ^ k := by
  induction k generalizing n with
  | zero => simp [digitsOf_eq_nil_iff]
  | succ k ih =>
    rcases eq_or_ne n 0 with rfl | hn
    · simp; positivity
    · rw [digitsOf_step hb hn, List.length_cons, Nat.add_le_add_iff_right, ih, Nat.div_lt_iff_lt_mul (by omega), pow_succ]

/-- The most significant digit is not 0. -/
theorem digitsOf_getLast_ne_zero {b n : Nat} (hb : 2 ≤ b) (h : digitsOf b n ≠ []) : (digitsOf b n).getLast h ≠ 0 := by
  induction n using Nat.strong_induction_on with
  | _ n ih =>
    have hn : n ≠ 0 := fun h0 => h (digitsOf_eq_nil_iff.2 h0)
    by_cases hq : n / b = 0
    · have : digitsOf b n = [n % b] := by rw [digitsOf_step hb hn, hq]; rfl
      simp only [this, List.getLast_singleton]
      have := Nat.mod_add_div n b
      rw [hq] at this
      omega
    · have hne : digitsOf b (n / b) ≠ [] := fun h0 => hq (digitsOf_eq_nil_iff.1 h0)
      have hlast := ih (n / b) (Nat.div_lt_self (Nat.pos_of_ne_zero hn) (by omega)) hne
      have e : (digitsOf b n).getLast h = (digitsOf b (n / b)).getLast hne := by
        simp only [digitsOf_step hb hn, List.getLast_cons hne]
      rw [e]; exact hlast

/-! ## Magnitudes and BigInts (R8, R24) -/

theorem magValue_map_ofNat (ds : List Nat) (h : ∀ d ∈ ds, d < 2 ^ 8) :
    magValue (ds.map (BitVec.ofNat 8)) = digitsValue (2 ^ 8) ds := by
  induction ds with
  | nil => rfl
  | cons d ds ih =>
    have hd := h d (by simp)
    simp only [List.map_cons, magValue, digitsValue, ih fun e he => h e (by simp [he]), BitVec.toNat_ofNat,
      Nat.mod_eq_of_lt hd]

@[simp] theorem magValue_magOf (n : Nat) : magValue (magOf n) = n := by
  unfold magOf
  split
  · simp [magValue, *]
  · rw [magValue_map_ofNat _ (digitsOf_lt (by decide) n)]
    exact digitsOf_value (by decide) n

/-- I2: `val(big(z)) = z`. -/
@[simp] theorem BigInt.val_big (z : Int) : (BigInt.big z).val = z := by
  simp only [BigInt.val, BigInt.big, magValue_magOf, decide_eq_true_eq]
  split <;> omega

@[simp] theorem magOf_zero : magOf 0 = [0] := rfl

theorem magOf_of_ne_zero {n : Nat} (h : n ≠ 0) : magOf n = (digitsOf (2 ^ 8) n).map (BitVec.ofNat 8) := if_neg h

theorem magOf_length (n : Nat) : (magOf n).length = max 1 (digitsOf (2 ^ 8) n).length := by
  rcases eq_or_ne n 0 with rfl | h
  · rfl
  · rw [magOf_of_ne_zero h, List.length_map]
    have : (digitsOf (2 ^ 8) n).length ≠ 0 := fun h0 => h (digitsOf_eq_nil_iff.1 (List.length_eq_zero_iff.1 h0))
    omega

theorem BigInt.len_big (z : Int) : (BigInt.big z).len = max 1 (digitsOf (2 ^ 8) z.natAbs).length := magOf_length _

/-- R26: `len(big(z)) <= k` is `bitlen(|z|) <= 8 * k`, for `k >= 1`. -/
theorem BigInt.len_big_le_iff {z : Int} {k : Nat} (hk : 1 ≤ k) : (BigInt.big z).len ≤ k ↔ bitlen z.natAbs ≤ 8 * k := by
  rw [BigInt.len_big, bitlen_le_iff, pow_mul, ← digitsOf_length_le_iff (by decide)]
  omega

theorem BigInt.one_le_len_big (z : Int) : 1 ≤ (BigInt.big z).len := by rw [BigInt.len_big]; omega

/-- A value of no greater magnitude needs no more words. -/
theorem BigInt.len_big_mono {y z : Int} (h : y.natAbs ≤ z.natAbs) : (BigInt.big y).len ≤ (BigInt.big z).len := by
  have hz := BigInt.one_le_len_big z
  rw [BigInt.len_big_le_iff hz, bitlen_le_iff]
  refine h.trans_lt ?_
  rw [← bitlen_le_iff]
  exact (BigInt.len_big_le_iff hz).1 le_rfl

end Sys2Proof
end

