-- ==== Sys2Proof/Laws/State.lean ====
section
/-! SUPPORT. One lemma per field per state update, and what each update does to one register. -/

namespace Sys2Proof.Machine

/-! ## State.setX -/

@[simp] theorem State.setX_x (s : State) (i : XReg) (u : BigInt) : (s.setX i u).x = s.x.set i (some u) := rfl
@[simp] theorem State.setX_f (s : State) (i : XReg) (u : BigInt) : (s.setX i u).f = s.f := rfl
@[simp] theorem State.setX_arg (s : State) (i : XReg) (u : BigInt) : (s.setX i u).arg = s.arg := rfl
@[simp] theorem State.setX_res (s : State) (i : XReg) (u : BigInt) : (s.setX i u).res = s.res := rfl
@[simp] theorem State.setX_err (s : State) (i : XReg) (u : BigInt) : (s.setX i u).err = s.err := rfl
@[simp] theorem State.setX_efirst (s : State) (i : XReg) (u : BigInt) : (s.setX i u).efirst = s.efirst := rfl
@[simp] theorem State.setX_tlen (s : State) (i : XReg) (u : BigInt) : (s.setX i u).tlen = s.tlen := rfl
@[simp] theorem State.setX_tb (s : State) (i : XReg) (u : BigInt) : (s.setX i u).tb = s.tb := rfl
@[simp] theorem State.setX_params (s : State) (i : XReg) (u : BigInt) : (s.setX i u).params = s.params := rfl
@[simp] theorem State.setX_host (s : State) (i : XReg) (u : BigInt) : (s.setX i u).host = s.host := rfl
@[simp] theorem State.setX_replies (s : State) (i : XReg) (u : BigInt) : (s.setX i u).replies = s.replies := rfl

/-! ## State.setF -/

@[simp] theorem State.setF_x (s : State) (i : FReg) (e : FieldElement) : (s.setF i e).x = s.x := rfl
@[simp] theorem State.setF_f (s : State) (i : FReg) (e : FieldElement) : (s.setF i e).f = s.f.set i (some e) := rfl
@[simp] theorem State.setF_arg (s : State) (i : FReg) (e : FieldElement) : (s.setF i e).arg = s.arg := rfl
@[simp] theorem State.setF_res (s : State) (i : FReg) (e : FieldElement) : (s.setF i e).res = s.res := rfl
@[simp] theorem State.setF_err (s : State) (i : FReg) (e : FieldElement) : (s.setF i e).err = s.err := rfl
@[simp] theorem State.setF_efirst (s : State) (i : FReg) (e : FieldElement) : (s.setF i e).efirst = s.efirst := rfl
@[simp] theorem State.setF_tlen (s : State) (i : FReg) (e : FieldElement) : (s.setF i e).tlen = s.tlen := rfl
@[simp] theorem State.setF_tb (s : State) (i : FReg) (e : FieldElement) : (s.setF i e).tb = s.tb := rfl
@[simp] theorem State.setF_params (s : State) (i : FReg) (e : FieldElement) : (s.setF i e).params = s.params := rfl
@[simp] theorem State.setF_host (s : State) (i : FReg) (e : FieldElement) : (s.setF i e).host = s.host := rfl
@[simp] theorem State.setF_replies (s : State) (i : FReg) (e : FieldElement) : (s.setF i e).replies = s.replies := rfl

/-! ## State.setRes -/

@[simp] theorem State.setRes_x (s : State) (v : Dword) : (s.setRes v).x = s.x := rfl
@[simp] theorem State.setRes_f (s : State) (v : Dword) : (s.setRes v).f = s.f := rfl
@[simp] theorem State.setRes_arg (s : State) (v : Dword) : (s.setRes v).arg = s.arg := rfl
@[simp] theorem State.setRes_res (s : State) (v : Dword) : (s.setRes v).res = v := rfl
@[simp] theorem State.setRes_err (s : State) (v : Dword) : (s.setRes v).err = s.err := rfl
@[simp] theorem State.setRes_efirst (s : State) (v : Dword) : (s.setRes v).efirst = s.efirst := rfl
@[simp] theorem State.setRes_tlen (s : State) (v : Dword) : (s.setRes v).tlen = s.tlen := rfl
@[simp] theorem State.setRes_tb (s : State) (v : Dword) : (s.setRes v).tb = s.tb := rfl
@[simp] theorem State.setRes_params (s : State) (v : Dword) : (s.setRes v).params = s.params := rfl
@[simp] theorem State.setRes_host (s : State) (v : Dword) : (s.setRes v).host = s.host := rfl
@[simp] theorem State.setRes_replies (s : State) (v : Dword) : (s.setRes v).replies = s.replies := rfl

/-! ## State.clearFirst -/

@[simp] theorem State.clearFirst_x (s : State) : s.clearFirst.x = s.x := rfl
@[simp] theorem State.clearFirst_f (s : State) : s.clearFirst.f = s.f := rfl
@[simp] theorem State.clearFirst_arg (s : State) : s.clearFirst.arg = s.arg := rfl
@[simp] theorem State.clearFirst_res (s : State) : s.clearFirst.res = s.res := rfl
@[simp] theorem State.clearFirst_err (s : State) : s.clearFirst.err = s.err := rfl
@[simp] theorem State.clearFirst_efirst (s : State) : s.clearFirst.efirst = 0 := rfl
@[simp] theorem State.clearFirst_tlen (s : State) : s.clearFirst.tlen = s.tlen := rfl
@[simp] theorem State.clearFirst_tb (s : State) : s.clearFirst.tb = s.tb := rfl
@[simp] theorem State.clearFirst_params (s : State) : s.clearFirst.params = s.params := rfl
@[simp] theorem State.clearFirst_host (s : State) : s.clearFirst.host = s.host := rfl
@[simp] theorem State.clearFirst_replies (s : State) : s.clearFirst.replies = s.replies := rfl

/-! ## State.storeOutput -/

@[simp] theorem State.storeOutput_x (s : State) (bs : List Byte) : (s.storeOutput bs).x = s.x := rfl
@[simp] theorem State.storeOutput_f (s : State) (bs : List Byte) : (s.storeOutput bs).f = s.f := rfl
@[simp] theorem State.storeOutput_arg (s : State) (bs : List Byte) : (s.storeOutput bs).arg = s.arg := rfl
@[simp] theorem State.storeOutput_res (s : State) (bs : List Byte) : (s.storeOutput bs).res = s.res := rfl
@[simp] theorem State.storeOutput_err (s : State) (bs : List Byte) : (s.storeOutput bs).err = s.err := rfl
@[simp] theorem State.storeOutput_efirst (s : State) (bs : List Byte) : (s.storeOutput bs).efirst = s.efirst := rfl
@[simp] theorem State.storeOutput_tlen (s : State) (bs : List Byte) : (s.storeOutput bs).tlen = BitVec.ofNat 64 bs.length := rfl
@[simp] theorem State.storeOutput_tb (s : State) (bs : List Byte) : (s.storeOutput bs).tb = s.tb.writeBytes 0 bs := rfl
@[simp] theorem State.storeOutput_params (s : State) (bs : List Byte) : (s.storeOutput bs).params = s.params := rfl
@[simp] theorem State.storeOutput_host (s : State) (bs : List Byte) : (s.storeOutput bs).host = s.host := rfl
@[simp] theorem State.storeOutput_replies (s : State) (bs : List Byte) : (s.storeOutput bs).replies = s.replies := rfl

/-! ## State.takeFault -/

@[simp] theorem State.takeFault_x (s : State) (c : CmdFault) : (s.takeFault c).x = s.x := rfl
@[simp] theorem State.takeFault_f (s : State) (c : CmdFault) : (s.takeFault c).f = s.f := rfl
@[simp] theorem State.takeFault_arg (s : State) (c : CmdFault) : (s.takeFault c).arg = s.arg := rfl
@[simp] theorem State.takeFault_res (s : State) (c : CmdFault) : (s.takeFault c).res = s.res := rfl
@[simp] theorem State.takeFault_err (s : State) (c : CmdFault) : (s.takeFault c).err = c.code := rfl
@[simp] theorem State.takeFault_efirst (s : State) (c : CmdFault) : (s.takeFault c).efirst = if s.efirst = 0 then c.code else s.efirst := rfl
@[simp] theorem State.takeFault_tlen (s : State) (c : CmdFault) : (s.takeFault c).tlen = s.tlen := rfl
@[simp] theorem State.takeFault_tb (s : State) (c : CmdFault) : (s.takeFault c).tb = s.tb := rfl
@[simp] theorem State.takeFault_params (s : State) (c : CmdFault) : (s.takeFault c).params = s.params := rfl
@[simp] theorem State.takeFault_host (s : State) (c : CmdFault) : (s.takeFault c).host = s.host := rfl
@[simp] theorem State.takeFault_replies (s : State) (c : CmdFault) : (s.takeFault c).replies = s.replies := rfl

/-! ## State.succeed -/

@[simp] theorem State.succeed_x (s : State) : s.succeed.x = s.x := rfl
@[simp] theorem State.succeed_f (s : State) : s.succeed.f = s.f := rfl
@[simp] theorem State.succeed_arg (s : State) : s.succeed.arg = s.arg := rfl
@[simp] theorem State.succeed_res (s : State) : s.succeed.res = s.res := rfl
@[simp] theorem State.succeed_err (s : State) : s.succeed.err = 0 := rfl
@[simp] theorem State.succeed_efirst (s : State) : s.succeed.efirst = s.efirst := rfl
@[simp] theorem State.succeed_tlen (s : State) : s.succeed.tlen = s.tlen := rfl
@[simp] theorem State.succeed_tb (s : State) : s.succeed.tb = s.tb := rfl
@[simp] theorem State.succeed_params (s : State) : s.succeed.params = s.params := rfl
@[simp] theorem State.succeed_host (s : State) : s.succeed.host = s.host := rfl
@[simp] theorem State.succeed_replies (s : State) : s.succeed.replies = s.replies := rfl

/-! ## State.reply -/

@[simp] theorem State.reply_x (s : State) (r : HostReply) : (s.reply r).x = s.x := rfl
@[simp] theorem State.reply_f (s : State) (r : HostReply) : (s.reply r).f = s.f := rfl
@[simp] theorem State.reply_arg (s : State) (r : HostReply) : (s.reply r).arg = s.arg := rfl
@[simp] theorem State.reply_res (s : State) (r : HostReply) : (s.reply r).res = s.res := rfl
@[simp] theorem State.reply_err (s : State) (r : HostReply) : (s.reply r).err = s.err := rfl
@[simp] theorem State.reply_efirst (s : State) (r : HostReply) : (s.reply r).efirst = s.efirst := rfl
@[simp] theorem State.reply_tlen (s : State) (r : HostReply) : (s.reply r).tlen = s.tlen := rfl
@[simp] theorem State.reply_tb (s : State) (r : HostReply) : (s.reply r).tb = s.tb := rfl
@[simp] theorem State.reply_params (s : State) (r : HostReply) : (s.reply r).params = s.params := rfl
@[simp] theorem State.reply_host (s : State) (r : HostReply) : (s.reply r).host = s.host := rfl
@[simp] theorem State.reply_replies (s : State) (r : HostReply) : (s.reply r).replies = s.replies ++ [r] := rfl

/-! ## One register after a write -/

theorem State.setX_get (s : State) (i j : XReg) (u : BigInt) :
    (s.setX i u).x[j] = if i = j then some u else s.x[j] := by
  simp [Vector.getElem_set, Fin.ext_iff]

theorem State.setF_get (s : State) (i j : FReg) (e : FieldElement) :
    (s.setF i e).f[j] = if i = j then some e else s.f[j] := by
  simp [Vector.getElem_set, Fin.ext_iff]

end Sys2Proof.Machine
end

