-- ==== Sys2Proof/Laws/Memory.lean ====
section
/-! SUPPORT. The laws of the transfer buffer: every operation keeps the canonical form, a read after a write gives the byte written
and every other byte is as before (R51, R52, R58). -/

namespace Sys2Proof.Machine

theorem Memory.wf_cons (c : Host.Cell) (m : Memory) :
    Memory.wf (c :: m) = true ↔ (∀ d ∈ m.head?, c.1 < d.1) ∧ Memory.wf m = true := by
  cases m <;> simp [Memory.wf]

theorem Memory.write_head (m : Memory) (a : Nat) (b : Byte) :
    ∀ d ∈ (Memory.write m a b).head?, d.1 = a ∨ d ∈ m.head? := by
  cases m with
  | nil => simp [Memory.write]
  | cons c m =>
    obtain ⟨k, v⟩ := c
    simp only [Memory.write]
    split
    · simp
    · split <;> simp

/-- A write keeps the canonical form. -/
theorem Memory.wf_write {m : Memory} (h : Memory.wf m = true) (a : Nat) (b : Byte) : Memory.wf (m.write a b) = true := by
  induction m with
  | nil => rfl
  | cons c m ih =>
    obtain ⟨k, v⟩ := c
    obtain ⟨hk, hm⟩ := (Memory.wf_cons _ _).1 h
    simp only [Memory.write]
    split
    · rename_i hlt
      exact (Memory.wf_cons _ _).2 ⟨by simpa using hlt, h⟩
    · split
      · rename_i _ heq
        subst heq
        exact (Memory.wf_cons _ _).2 ⟨hk, hm⟩
      · refine (Memory.wf_cons _ _).2 ⟨fun d hd => ?_, ih hm⟩
        rcases Memory.write_head m a b d hd with h1 | h1
        · simp only; omega
        · exact hk d h1

theorem Memory.mem_write {m : Memory} {a : Nat} {b : Byte} {c : Host.Cell} (h : c ∈ m.write a b) : c = (a, b) ∨ c ∈ m := by
  induction m with
  | nil => simpa [Memory.write] using h
  | cons d m ih =>
    obtain ⟨k, v⟩ := d
    simp only [Memory.write] at h
    split at h
    · simpa using h
    · split at h
      · rcases List.mem_cons.1 h with h | h
        · exact .inl h
        · exact .inr (by simp [h])
      · rcases List.mem_cons.1 h with h | h
        · exact .inr (by simp [h])
        · rcases ih h with h | h
          · exact .inl h
          · exact .inr (by simp [h])

theorem Memory.written_cons (k : Nat) (v : Byte) (m : Memory) (c : Nat) :
    Memory.written ((k, v) :: m) c = if c = k then some v else m.written c := by
  unfold Memory.written
  by_cases h : c = k
  · subst h; simp
  · have e : (c == k) = false := by simpa using h
    rw [List.lookup_cons, if_neg h, e]

theorem Memory.written_write (m : Memory) (a c : Nat) (b : Byte) :
    (m.write a b).written c = if c = a then some b else m.written c := by
  induction m with
  | nil => exact Memory.written_cons a b [] c
  | cons d m ih =>
    obtain ⟨k, v⟩ := d
    rw [Memory.write]
    split
    · rw [Memory.written_cons]
    · split
      · rename_i h; subst h
        rw [Memory.written_cons, Memory.written_cons]; split <;> rfl
      · rw [Memory.written_cons, Memory.written_cons, ih]
        split
        · subst_vars; rw [if_neg]; omega
        · rfl

/-- A read after a write (R52, R58). -/
theorem Memory.read_write (m : Memory) (a c : Nat) (b : Byte) :
    (m.write a b).read c = if c = a then b else m.read c := by
  unfold Memory.read
  rw [Memory.written_write]
  split <;> rfl

/-! ## Whole byte sequences (R51) -/

theorem Memory.wf_writeBytes {m : Memory} (h : Memory.wf m = true) (a : Nat) (bs : List Byte) :
    Memory.wf (m.writeBytes a bs) = true := by
  induction bs generalizing m a with
  | nil => exact h
  | cons b bs ih => exact ih (Memory.wf_write h a b) (a + 1)

theorem Memory.mem_writeBytes {m : Memory} {a : Nat} {bs : List Byte} {c : Host.Cell} (h : c ∈ m.writeBytes a bs) :
    (a ≤ c.1 ∧ c.1 < a + bs.length) ∨ c ∈ m := by
  induction bs generalizing m a with
  | nil => exact .inr h
  | cons b bs ih =>
    rcases ih (m := m.write a b) h with h | h
    · exact .inl (by simp only [List.length_cons]; omega)
    · rcases Memory.mem_write h with h | h
      · exact .inl (by rw [h]; simp)
      · exact .inr h

/-- A read after `MemWrite(addr, n, v)`: byte `k` of `v` at `addr + k`, every other byte as before (R51). -/
theorem Memory.read_writeBytes (m : Memory) (a c : Nat) (bs : List Byte) :
    (m.writeBytes a bs).read c = if a ≤ c then (bs[c - a]?).getD (m.read c) else m.read c := by
  induction bs generalizing m a with
  | nil => simp [Memory.writeBytes]
  | cons b bs ih =>
    rw [Memory.writeBytes, ih, Memory.read_write]
    rcases lt_trichotomy c a with h | h | h
    · rw [if_neg (by omega), if_neg (by omega), if_neg (by omega)]
    · subst h; simp
    · rw [if_pos (by omega), if_neg (by omega), if_pos (by omega)]
      obtain ⟨k, hk⟩ : ∃ k, c - a = k + 1 := ⟨c - a - 1, by omega⟩
      rw [hk, List.getElem?_cons_succ, show c - (a + 1) = k by omega]

/-- `MemRead(addr, n)` after `MemWrite(addr, n, v)` gives `v` (R51). -/
theorem Memory.readBytes_writeBytes (m : Memory) (a : Nat) (bs : List Byte) :
    (m.writeBytes a bs).readBytes a bs.length = bs := by
  apply List.ext_getElem
  · simp [Memory.readBytes]
  · intro i h1 h2
    simp only [Memory.readBytes, List.getElem_map, List.getElem_range, Memory.read_writeBytes]
    rw [if_pos (by omega), show a + i - a = i by omega, List.getElem?_eq_getElem h2]; rfl

@[simp] theorem Memory.readBytes_length (m : Memory) (a n : Nat) : (m.readBytes a n).length = n := by simp [Memory.readBytes]

/-! ## The state's buffer -/

/-- After an output of at most 2^56 bytes the buffer's content is that output (R36, R37). -/
theorem State.content_storeOutput (s : State) (bs : List Byte) (h : bs.length < 2 ^ 64) : (s.storeOutput bs).content = bs := by
  simp only [State.content, State.storeOutput_tb, State.storeOutput_tlen, BitVec.toNat_ofNat, Nat.mod_eq_of_lt h,
    Memory.readBytes_writeBytes]

end Sys2Proof.Machine
end

