-- ==== Sys2Proof/Laws/Normal.lean ====
section
/-! SUPPORT. Normalisation (R22 to R24, R90): `trim` keeps the value, `magOf` inverts `magValue` on trimmed magnitudes, and `val` and
`big` are mutually inverse on what a register may hold. -/

namespace Sys2Proof

theorem dropLeadingZeros_cons (w : Byte) (ws : List Byte) :
    dropLeadingZeros (w :: ws) = if dropLeadingZeros ws = [] ∧ w = 0 then [] else w :: dropLeadingZeros ws := by
  simp only [dropLeadingZeros]
  cases h : dropLeadingZeros ws with
  | nil => split <;> simp_all
  | cons v vs => simp

theorem trim_eq (m : List Byte) : trim m = if dropLeadingZeros m = [] then [0] else dropLeadingZeros m := by
  unfold trim
  cases dropLeadingZeros m <;> simp

/-- Without its leading zeros a magnitude is the digit sequence of its value. -/
theorem dropLeadingZeros_eq (m : List Byte) :
    dropLeadingZeros m = (digitsOf (2 ^ 8) (magValue m)).map (BitVec.ofNat 8) := by
  induction m with
  | nil => rfl
  | cons w ws ih =>
    rw [dropLeadingZeros_cons]
    have hw : w.toNat < 2 ^ 8 := w.isLt
    have hz : dropLeadingZeros ws = [] ↔ magValue ws = 0 := by
      rw [ih, List.map_eq_nil_iff, digitsOf_eq_nil_iff]
    have hw0 : w = 0 ↔ w.toNat = 0 := by
      constructor
      · rintro rfl; rfl
      · intro h; exact BitVec.eq_of_toNat_eq (by simpa using h)
    rcases eq_or_ne (magValue (w :: ws)) 0 with h0 | h0
    · rw [h0, if_pos]
      · rfl
      · rw [hz, hw0]; simp only [magValue, wordBits] at h0; omega
    · rw [if_neg, digitsOf_step (by decide) h0, List.map_cons, ih]
      · have e1 : magValue (w :: ws) % 2 ^ 8 = w.toNat := by simp only [magValue, wordBits]; omega
        have e2 : magValue (w :: ws) / 2 ^ 8 = magValue ws := by simp only [magValue, wordBits]; omega
        rw [e1, e2, BitVec.ofNat_toNat, BitVec.setWidth_eq]
      · rw [hz, hw0]; simp only [magValue, wordBits] at h0; omega

/-- A trimmed magnitude is the canonical magnitude of its value. -/
theorem trim_eq_magOf (m : List Byte) : trim m = magOf (magValue m) := by
  rw [trim_eq, dropLeadingZeros_eq]
  rcases eq_or_ne (magValue m) 0 with h | h
  · simp [h]
  · rw [magOf_of_ne_zero h, if_neg]
    rw [List.map_eq_nil_iff, digitsOf_eq_nil_iff]; exact h

/-- R90: "`trim` does not change `SUM m[i] * (2^W)^i`". -/
@[simp] theorem magValue_trim (m : List Byte) : magValue (trim m) = magValue m := by rw [trim_eq_magOf, magValue_magOf]

@[simp] theorem trim_magOf (n : Nat) : trim (magOf n) = magOf n := by rw [trim_eq_magOf, magValue_magOf]

@[simp] theorem trim_trim (m : List Byte) : trim (trim m) = trim m := by rw [trim_eq_magOf m, trim_magOf]

theorem magOf_eq_zero_iff {n : Nat} : magOf n = [0] ↔ n = 0 := by
  constructor
  · intro h; simpa [magValue] using congrArg magValue h
  · rintro rfl; rfl

theorem trim_eq_zero_iff {m : List Byte} : trim m = [0] ↔ magValue m = 0 := by rw [trim_eq_magOf, magOf_eq_zero_iff]

theorem magOf_ne_nil (n : Nat) : magOf n ≠ [] := by
  rw [← trim_magOf, trim_eq]; split <;> simp_all

/-- A normalised magnitude is the canonical magnitude of its value (R24). -/
theorem magOf_magValue {m : List Byte} (h : trim m = m) : magOf (magValue m) = m := by rw [← trim_eq_magOf, h]

/-- What the write primitive stores is normalised (R22, R23). -/
theorem BigInt.big_normalised (z : Int) : (BigInt.big z).Normalised := by
  refine ⟨trim_magOf _, ?_⟩
  simp only [BigInt.big, decide_eq_true_eq, magOf_eq_zero_iff]
  omega

/-- R24: `big(val(u)) = u` for what a register may hold. -/
theorem BigInt.big_val {u : BigInt} (h : u.Normalised) : BigInt.big u.val = u := by
  obtain ⟨s, m⟩ := u
  obtain ⟨ht, hz⟩ := h
  have hm : magOf (magValue m) = m := magOf_magValue ht
  have h0 : magValue m = 0 → m = [0] := fun h => by rw [← hm, h]; rfl
  cases s
  · simp [BigInt.big, BigInt.val, hm]
  · have : magValue m ≠ 0 := fun h => hz ⟨rfl, h0 h⟩
    simp only [BigInt.big, BigInt.val, if_true, Int.natAbs_neg, Int.natAbs_natCast, hm, BigInt.mk.injEq, and_true,
      decide_eq_true_eq]
    omega

/-- R24: two registers hold the same integer iff they hold the same sign and the same word sequence. -/
theorem BigInt.val_inj {u v : BigInt} (hu : u.Normalised) (hv : v.Normalised) : u.val = v.val ↔ u = v :=
  ⟨fun h => by rw [← BigInt.big_val hu, h, BigInt.big_val hv], fun h => h ▸ rfl⟩

theorem BigInt.len_big_val {u : BigInt} (h : u.Normalised) : (BigInt.big u.val).len = u.len := by rw [BigInt.big_val h]

/-- The magnitude of a BigInt is the absolute value of its integer. -/
@[simp] theorem BigInt.natAbs_val (u : BigInt) : u.val.natAbs = magValue u.magnitude := by
  unfold BigInt.val; split <;> simp

/-- The stored sign boolean says whether the integer is negative (R175). -/
theorem BigInt.sign_eq {u : BigInt} (h : u.Normalised) : u.sign = decide (u.val < 0) := by
  have := congrArg BigInt.sign (BigInt.big_val h)
  exact this.symm

/-- A register's value has at most `8 * MAXWORDS` bits (R26). -/
theorem BigInt.Stored.bitlen_le {p : Params} {u : BigInt} (h : u.Stored p) (hp : p.InRange) :
    bitlen u.val.natAbs ≤ 8 * p.maxWords := by
  rw [← BigInt.len_big_le_iff hp.1, BigInt.len_big_val h.1]; exact h.2

/-- A value that fits is stored as a register may hold it (R24, R26). -/
theorem BigInt.big_stored {p : Params} {z : Int} (h : (BigInt.big z).len ≤ p.maxWords) : (BigInt.big z).Stored p :=
  ⟨BigInt.big_normalised z, h⟩

end Sys2Proof
end

