-- ==== Sys2Proof/Laws/Ops.lean ====
section
/-! SUPPORT. What the named operations over registers and the transfer buffer can do (R11, R51, R223), each said once. -/

namespace Sys2Proof

/-! ## Fault codes (R211) -/

theorem CmdFault.code_ne_zero (c : CmdFault) : c.code ≠ 0 := by cases c <;> decide

theorem CmdFault.code_le (c : CmdFault) : c.code.toNat ≤ 10 := by cases c <;> decide

theorem CmdFault.code_inj {c d : CmdFault} : c.code = d.code ↔ c = d := by cases c <;> cases d <;> decide

namespace Machine

/-! ## Sequencing in `Except` -/

theorem bind_eq_ok {ε α β : Type} {x : Except ε α} {f : α → Except ε β} {r : β} :
    (x >>= f) = .ok r ↔ ∃ a, x = .ok a ∧ f a = .ok r := by
  cases x <;> simp [bind, Except.bind]

theorem bind_eq_error {ε α β : Type} {x : Except ε α} {f : α → Except ε β} {c : ε} :
    (x >>= f) = .error c ↔ x = .error c ∨ ∃ a, x = .ok a ∧ f a = .error c := by
  cases x <;> simp [bind, Except.bind]

@[simp] theorem ok_bind {ε α β : Type} (a : α) (f : α → Except ε β) : ((Except.ok a : Except ε α) >>= f) = f a := rfl

@[simp] theorem error_bind {ε α β : Type} (c : ε) (f : α → Except ε β) : ((Except.error c : Except ε α) >>= f) = .error c := rfl

/-! ## Ending a command (R223) -/

@[simp] theorem State.finish_ok (s t : State) : s.finish (.ok t) = .next t.succeed := rfl

@[simp] theorem State.finish_error (s : State) (c : CmdFault) : s.finish (.error c) = .next (s.takeFault c) := rfl

/-- Every command ends, with success or with one fault's record (R7, R248). -/
theorem State.finish_eq_next {s t : State} {r : Except CmdFault State} :
    s.finish r = .next t ↔ (∃ u, r = .ok u ∧ t = u.succeed) ∨ ∃ c, r = .error c ∧ t = s.takeFault c := by
  cases r <;> simp [eq_comm]

/-- A command whose state after it is a fault's record raised that fault. -/
theorem State.finish_eq_takeFault {s : State} {r : Except CmdFault State} {c : CmdFault} :
    s.finish r = .next (s.takeFault c) ↔ r = .error c := by
  cases r with
  | ok t =>
    simp only [State.finish_ok, Host.Outcome.next.injEq, reduceCtorEq, iff_false]
    intro h
    exact c.code_ne_zero (congrArg State.err h).symm
  | error d =>
    simp only [State.finish_error, Host.Outcome.next.injEq, Except.error.injEq]
    exact ⟨fun h => CmdFault.code_inj.1 (congrArg State.err h), fun h => h ▸ rfl⟩

theorem State.succeed_injOn {t u : State} (h : t.succeed = u.succeed) (he : t.err = u.err) : t = u := by
  cases t; cases u; simp only [State.succeed, State.mk.injEq] at h; simp_all

/-! ## Reads (R11, R25) -/

theorem readXBig_eq_ok {s : State} {i : XReg} {u : BigInt} : readXBig s i = .ok u ↔ s.x[i] = some u := by
  unfold readXBig; cases s.x[i] <;> simp

theorem readXBig_eq_error {s : State} {i : XReg} {c : CmdFault} :
    readXBig s i = .error c ↔ s.x[i] = none ∧ c = .unwrittenRegister := by
  unfold readXBig; cases s.x[i] <;> simp [eq_comm]

theorem readX_eq_ok {s : State} {i : XReg} {z : Int} : readX s i = .ok z ↔ ∃ u, s.x[i] = some u ∧ u.val = z := by
  unfold readX readXBig; cases s.x[i] <;> simp [Except.map]

theorem readX_eq_error {s : State} {i : XReg} {c : CmdFault} :
    readX s i = .error c ↔ s.x[i] = none ∧ c = .unwrittenRegister := by
  unfold readX readXBig; cases s.x[i] <;> simp [Except.map, eq_comm]

theorem readF_eq_ok {s : State} {i : FReg} {e : FieldElement} : readF s i = .ok e ↔ s.f[i] = some e := by
  unfold readF; cases s.f[i] <;> simp

theorem readF_eq_error {s : State} {i : FReg} {c : CmdFault} :
    readF s i = .error c ↔ s.f[i] = none ∧ c = .unwrittenRegister := by
  unfold readF; cases s.f[i] <;> simp [eq_comm]

theorem readXBig_of {s : State} {i : XReg} {u : BigInt} (h : s.x[i] = some u) : readXBig s i = .ok u := readXBig_eq_ok.2 h

theorem readX_of {s : State} {i : XReg} {u : BigInt} (h : s.x[i] = some u) : readX s i = .ok u.val :=
  readX_eq_ok.2 ⟨u, h, rfl⟩

theorem readF_of {s : State} {i : FReg} {e : FieldElement} (h : s.f[i] = some e) : readF s i = .ok e := readF_eq_ok.2 h

theorem readXBig_none {s : State} {i : XReg} (h : s.x[i] = none) : readXBig s i = .error .unwrittenRegister :=
  readXBig_eq_error.2 ⟨h, rfl⟩

theorem readX_none {s : State} {i : XReg} (h : s.x[i] = none) : readX s i = .error .unwrittenRegister :=
  readX_eq_error.2 ⟨h, rfl⟩

theorem readF_none {s : State} {i : FReg} (h : s.f[i] = none) : readF s i = .error .unwrittenRegister :=
  readF_eq_error.2 ⟨h, rfl⟩

/-! ## Writes (R11, R26, R51) -/

theorem writeX_eq_ok {s t : State} {i : XReg} {z : Int} :
    writeX s i z = .ok t ↔ s.Fits z ∧ t = s.setX i (BigInt.big z) := by
  unfold writeX; split <;> simp_all [eq_comm]

theorem writeX_eq_error {s : State} {i : XReg} {z : Int} {c : CmdFault} :
    writeX s i z = .error c ↔ ¬s.Fits z ∧ c = .capacityExceeded := by
  unfold writeX; split <;> simp_all [eq_comm]

theorem writeF_eq_ok {s t : State} {i : FReg} {v p : Int} :
    writeF s i v p = .ok t ↔
      (s.Fits v ∧ s.Fits p) ∧ t = s.setF i { value := BigInt.big v, modulus := BigInt.big p } := by
  unfold writeF; split <;> simp_all [eq_comm]

theorem writeF_eq_error {s : State} {i : FReg} {v p : Int} {c : CmdFault} :
    writeF s i v p = .error c ↔ ¬(s.Fits v ∧ s.Fits p) ∧ c = .capacityExceeded := by
  unfold writeF; split <;> simp_all [eq_comm]

theorem writeOutput_eq_ok {s t : State} {bs : List Byte} :
    writeOutput s bs = .ok t ↔ bs.length ≤ s.params.tbMax ∧ t = s.storeOutput bs := by
  unfold writeOutput; split <;> simp_all [eq_comm]

theorem writeOutput_eq_error {s : State} {bs : List Byte} {c : CmdFault} :
    writeOutput s bs = .error c ↔ s.params.tbMax < bs.length ∧ c = .bufferOverflow := by
  unfold writeOutput; split <;> simp_all [eq_comm]

theorem writeX_fits {s : State} {z : Int} (h : s.Fits z) (i : XReg) : writeX s i z = .ok (s.setX i (BigInt.big z)) := if_pos h

/-- The capacity check in bits (R26). -/
theorem State.fits_iff {s : State} (h : 1 ≤ s.params.maxWords) {z : Int} :
    s.Fits z ↔ bitlen z.natAbs ≤ 8 * s.params.maxWords := BigInt.len_big_le_iff h

/-- A value of no greater magnitude than one that fits also fits. -/
theorem State.fits_mono {s : State} {y z : Int} (h : s.Fits z) (hy : y.natAbs ≤ z.natAbs) : s.Fits y :=
  (BigInt.len_big_mono hy).trans h

theorem State.fits_of_le {s : State} {y z : Int} (h : s.Fits z) (h0 : 0 ≤ y) (hy : y ≤ z) : s.Fits y :=
  State.fits_mono h (by omega)

/-! ## What the invariant says of one register -/

theorem State.Inv.stored {s : State} (h : s.Inv) {i : XReg} {u : BigInt} (hu : s.x[i] = some u) : u.Stored s.params :=
  h.x i u (by rw [hu]; rfl)

theorem State.Inv.storedF {s : State} (h : s.Inv) {i : FReg} {e : FieldElement} (he : s.f[i] = some e) :
    e.Stored s.params := h.f i e (by rw [he]; rfl)

theorem State.Inv.fits {s : State} (h : s.Inv) {i : XReg} {u : BigInt} (hu : s.x[i] = some u) : s.Fits u.val := by
  have := h.stored hu
  rw [State.Fits, BigInt.len_big_val this.1]; exact this.2

theorem State.Inv.fits_value {s : State} (h : s.Inv) {i : FReg} {e : FieldElement} (he : s.f[i] = some e) :
    s.Fits e.value.val := by
  have := (h.storedF he).1
  rw [State.Fits, BigInt.len_big_val this.1]; exact this.2

theorem State.Inv.fits_modulus {s : State} (h : s.Inv) {i : FReg} {e : FieldElement} (he : s.f[i] = some e) :
    s.Fits e.modulus.val := by
  have := (h.storedF he).2.1
  rw [State.Fits, BigInt.len_big_val this.1]; exact this.2

/-- A written field register has `modulus >= 1` (R27). -/
theorem State.Inv.modulus_pos {s : State} (h : s.Inv) {i : FReg} {e : FieldElement} (he : s.f[i] = some e) :
    0 < e.modulus.val := by
  have := h.storedF he
  exact lt_of_le_of_lt this.2.2.1 this.2.2.2

end Machine
end Sys2Proof
end

