-- ==== Sys2Proof/Laws/Guards.lean ====
section
/-! SUPPORT. The commands that decide from bit lengths before they build a value (SHL, SHR, TWOS, FILL, BIT, POW) do what the plain
rule says (log entry 15); the square-and-multiply loop and the digit count give the power and the logarithm (R186, R201). -/

namespace Sys2Proof

/-! ## Remainders by a power of two (R9, R150) -/

theorem tc_nonneg_lt (z : Int) (n : Nat) : tc z n < 2 ^ n := by
  have h : (0 : Int) < 2 ^ n := by positivity
  have h0 := Int.emod_nonneg z h.ne'
  have h1 := Int.emod_lt_of_pos z h
  unfold tc emod
  have : ((2 ^ n : Nat) : Int) = 2 ^ n := by push_cast; rfl
  omega

theorem tc_cast (z : Int) (n : Nat) : (tc z n : Int) = emod z (2 ^ n) :=
  Int.toNat_of_nonneg (Int.emod_nonneg z (by positivity))

/-- A non-negative value of at most `n` bits is its own view (R158). -/
theorem tc_of_nonneg {z : Int} {n : Nat} (h0 : 0 ≤ z) (h : bitlen z.natAbs ≤ n) : (tc z n : Int) = z := by
  rw [tc_cast]
  have := bitlen_le_iff.1 h
  refine emod_eq_of_range h0 ?_
  have h2 : ((2 ^ n : Nat) : Int) = 2 ^ n := by push_cast; rfl
  omega

/-- The view of a negative value of fewer than `n` bits has `n` significant bits (R158). -/
theorem tc_of_neg {z : Int} {n : Nat} (h0 : z < 0) (h : bitlen z.natAbs ≤ n) : (tc z n : Int) = z + 2 ^ n := by
  rw [tc_cast]
  have h1 := bitlen_le_iff.1 h
  have h2 : ((2 ^ n : Nat) : Int) = 2 ^ n := by push_cast; rfl
  have h3 : emod z (2 ^ n) = emod (z + 2 ^ n) (2 ^ n) := by unfold emod; simp
  rw [h3]
  exact emod_eq_of_range (by omega) (by omega)

/-! ## Shifts (R156, R157) -/

theorem shl_natAbs (z : Int) (n : Nat) : (z * 2 ^ n).natAbs = z.natAbs * 2 ^ n := by
  rw [Int.natAbs_mul, Int.natAbs_pow]; rfl

/-- R157: `floor(z / 2^n)`. -/
theorem Machine.shiftedRight_eq (z : Int) (n : Nat) : Machine.shiftedRight z n = ediv z (2 ^ n) := by
  unfold Machine.shiftedRight
  split
  · rename_i h
    have h1 := bitlen_le_iff.1 h
    have h2 : ((2 ^ n : Nat) : Int) = 2 ^ n := by push_cast; rfl
    split
    · exact (ediv_emod_unique (a := z) (b := 2 ^ n) (q := -1) (r := z + 2 ^ n) (by ring) (by omega)
        (by rw [abs_of_pos (by positivity)]; omega)).1.symm
    · exact (ediv_emod_unique (a := z) (b := 2 ^ n) (q := 0) (r := z) (by ring) (by omega)
        (by rw [abs_of_pos (by positivity)]; omega)).1.symm
  · rfl

/-- The right shift never grows the magnitude (R157). -/
theorem ediv_two_pow_natAbs_le (z : Int) (n : Nat) : (ediv z (2 ^ n)).natAbs ≤ z.natAbs := by
  have hp : (0 : Int) < 2 ^ n := by positivity
  have h := ediv_mul_add_emod z (2 ^ n)
  have h0 := emod_nonneg z hp.ne'
  have h1 := emod_lt z hp.ne'
  rw [abs_of_pos hp] at h1
  have hp1 : (1 : Int) ≤ 2 ^ n := by omega
  generalize ediv z (2 ^ n) = q at *
  generalize emod z (2 ^ n) = r at *
  generalize (2 : Int) ^ n = p at *
  rcases lt_trichotomy q 0 with hq | hq | hq
  · have : z < 0 := by nlinarith
    have : z ≤ q := by nlinarith
    omega
  · subst hq; simp
  · have : q ≤ z := by nlinarith
    omega

/-- R162: the bit of the magnitude, whatever its index. -/
theorem Machine.magnitudeBit_eq (k i : Nat) : Machine.magnitudeBit k i = k / 2 ^ i % 2 := by
  unfold Machine.magnitudeBit
  split
  · rename_i h
    rw [Nat.div_eq_of_lt (bitlen_le_iff.1 h)]
  · rfl

/-! ## Powers (R186, R202) -/

theorem modpowLoop_eq (m : Int) (fuel e : Nat) (result base : Int) (h : e < 2 ^ fuel) :
    emod (modpowLoop m fuel result base e) m = emod (result * base ^ e) m := by
  induction fuel generalizing e result base with
  | zero =>
    obtain rfl : e = 0 := by simpa using h
    simp [modpowLoop]
  | succ k ih =>
    unfold modpowLoop
    split
    · simp [*]
    · have hk : e / 2 < 2 ^ k := by
        rw [Nat.div_lt_iff_lt_mul (by decide)]; rw [pow_succ] at h; exact h
      rw [ih _ _ _ hk]
      have hb : (emod (base * base) m) ^ (e / 2) ≡ base ^ (2 * (e / 2)) [ZMOD m] := by
        rw [pow_mul, pow_two]
        exact (Int.mod_modEq _ _).pow _
      have hr : (if e % 2 = 1 then emod (result * base) m else result) ≡
          (if e % 2 = 1 then result * base else result) [ZMOD m] := by
        split
        · exact Int.mod_modEq _ _
        · rfl
      have := hr.mul hb
      refine Eq.trans (b := emod _ m) this ?_
      unfold emod
      congr 1
      split
      · rename_i ho
        have : e = 2 * (e / 2) + 1 := by omega
        conv_rhs => rw [this, pow_succ]
        ring
      · have : 2 * (e / 2) = e := by omega
        rw [this]

theorem modpowLoop_reduced (m : Int) (fuel e : Nat) (result base : Int) (h : emod result m = result) :
    emod (modpowLoop m fuel result base e) m = modpowLoop m fuel result base e := by
  induction fuel generalizing e result base with
  | zero => exact h
  | succ k ih =>
    unfold modpowLoop
    split
    · exact h
    · apply ih
      split
      · unfold emod; exact Int.emod_emod_of_dvd _ (dvd_refl m)
      · exact h

/-- R186: "The result is `emod(b^e, m)` with `b^0 = 1`". -/
theorem modpow_eq (b : Int) (e : Nat) (m : Int) : modpow b e m = emod (b ^ e) m := by
  unfold modpow
  rw [← modpowLoop_reduced m _ _ _ _ (by unfold emod; exact Int.emod_emod_of_dvd _ (dvd_refl m)),
    modpowLoop_eq m _ _ _ _ (lt_two_pow_bitlen e)]
  have h1 : emod 1 m ≡ 1 [ZMOD m] := Int.mod_modEq _ _
  have h2 : emod b m ^ e ≡ b ^ e [ZMOD m] := (Int.mod_modEq _ _).pow _
  have := h1.mul h2
  rw [one_mul] at this
  exact this

/-- R201: the largest `k` with `b^k <= v`. -/
theorem floorLog_spec {b v : Nat} (hb : 2 ≤ b) (hv : 1 ≤ v) : b ^ floorLog b v ≤ v ∧ v < b ^ (floorLog b v + 1) := by
  have h0 : (digitsOf b v).length ≠ 0 := fun h => by
    have := digitsOf_eq_nil_iff.1 (List.length_eq_zero_iff.1 h); omega
  unfold floorLog
  constructor
  · by_contra h
    have := (digitsOf_length_le_iff hb v ((digitsOf b v).length - 1)).2 (by omega)
    omega
  · rw [← digitsOf_length_le_iff hb]; omega

theorem floorLog_lt_bitlen {b v : Nat} (hb : 2 ≤ b) (hv : 1 ≤ v) : floorLog b v < bitlen v := by
  rw [lt_bitlen_iff]
  exact (Nat.pow_le_pow_left hb _).trans (floorLog_spec hb hv).1

namespace Machine

/-! ## The guarded writes (R156, R158, R159, R202) -/

theorem writeShiftedLeft_eq {s : State} (h : 1 ≤ s.params.maxWords) (xd : XReg) (z : Int) (n : Nat) :
    writeShiftedLeft s xd z n = writeX s xd (z * 2 ^ n) := by
  unfold writeShiftedLeft
  split
  · simp [*]
  · rename_i hz
    split
    · rename_i hc
      symm
      rw [writeX_eq_error, State.fits_iff h, shl_natAbs, bitlen_mul_two_pow (by omega)]
      simp only [wordBits] at hc
      exact ⟨by omega, rfl⟩
    · rfl

theorem writeView_eq {s : State} (h : 1 ≤ s.params.maxWords) (xd : XReg) (z : Int) (n : Nat) :
    writeView s xd z n = writeX s xd (tc z n) := by
  unfold writeView
  split
  · rename_i hz
    rw [tc_of_nonneg hz.1 hz.2]
  · split
    · rename_i hz
      obtain ⟨h0, hl, hc⟩ := hz
      symm
      rw [writeX_eq_error, State.fits_iff h]
      refine ⟨?_, rfl⟩
      have h1 := tc_of_neg h0 hl.le
      have h2 := bitlen_le_iff.1 (show bitlen z.natAbs ≤ n - 1 by omega)
      have h3 : ((2 ^ (n - 1) : Nat) : Int) = 2 ^ (n - 1) := by push_cast; rfl
      have h4 : (2 : Int) ^ n = 2 * 2 ^ (n - 1) := by
        rw [← pow_succ']; congr 1; omega
      have h5 : n - 1 < bitlen (tc z n : Int).natAbs := by
        rw [lt_bitlen_iff]; omega
      simp only [wordBits] at hc
      omega
    · rfl

theorem bitlen_fill (n : Nat) : bitlen ((2 : Int) ^ n - 1).natAbs = n := by
  have h2 : ((2 ^ n : Nat) : Int) = 2 ^ n := by push_cast; rfl
  have hp : 0 < 2 ^ n := Nat.two_pow_pos n
  have e : ((2 : Int) ^ n - 1).natAbs = 2 ^ n - 1 := by omega
  rw [e]
  apply le_antisymm
  · rw [bitlen_le_iff]; omega
  · rcases n with _ | k
    · simp
    · have hk : 0 < 2 ^ k := Nat.two_pow_pos k
      have : k < bitlen (2 ^ (k + 1) - 1) := by rw [lt_bitlen_iff, pow_succ]; omega
      omega

theorem writeFill_eq {s : State} (h : 1 ≤ s.params.maxWords) (xd : XReg) (n : Nat) :
    writeFill s xd n = writeX s xd (2 ^ n - 1) := by
  unfold writeFill
  split
  · rename_i hc
    symm
    rw [writeX_eq_error, State.fits_iff h, bitlen_fill]
    simp only [wordBits] at hc
    exact ⟨by omega, rfl⟩
  · rfl

theorem writePower_eq {s : State} (h : 1 ≤ s.params.maxWords) (xd : XReg) (b : Int) (e : Nat) :
    writePower s xd b e = writeX s xd (b ^ e) := by
  unfold writePower
  split
  · simp [*]
  · rename_i he
    split
    · rename_i hb
      rcases hb with rfl | rfl
      · rw [zero_pow he]
      · rw [one_pow]
    · rename_i hb
      split
      · rename_i hm
        subst hm
        split
        · rename_i hp
          rw [Even.neg_one_pow (Nat.even_iff.2 hp)]
        · rename_i hp
          rw [Odd.neg_one_pow (Nat.odd_iff.2 (by omega))]
      · rename_i hm
        split
        · rename_i hc
          symm
          rw [writeX_eq_error, State.fits_iff h]
          refine ⟨?_, rfl⟩
          simp only [wordBits] at hc
          have : e < bitlen (b ^ e).natAbs := by
            rw [lt_bitlen_iff, Int.natAbs_pow]
            exact Nat.pow_le_pow_left (by omega) _
          omega
        · rfl

end Machine
end Sys2Proof
end

