-- ==== Sys2Proof/Laws/Bits.lean ====
section
/-! SUPPORT. The two's-complement view (R150, R151): bit by bit the three binary operations are the operations on the infinite
sign-extended form, which Mathlib's `Int.testBit` reads. -/

namespace Sys2Proof

/-- Bit `i` of the infinite sign-extended form (R151). -/
theorem ibit_eq (z : Int) (i : Nat) : ibit z i = if z.testBit i then 1 else 0 := by
  have hp : (0 : Int) < 2 ^ i := by positivity
  have h2 : ((2 ^ i : Nat) : Int) = 2 ^ i := by push_cast; rfl
  have hm : ∀ n : Nat, (n : Int) / 2 ^ i = ((n / 2 ^ i : Nat) : Int) := fun n => by rw [Int.natCast_ediv, h2]
  cases z with
  | ofNat n =>
    simp only [ibit, emod, ediv, Int.ofNat_eq_natCast, Int.testBit, hm, Nat.testBit_eq_decide_div_mod_eq, decide_eq_true_eq]
    split <;> omega
  | negSucc m =>
    have e : (Int.negSucc m) / 2 ^ i = -(((m / 2 ^ i : Nat) : Int) + 1) := by
      rw [Int.negSucc_ediv m hp]
      have : Int.ediv (m : Int) (2 ^ i) = (m : Int) / 2 ^ i := rfl
      rw [this, hm]
    simp only [ibit, emod, ediv, Int.testBit, e, Nat.testBit_eq_decide_div_mod_eq, Bool.not_eq_true', decide_eq_false_iff_not]
    split <;> omega

/-- Above the bit length every bit is the sign. -/
theorem testBit_of_bitlen_le {z : Int} {i : Nat} (h : bitlen z.natAbs ≤ i) : z.testBit i = decide (z < 0) := by
  have h1 := bitlen_le_iff.1 h
  cases z with
  | ofNat n =>
    have : n < 2 ^ i := h1
    simp [Int.testBit, Nat.testBit_lt_two_pow this]
  | negSucc m =>
    have : m < 2 ^ i := by have : m + 1 < 2 ^ i := h1; omega
    simp [Int.testBit, Nat.testBit_lt_two_pow this, Int.negSucc_lt_zero]

/-- Two integers with the same bits are equal. -/
theorem int_ext {a b : Int} (h : ∀ i, a.testBit i = b.testBit i) : a = b := by
  have ha := testBit_of_bitlen_le (le_max_left (bitlen a.natAbs) (bitlen b.natAbs))
  have hb := testBit_of_bitlen_le (le_max_right (bitlen a.natAbs) (bitlen b.natAbs))
  rw [h] at ha
  have hs : decide (a < 0) = decide (b < 0) := ha.symm.trans hb
  cases a <;> cases b
  · exact congrArg Int.ofNat (Nat.eq_of_testBit_eq h)
  · simp [Int.negSucc_lt_zero] at hs; omega
  · simp [Int.negSucc_lt_zero] at hs; omega
  · refine congrArg Int.negSucc (Nat.eq_of_testBit_eq fun i => ?_)
    have := h i
    simpa [Int.testBit] using this

/-- R151: an integer is determined by its bits `ibit`. -/
theorem ibit_ext {a b : Int} (h : ∀ i, ibit a i = ibit b i) : a = b := by
  refine int_ext fun i => ?_
  have := h i
  rw [ibit_eq, ibit_eq] at this
  generalize a.testBit i = p at *
  generalize b.testBit i = q at *
  cases p <;> cases q <;> simp_all

/-- The view of width `n` has the low `n` bits (R150). -/
theorem testBit_tc (z : Int) (n i : Nat) : (tc z n).testBit i = (decide (i < n) && z.testBit i) := by
  cases z with
  | ofNat k =>
    have e : tc (Int.ofNat k) n = k % 2 ^ n := by
      have h1 := tc_cast (Int.ofNat k) n
      have h2 : ((2 ^ n : Nat) : Int) = 2 ^ n := by push_cast; rfl
      have h3 : ((k % 2 ^ n : Nat) : Int) = emod (Int.ofNat k) (2 ^ n) := by unfold emod; push_cast; rfl
      omega
    rw [e, Nat.testBit_mod_two_pow]; rfl
  | negSucc m =>
    have hp : m % 2 ^ n < 2 ^ n := Nat.mod_lt _ (Nat.two_pow_pos n)
    have e : tc (Int.negSucc m) n = 2 ^ n - (m % 2 ^ n + 1) := by
      have h1 := tc_cast (Int.negSucc m) n
      have h2 : ((2 ^ n : Nat) : Int) = 2 ^ n := by push_cast; rfl
      have h4 : (m : Int) = 2 ^ n * ((m / 2 ^ n : Nat) : Int) + ((m % 2 ^ n : Nat) : Int) := by
        rw [← h2]; exact_mod_cast (Nat.div_add_mod m (2 ^ n)).symm
      have h3 := (ediv_emod_unique (a := Int.negSucc m) (b := 2 ^ n) (q := -((m / 2 ^ n : Nat) : Int) - 1)
        (r := 2 ^ n - ((m % 2 ^ n : Nat) : Int) - 1)
        (by rw [Int.negSucc_eq]; conv_lhs => rw [h4]
            ring) (by omega) (by rw [abs_of_pos (by positivity)]; omega)).2
      omega
    rw [e, Nat.testBit_two_pow_sub_succ hp, Nat.testBit_mod_two_pow]
    simp only [Int.testBit]
    cases decide (i < n) <;> simp

/-- `signed_N` repeats bit `N - 1` above the pattern (R10, R151). -/
theorem testBit_signedBits {n p : Nat} (hn : 1 ≤ n) (hp : p < 2 ^ n) (i : Nat) :
    (signedBits n p).testBit i = if i < n then p.testBit i else p.testBit (n - 1) := by
  have h2 : ((2 ^ n : Nat) : Int) = 2 ^ n := by push_cast; rfl
  have hd : 2 ^ n = 2 ^ (n - 1) + 2 ^ (n - 1) := by rw [← Nat.two_mul, ← pow_succ']; congr 1; omega
  unfold signedBits
  split
  · rename_i h
    have e : ((p : Nat) : Int).testBit i = p.testBit i := rfl
    rw [e]
    split
    · rfl
    · rw [Nat.testBit_lt_two_pow h, Nat.testBit_lt_two_pow hp |> fun _ => Nat.testBit_lt_two_pow
        (lt_of_lt_of_le hp (Nat.pow_le_pow_right (by decide) (by omega)))]
  · rename_i h
    have e : (p : Int) - 2 ^ n = Int.negSucc (2 ^ n - (p + 1)) := by rw [Int.negSucc_eq]; omega
    rw [e]
    simp only [Int.testBit, Nat.testBit_two_pow_sub_succ hp]
    have top : p.testBit (n - 1) = true := by
      have : p = 2 ^ (n - 1) + (p - 2 ^ (n - 1)) := by omega
      rw [this, Nat.testBit_two_pow_add_eq, Nat.testBit_lt_two_pow (by omega)]
      rfl
    split <;> simp [*]

/-- R151: "For every `z` that `N` holds, `signed_N(tc(z, N)) = z`". -/
theorem signedBits_tc {z : Int} {n : Nat} (hn : 1 ≤ n) (h0 : -2 ^ (n - 1) ≤ z) (h1 : z < 2 ^ (n - 1)) :
    signedBits n (tc z n) = z := by
  have hd : (2 : Int) ^ n = 2 ^ (n - 1) + 2 ^ (n - 1) := by rw [← two_mul, ← pow_succ']; congr 1; omega
  have h2 : ((2 ^ (n - 1) : Nat) : Int) = 2 ^ (n - 1) := by push_cast; rfl
  have hp : (0 : Int) < 2 ^ (n - 1) := by positivity
  have ht := tc_cast z n
  unfold signedBits
  rcases lt_or_ge z 0 with hz | hz
  · have : emod z (2 ^ n) = z + 2 ^ n := by
      have e : emod z (2 ^ n) = emod (z + 2 ^ n) (2 ^ n) := by unfold emod; simp
      rw [e]; exact emod_eq_of_range (by omega) (by omega)
    split <;> omega
  · have : emod z (2 ^ n) = z := emod_eq_of_range hz (by omega)
    split <;> omega

/-- A binary operation on the view acts on every bit of the infinite form (R151). -/
theorem testBit_bitop {op : Nat → Nat → Nat} {f : Bool → Bool → Bool}
    (hbit : ∀ p q i, (op p q).testBit i = f (p.testBit i) (q.testBit i))
    (hlt : ∀ {n p q}, p < 2 ^ n → q < 2 ^ n → op p q < 2 ^ n) (a b : Int) (i : Nat) :
    (bitop op a b).testBit i = f (a.testBit i) (b.testBit i) := by
  have hn : 1 ≤ viewWidth a b := Nat.le_add_left 1 _
  have ha : bitlen a.natAbs ≤ viewWidth a b - 1 := by unfold viewWidth; omega
  have hb : bitlen b.natAbs ≤ viewWidth a b - 1 := by unfold viewWidth; omega
  show (signedBits _ _).testBit i = _
  rw [testBit_signedBits hn (hlt (tc_nonneg_lt _ _) (tc_nonneg_lt _ _))]
  simp only [hbit, testBit_tc]
  split
  · simp [*]
  · rw [testBit_of_bitlen_le ha, testBit_of_bitlen_le hb, testBit_of_bitlen_le (z := a) (i := i) (by omega),
      testBit_of_bitlen_le (z := b) (i := i) (by omega)]
    simp only [show viewWidth a b - 1 < viewWidth a b by omega, decide_true, Bool.true_and]

theorem testBit_and (a b : Int) (i : Nat) : (bitop Nat.land a b).testBit i = (a.testBit i && b.testBit i) :=
  testBit_bitop (f := fun x y => x && y) (fun p q i => Nat.testBit_and p q i) (fun _ h => Nat.and_lt_two_pow _ h) a b i

theorem testBit_or (a b : Int) (i : Nat) : (bitop Nat.lor a b).testBit i = (a.testBit i || b.testBit i) :=
  testBit_bitop (f := fun x y => x || y) (fun p q i => Nat.testBit_or p q i) Nat.or_lt_two_pow a b i

theorem testBit_xor (a b : Int) (i : Nat) : (bitop Nat.xor a b).testBit i = xor (a.testBit i) (b.testBit i) :=
  testBit_bitop (f := fun x y => xor x y) (fun p q i => Nat.testBit_xor p q i) Nat.xor_lt_two_pow a b i

/-! ## The operations as Mathlib's, and how large their results are (R152, R153, R220) -/

theorem bitop_and_eq (a b : Int) : bitop Nat.land a b = Int.land a b :=
  int_ext fun i => by rw [testBit_and, Int.testBit_land]

theorem bitop_or_eq (a b : Int) : bitop Nat.lor a b = Int.lor a b :=
  int_ext fun i => by rw [testBit_or, Int.testBit_lor]

theorem ldiff_le (m n : Nat) : Nat.ldiff m n ≤ m := by
  have : Nat.ldiff m n = m &&& Nat.ldiff m n := by
    refine Nat.eq_of_testBit_eq fun i => ?_
    rw [Nat.testBit_and, Nat.testBit_ldiff]
    cases m.testBit i <;> simp
  rw [this]; exact Nat.and_le_left

/-- AND grows the magnitude only when both operands are negative (R152). -/
theorem bitop_and_natAbs_le {a b : Int} (h : ¬(a < 0 ∧ b < 0)) :
    (bitop Nat.land a b).natAbs ≤ max a.natAbs b.natAbs := by
  rw [bitop_and_eq]
  cases a <;> cases b
  · exact (Nat.and_le_left).trans (le_max_left _ _)
  · exact (ldiff_le _ _).trans (le_max_left _ _)
  · exact (ldiff_le _ _).trans (le_max_right _ _)
  · exact absurd ⟨Int.negSucc_lt_zero _, Int.negSucc_lt_zero _⟩ h

/-- OR never needs more bits than its longer operand (R153). -/
theorem bitop_or_bitlen_le (a b : Int) :
    bitlen (bitop Nat.lor a b).natAbs ≤ max (bitlen a.natAbs) (bitlen b.natAbs) := by
  have mono : ∀ {m n : Nat}, m ≤ n → bitlen m ≤ bitlen n := fun h =>
    bitlen_le_iff.2 (lt_of_le_of_lt h (lt_two_pow_bitlen _))
  rw [bitop_or_eq]
  cases a <;> cases b
  · rename_i m n
    rw [bitlen_le_iff]
    refine Nat.or_lt_two_pow ?_ ?_
    · exact bitlen_le_iff.1 (le_max_left _ _)
    · exact bitlen_le_iff.1 (le_max_right _ _)
  · exact (mono (Nat.succ_le_succ (ldiff_le _ _))).trans (le_max_right _ _)
  · exact (mono (Nat.succ_le_succ (ldiff_le _ _))).trans (le_max_left _ _)
  · exact (mono (Nat.succ_le_succ Nat.and_le_left)).trans (le_max_left _ _)

/-- R155: the complement flips every bit of the infinite form. -/
theorem testBit_not (z : Int) (i : Nat) : (-(z + 1)).testBit i = !z.testBit i := by
  have : -(z + 1) = Int.lnot z := by
    cases z with
    | ofNat n => simp only [Int.lnot, Int.negSucc_eq, Int.ofNat_eq_natCast]
    | negSucc n => simp only [Int.lnot, Int.negSucc_eq]; omega
  rw [this, Int.testBit_lnot]

end Sys2Proof
end

