-- ==== Sys2Proof/Laws/Datapath.lean ====
section
/-! SUPPORT. The word-serial datapaths compute the exact integers of the rules: comparison (R110, R111), adder and subtractor (R120 to
R122, R125), multiplier (R130, R131), divider (R140 to R142). -/

namespace Sys2Proof

/-! ## Word sequences -/

theorem magValue_lt (m : List Byte) : magValue m < 256 ^ m.length := by
  induction m with
  | nil => simp [magValue]
  | cons w ws ih =>
    have hw : w.toNat < 256 := w.isLt
    simp only [magValue, wordBits, List.length_cons, pow_succ]; omega

theorem magValue_append (a b : List Byte) : magValue (a ++ b) = magValue a + 256 ^ a.length * magValue b := by
  induction a with
  | nil => simp [magValue]
  | cons w ws ih =>
    simp only [List.cons_append, magValue, wordBits, ih, List.length_cons, pow_succ]; ring

/-- Word 0 and the rest. -/
theorem wordAt_add_tail (m : List Byte) : wordAt m 0 + 256 * magValue m.tail = magValue m := by
  cases m <;> simp [wordAt, magValue, wordBits]

theorem wordAt_lt (m : List Byte) (i : Nat) : wordAt m i < 256 := (m.getD i 0).isLt

/-- A word sequence of a given length is determined by its value. -/
theorem eq_of_magValue_eq {a b : List Byte} (hl : a.length = b.length) (hv : magValue a = magValue b) : a = b := by
  induction a generalizing b with
  | nil => exact (List.length_eq_zero_iff.1 hl.symm).symm
  | cons w ws ih =>
    cases b with
    | nil => simp at hl
    | cons v vs =>
      simp only [magValue, wordBits] at hv
      have hw : w.toNat < 256 := w.isLt
      have hv' : v.toNat < 256 := v.isLt
      rw [ih (by simpa using hl) (by omega), BitVec.eq_of_toNat_eq (show w.toNat = v.toNat by omega)]

/-- A sequence of `k + 1` words whose value needs them all is trimmed. -/
theorem trim_of_length {m : List Byte} {k : Nat} (hl : m.length = k + 1) (hv : k = 0 ∨ 256 ^ k ≤ magValue m) : trim m = m := by
  have h1 := digitsOf_length_le_iff (b := 2 ^ 8) (by decide) (magValue m) (k + 1)
  have h2 := digitsOf_length_le_iff (b := 2 ^ 8) (by decide) (magValue m) k
  have h3 := magValue_lt m
  rw [hl] at h3
  have h4 : (magOf (magValue m)).length = k + 1 := by
    rw [magOf_length]
    have := h1.2 h3
    rcases hv with rfl | hv
    · omega
    · have : ¬magValue m < (2 ^ 8) ^ k := not_lt.2 hv
      omega
  rw [trim_eq_magOf]
  exact eq_of_magValue_eq (h4.trans hl.symm) (magValue_magOf _)

/-- A trimmed sequence of more than one word needs them all (I1). -/
theorem trimmed_le {m : List Byte} (h : trim m = m) : m ≠ [] ∧ (m.length = 1 ∨ 256 ^ (m.length - 1) ≤ magValue m) := by
  have hm := magOf_magValue h
  have hl := congrArg List.length hm
  rw [magOf_length] at hl
  have h2 := digitsOf_length_le_iff (b := 2 ^ 8) (by decide) (magValue m) (m.length - 1)
  refine ⟨fun h0 => by rw [h0] at hl; simp at hl, ?_⟩
  by_cases h1 : m.length = 1
  · exact .inl h1
  · refine .inr (not_lt.1 fun h3 => ?_)
    have := h2.2 h3
    omega

/-! ## Comparison (R110, R111) -/

theorem compare_eq_gt {m n : Nat} (h : n < m) : compare m n = .gt := Nat.compare_eq_gt.2 h
theorem compare_eq_lt {m n : Nat} (h : m < n) : compare m n = .lt := Nat.compare_eq_lt.2 h

theorem cmpWords_eq (a b : List Byte) (hl : a.length = b.length) :
    cmpWords a b = compare (magValue a.reverse) (magValue b.reverse) := by
  induction a generalizing b with
  | nil =>
    obtain rfl : b = [] := List.length_eq_zero_iff.1 hl.symm
    simp [cmpWords]
  | cons w ws ih =>
    cases b with
    | nil => simp at hl
    | cons v vs =>
      have hl' : ws.length = vs.length := by simpa using hl
      have h1 := magValue_lt ws.reverse
      have h2 := magValue_lt vs.reverse
      simp only [List.length_reverse] at h1 h2
      simp only [cmpWords, List.reverse_cons, magValue_append, List.length_reverse, magValue, wordBits, Nat.mul_zero,
        Nat.add_zero]
      rw [hl'] at h1 ⊢
      have step : ∀ {x y : Nat}, x < y → 256 ^ vs.length * x + 256 ^ vs.length ≤ 256 ^ vs.length * y := fun {x y} h => by
        rw [← Nat.mul_succ]; exact Nat.mul_le_mul_left _ h
      split
      · rename_i h
        have := step h
        exact (compare_eq_gt (by omega)).symm
      · split
        · rename_i h
          have := step h
          exact (compare_eq_lt (by omega)).symm
        · rw [ih vs hl', show w.toNat = v.toNat by omega]
          rcases lt_trichotomy (magValue ws.reverse) (magValue vs.reverse) with h | h | h
          · rw [compare_eq_lt h, compare_eq_lt (by omega)]
          · rw [h]; simp
          · rw [compare_eq_gt h, compare_eq_gt (by omega)]

/-- R110: "For normalised magnitudes `mag_cmp(a, b)` is the sign of" the difference of the values. -/
theorem magCmp_eq {a b : List Byte} (ha : trim a = a) (hb : trim b = b) :
    magCmp a b = compare (magValue a) (magValue b) := by
  have long : ∀ {a b : List Byte}, trim a = a → trim b = b → b.length < a.length → magValue b < magValue a := by
    intro a b ha hb hl
    have h1 := (trimmed_le ha).2
    have h2 := magValue_lt b
    have h3 := List.length_pos_of_ne_nil (trimmed_le hb).1
    have h4 : 256 ^ b.length ≤ 256 ^ (a.length - 1) := Nat.pow_le_pow_right (by decide) (by omega)
    rcases h1 with h1 | h1 <;> omega
  unfold magCmp
  split
  · rename_i h; exact (compare_eq_gt (long ha hb h)).symm
  · split
    · rename_i h; exact (compare_eq_lt (long hb ha h)).symm
    · rw [cmpWords_eq _ _ (by simp; omega), List.reverse_reverse, List.reverse_reverse]

/-- R111: `cmp(u, v)` is the sign of `val(u) - val(v)`. -/
theorem BigInt.cmp_eq {u v : BigInt} (hu : u.Normalised) (hv : v.Normalised) : BigInt.cmp u v = compare u.val v.val := by
  have hc := magCmp_eq hu.1 hv.1
  have hsu := BigInt.sign_eq hu
  have hsv := BigInt.sign_eq hv
  have key : ∀ {x y : Int}, (x < y → compare x y = .lt) ∧ (x = y → compare x y = .eq) ∧ (y < x → compare x y = .gt) := by
    intro x y; exact ⟨fun h => compare_lt_iff_lt.2 h, fun h => compare_eq_iff_eq.2 h, fun h => compare_gt_iff_gt.2 h⟩
  have nkey : ∀ {x y : Nat}, (x < y → compare x y = .lt) ∧ (x = y → compare x y = .eq) ∧ (y < x → compare x y = .gt) := by
    intro x y; exact ⟨fun h => compare_lt_iff_lt.2 h, fun h => compare_eq_iff_eq.2 h, fun h => compare_gt_iff_gt.2 h⟩
  unfold BigInt.cmp
  rw [hc]
  have vu : u.val = if u.sign then -(magValue u.magnitude : Int) else magValue u.magnitude := rfl
  have vv : v.val = if v.sign then -(magValue v.magnitude : Int) else magValue v.magnitude := rfl
  cases hsu' : u.sign <;> cases hsv' : v.sign <;> simp only [hsu', hsv', Bool.false_eq_true, if_true, if_false] at *
  · rcases lt_trichotomy (magValue u.magnitude) (magValue v.magnitude) with h | h | h
    · rw [nkey.1 h, key.1 (by omega)]
    · rw [nkey.2.1 h, key.2.1 (by omega)]
    · rw [nkey.2.2 h, key.2.2 (by omega)]
  · have h1 : v.val < 0 := by simpa using hsv.symm
    have h2 : ¬u.val < 0 := by simpa using hsu.symm
    rw [key.2.2 (by omega)]
  · have h1 : u.val < 0 := by simpa using hsu.symm
    have h2 : ¬v.val < 0 := by simpa using hsv.symm
    rw [key.1 (by omega)]
  · rcases lt_trichotomy (magValue u.magnitude) (magValue v.magnitude) with h | h | h
    · rw [nkey.1 h, key.2.2 (by omega)]; rfl
    · rw [nkey.2.1 h, key.2.1 (by omega)]; rfl
    · rw [nkey.2.2 h, key.1 (by omega)]; rfl

/-! ## Adder and subtractor (R120 to R122, R125) -/

theorem magAddLoop_value (n : Nat) (a b : List Byte) (carry : Nat) (ha : a.length ≤ n) (hb : b.length ≤ n) (hc : carry ≤ 1) :
    magValue (magAddLoop n a b carry) = magValue a + magValue b + carry := by
  induction n generalizing a b carry with
  | zero =>
    obtain rfl : a = [] := List.length_eq_zero_iff.1 (by omega)
    obtain rfl : b = [] := List.length_eq_zero_iff.1 (by omega)
    have : carry = 0 ∨ carry = 1 := by omega
    rcases this with rfl | rfl <;> rfl
  | succ n ih =>
    have h1 := wordAt_lt a 0
    have h2 := wordAt_lt b 0
    have h3 := wordAt_add_tail a
    have h4 := wordAt_add_tail b
    rw [magAddLoop]
    simp only [magValue, wordBits]
    rw [ih _ _ _ (by simp; omega) (by simp; omega) (by omega)]
    simp only [BitVec.toNat_ofNat]
    omega

theorem magAddLoop_length (n : Nat) (a b : List Byte) (carry : Nat) (ha : a.length ≤ n) (hb : b.length ≤ n) (hc : carry ≤ 1) :
    ((magAddLoop n a b carry).length = n) ∨
      ((magAddLoop n a b carry).length = n + 1 ∧ 256 ^ n ≤ magValue a + magValue b + carry) := by
  induction n generalizing a b carry with
  | zero =>
    have : carry = 0 ∨ carry = 1 := by omega
    rcases this with rfl | rfl
    · exact .inl rfl
    · exact .inr ⟨rfl, by simp⟩
  | succ n ih =>
    have h1 := wordAt_lt a 0
    have h2 := wordAt_lt b 0
    have h3 := wordAt_add_tail a
    have h4 := wordAt_add_tail b
    simp only [magAddLoop, List.length_cons, wordBits]
    rcases ih a.tail b.tail ((wordAt a 0 + wordAt b 0 + carry) / 2 ^ 8) (by simp; omega) (by simp; omega) (by omega) with
      h | ⟨h, h5⟩
    · exact .inl (by omega)
    · exact .inr ⟨by omega, by rw [pow_succ]; omega⟩

/-- R120: the sum, exactly. -/
theorem magAdd_value (a b : List Byte) : magValue (magAdd a b) = magValue a + magValue b :=
  magAddLoop_value _ a b 0 (le_max_left _ _) (le_max_right _ _) (by decide)

/-- R120: "already normalised; trim changes nothing". -/
theorem trim_magAdd {a b : List Byte} (ha : trim a = a) (hb : trim b = b) : trim (magAdd a b) = magAdd a b := by
  have hv := magAdd_value a b
  obtain ⟨na, ka⟩ := trimmed_le ha
  obtain ⟨nb, kb⟩ := trimmed_le hb
  have la := List.length_pos_of_ne_nil na
  have lb := List.length_pos_of_ne_nil nb
  rcases magAddLoop_length (max a.length b.length) a b 0 (le_max_left _ _) (le_max_right _ _) (by decide) with h | ⟨h, h5⟩
  · have h' : (magAdd a b).length = (max a.length b.length - 1) + 1 := by show (magAddLoop _ _ _ _).length = _; omega
    refine trim_of_length h' ?_
    rw [hv]
    rcases le_total a.length b.length with hab | hab
    · rw [max_eq_right hab]
      rcases kb with kb | kb
      · exact .inl (by omega)
      · exact .inr (by omega)
    · rw [max_eq_left hab]
      rcases ka with ka | ka
      · exact .inl (by omega)
      · exact .inr (by omega)
  · exact trim_of_length h (.inr (by rw [hv]; omega))

theorem magAdd_eq {a b : List Byte} (ha : trim a = a) (hb : trim b = b) :
    magAdd a b = magOf (magValue a + magValue b) := by rw [← magAdd_value, ← trim_eq_magOf, trim_magAdd ha hb]

theorem magSubLoop_value (a b : List Byte) (borrow : Nat) (hl : b.length ≤ a.length) (hb : borrow ≤ 1) :
    ∃ out : Int, (out = 0 ∨ out = 1) ∧
      (magValue (magSubLoop a b borrow) : Int) = magValue a - magValue b - borrow + out * 256 ^ a.length := by
  induction a generalizing b borrow with
  | nil =>
    obtain rfl : b = [] := List.length_eq_zero_iff.1 (by simpa using hl)
    refine ⟨borrow, by omega, by simp [magSubLoop, magValue]⟩
  | cons w ws ih =>
    have hw : w.toNat < 256 := w.isLt
    have h2 := wordAt_lt b 0
    have h4 := wordAt_add_tail b
    have hl' : b.tail.length ≤ ws.length := by simp at hl ⊢; omega
    rw [magSubLoop]
    split
    · rename_i ht
      obtain ⟨out, ho, he⟩ := ih b.tail 1 hl' (by decide)
      refine ⟨out, ho, ?_⟩
      have e : ((BitVec.ofInt 8 ((w.toNat : Int) - wordAt b 0 - borrow + 2 ^ wordBits)).toNat : Int) =
          (w.toNat : Int) - wordAt b 0 - borrow + 256 := by
        rw [BitVec.toNat_ofInt]; simp only [wordBits]; omega
      simp only [magValue, wordBits, List.length_cons, pow_succ, Nat.cast_add, Nat.cast_mul, Nat.cast_pow, Nat.cast_ofNat] at *
      rw [he, e]
      have : (magValue b : Int) = wordAt b 0 + 256 * magValue b.tail := by omega
      rw [this]; ring
    · rename_i ht
      obtain ⟨out, ho, he⟩ := ih b.tail 0 hl' (by decide)
      refine ⟨out, ho, ?_⟩
      have e : ((BitVec.ofInt 8 ((w.toNat : Int) - wordAt b 0 - borrow)).toNat : Int) =
          (w.toNat : Int) - wordAt b 0 - borrow := by
        rw [BitVec.toNat_ofInt]; omega
      simp only [magValue, wordBits, List.length_cons, pow_succ, Nat.cast_add, Nat.cast_mul, Nat.cast_pow, Nat.cast_ofNat] at *
      rw [he, e]
      have : (magValue b : Int) = wordAt b 0 + 256 * magValue b.tail := by omega
      rw [this]; ring

theorem magSubLoop_length (a b : List Byte) (borrow : Nat) : (magSubLoop a b borrow).length = a.length := by
  induction a generalizing b borrow with
  | nil => rfl
  | cons w ws ih => rw [magSubLoop]; split <;> simp [ih]

theorem length_le_of_value_le {a b : List Byte} (ha : trim a = a) (hb : trim b = b) (h : magValue b ≤ magValue a) :
    b.length ≤ a.length := by
  obtain ⟨na, -⟩ := trimmed_le ha
  obtain ⟨nb, kb⟩ := trimmed_le hb
  have la := List.length_pos_of_ne_nil na
  by_contra hl
  have h1 := magValue_lt a
  have h2 : 256 ^ a.length ≤ 256 ^ (b.length - 1) := Nat.pow_le_pow_right (by decide) (by omega)
  rcases kb with kb | kb <;> omega

/-- R121: the difference, under the precondition. -/
theorem magSub_eq {a b : List Byte} (ha : trim a = a) (hb : trim b = b) (h : magValue b ≤ magValue a) :
    magSub a b = magOf (magValue a - magValue b) := by
  obtain ⟨out, ho, he⟩ := magSubLoop_value a b 0 (length_le_of_value_le ha hb h) (by decide)
  have h1 := magValue_lt (magSubLoop a b 0)
  rw [magSubLoop_length] at h1
  have h2 : ((256 ^ a.length : Nat) : Int) = 256 ^ a.length := by push_cast; rfl
  rw [magSub, trim_eq_magOf]
  congr 1
  rcases ho with rfl | rfl <;> omega

theorem BigInt.ext_val {u : BigInt} {z : Int} (hu : u.Normalised) (h : u.val = z) : u = BigInt.big z := by
  rw [← h, BigInt.big_val hu]

theorem BigInt.mk_normalised {s : Bool} {n : Nat} (h : s = true → n ≠ 0) :
    BigInt.Normalised { sign := s, magnitude := magOf n } :=
  ⟨trim_magOf n, fun ⟨h1, h2⟩ => h h1 (magOf_eq_zero_iff.1 h2)⟩

theorem BigInt.mk_val (s : Bool) (n : Nat) : BigInt.val { sign := s, magnitude := magOf n } = if s then -(n : Int) else n := by
  simp only [BigInt.val, magValue_magOf]

/-- A normalised BigInt that is negative is not zero (R23). -/
theorem BigInt.Normalised.pos {u : BigInt} (h : u.Normalised) (hs : u.sign = true) : magValue u.magnitude ≠ 0 := by
  intro h0
  exact h.2 ⟨hs, by rw [← magOf_magValue h.1, h0]; rfl⟩

theorem BigInt.zero_val : BigInt.val { sign := false, magnitude := [0] } = 0 := rfl

theorem BigInt.zero_normalised : BigInt.Normalised { sign := false, magnitude := [0] } := ⟨rfl, by simp⟩

/-- R122: `sadd(u, v) = big(val(u) + val(v))`. -/
theorem sadd_eq {u v : BigInt} (hu : u.Normalised) (hv : v.Normalised) : sadd u v = BigInt.big (u.val + v.val) := by
  have vu : u.val = if u.sign then -(magValue u.magnitude : Int) else magValue u.magnitude := rfl
  have vv : v.val = if v.sign then -(magValue v.magnitude : Int) else magValue v.magnitude := rfl
  unfold sadd
  split
  · rename_i hs
    rw [magAdd_eq hu.1 hv.1]
    refine BigInt.ext_val (BigInt.mk_normalised fun h => ?_) ?_
    · have := hu.pos h; omega
    · rw [BigInt.mk_val, vu, vv, ← hs]; split <;> push_cast <;> ring
  · rename_i hs
    rw [magCmp_eq hu.1 hv.1]
    rcases lt_trichotomy (magValue u.magnitude) (magValue v.magnitude) with h | h | h
    · rw [compare_eq_lt h]
      simp only
      rw [magSub_eq hv.1 hu.1 h.le]
      refine BigInt.ext_val (BigInt.mk_normalised fun _ => by omega) ?_
      rw [BigInt.mk_val, vu, vv]
      cases hu' : u.sign <;> cases hv' : v.sign <;> simp only [hu', hv'] at * <;> simp at hs ⊢ <;> omega
    · rw [h]
      simp only [Nat.compare_eq_eq.2]
      refine BigInt.ext_val BigInt.zero_normalised ?_
      rw [BigInt.zero_val, vu, vv]
      cases hu' : u.sign <;> cases hv' : v.sign <;> simp only [hu', hv'] at * <;> simp at hs ⊢ <;> omega
    · rw [compare_eq_gt h]
      simp only
      rw [magSub_eq hu.1 hv.1 h.le]
      refine BigInt.ext_val (BigInt.mk_normalised fun _ => by omega) ?_
      rw [BigInt.mk_val, vu, vv]
      cases hu' : u.sign <;> cases hv' : v.sign <;> simp only [hu', hv'] at * <;> simp at hs ⊢ <;> omega

/-- R125: `neg((s, m))`. -/
theorem sneg_eq {u : BigInt} (hu : u.Normalised) : sneg u = BigInt.big (-u.val) := by
  have vu : u.val = if u.sign then -(magValue u.magnitude : Int) else magValue u.magnitude := rfl
  unfold sneg
  split
  · rename_i h
    refine BigInt.ext_val BigInt.zero_normalised ?_
    rw [BigInt.zero_val, vu, h]; simp [magValue]
  · rename_i h
    refine BigInt.ext_val ⟨hu.1, fun hn => h hn.2⟩ ?_
    rw [vu]
    show (if (!u.sign) = true then _ else _) = _
    cases u.sign <;> simp

/-- R124: the datapath of `a - b` is `a + (-b)`. -/
theorem ssub_eq {u v : BigInt} (hu : u.Normalised) (hv : v.Normalised) : ssub u v = BigInt.big (u.val - v.val) := by
  have hn : (sneg v).Normalised := by rw [sneg_eq hv]; exact BigInt.big_normalised _
  rw [ssub, sadd_eq hu hn, sneg_eq hv, BigInt.val_big, sub_eq_add_neg]

end Sys2Proof
end

