-- ==== Sys2Proof/Laws/Encoding.lean ====
section
/-! SUPPORT. The command word as its five fields (R71): reading a field of an assembled word, masking it (R72), and what the masks say
of the unused fields (R77). -/
namespace Sys2Proof

theorem getLsbD_assemble (i : BitVec 12) (c b a : BitVec 4) (o : BitVec 8) (k : Nat) :
    (assemble i c b a o).getLsbD k =
      if k < 8 then o.getLsbD k else if k < 12 then a.getLsbD (k - 8) else if k < 16 then b.getLsbD (k - 12)
      else if k < 20 then c.getLsbD (k - 16) else i.getLsbD (k - 20) := by
  show BitVec.getLsbD (w := 12 + 4 + 4 + 4 + 8) (i ++ c ++ b ++ a ++ o) k = _
  rw [BitVec.getLsbD_append, BitVec.getLsbD_append, BitVec.getLsbD_append, BitVec.getLsbD_append]
  rw [show k - 8 - 4 = k - 12 by omega, show k - 12 - 4 = k - 16 by omega, show k - 16 - 4 = k - 20 by omega]
  simp only [show k - 8 < 4 ↔ k < 12 by omega, show k - 12 < 4 ↔ k < 16 by omega,
    show k - 16 < 4 ↔ k < 20 by omega]

@[simp] theorem opField_assemble (i : BitVec 12) (c b a : BitVec 4) (o : BitVec 8) : opField (assemble i c b a o) = o := by
  apply BitVec.eq_of_getLsbD_eq; intro k hk
  rw [opField, BitVec.getLsbD_extractLsb', getLsbD_assemble]
  simp [hk]

@[simp] theorem raField_assemble (i : BitVec 12) (c b a : BitVec 4) (o : BitVec 8) : raField (assemble i c b a o) = a := by
  apply BitVec.eq_of_getLsbD_eq; intro k hk
  rw [raField, BitVec.getLsbD_extractLsb', getLsbD_assemble, if_neg (by omega), if_pos (by omega), show 8 + k - 8 = k by omega]
  simp [hk]

@[simp] theorem rbField_assemble (i : BitVec 12) (c b a : BitVec 4) (o : BitVec 8) : rbField (assemble i c b a o) = b := by
  apply BitVec.eq_of_getLsbD_eq; intro k hk
  rw [rbField, BitVec.getLsbD_extractLsb', getLsbD_assemble, if_neg (by omega), if_neg (by omega), if_pos (by omega), show 12 + k - 12 = k by omega]
  simp [hk]

@[simp] theorem rcField_assemble (i : BitVec 12) (c b a : BitVec 4) (o : BitVec 8) : rcField (assemble i c b a o) = c := by
  apply BitVec.eq_of_getLsbD_eq; intro k hk
  rw [rcField, BitVec.getLsbD_extractLsb', getLsbD_assemble, if_neg (by omega), if_neg (by omega), if_neg (by omega), if_pos (by omega), show 16 + k - 16 = k by omega]
  simp [hk]

@[simp] theorem imm12Field_assemble (i : BitVec 12) (c b a : BitVec 4) (o : BitVec 8) : imm12Field (assemble i c b a o) = i := by
  apply BitVec.eq_of_getLsbD_eq; intro k hk
  rw [imm12Field, BitVec.getLsbD_extractLsb', getLsbD_assemble, if_neg (by omega), if_neg (by omega), if_neg (by omega), if_neg (by omega), show 20 + k - 20 = k by omega]
  simp [hk]

theorem assemble_fields (cw : CmdWord) : assemble (imm12Field cw) (rcField cw) (rbField cw) (raField cw) (opField cw) = cw := by
  apply BitVec.eq_of_getLsbD_eq; intro k hk
  rw [getLsbD_assemble]
  simp only [imm12Field, rcField, rbField, raField, opField, BitVec.getLsbD_extractLsb']
  split
  · simp [*]
  split
  · rw [show 8 + (k - 8) = k by omega]; simp; omega
  split
  · rw [show 12 + (k - 12) = k by omega]; simp; omega
  split
  · rw [show 16 + (k - 16) = k by omega]; simp; omega
  · rw [show 20 + (k - 20) = k by omega]; simp; omega

theorem assemble_and (i i' : BitVec 12) (c b a c' b' a' : BitVec 4) (o o' : BitVec 8) :
    assemble i c b a o &&& assemble i' c' b' a' o' = assemble (i &&& i') (c &&& c') (b &&& b') (a &&& a') (o &&& o') := by
  apply BitVec.eq_of_getLsbD_eq; intro k _
  simp only [BitVec.getLsbD_and, getLsbD_assemble]
  split
  · rfl
  split
  · rfl
  split
  · rfl
  split <;> rfl

theorem setWidth_op (o : BitVec 8) : o.setWidth 32 = assemble 0 0 0 0 o := by
  apply BitVec.eq_of_getLsbD_eq; intro k hk
  rw [getLsbD_assemble, BitVec.getLsbD_setWidth]
  split
  · simp [hk]
  · rw [BitVec.getLsbD_of_ge _ _ (by omega)]; simp

theorem assemble_inj {i i' : BitVec 12} {c b a c' b' a' : BitVec 4} {o o' : BitVec 8} :
    assemble i c b a o = assemble i' c' b' a' o' ↔ i = i' ∧ c = c' ∧ b = b' ∧ a = a' ∧ o = o' := by
  constructor
  · intro h
    have h1 := congrArg imm12Field h
    have h2 := congrArg rcField h
    have h3 := congrArg rbField h
    have h4 := congrArg raField h
    have h5 := congrArg opField h
    simp at h1 h2 h3 h4 h5
    exact ⟨h1, h2, h3, h4, h5⟩
  · rintro ⟨rfl, rfl, rfl, rfl, rfl⟩; rfl

/-- What a format's mask leaves of a word, field by field (R72). -/
theorem mask_eq (f : Format) : f.mask = match f with
    | .Z => assemble 0xFFF 0xF 0xF 0xF 0xFF
    | .D => assemble 0xFFF 0xF 0xF 0 0xFF
    | .DI12 => assemble 0 0xF 0xF 0 0xFF
    | .DI3 => assemble 0xFF8 0xF 0xF 0 0xFF
    | .DI1 => assemble 0xFFE 0xF 0xF 0 0xFF
    | .DS => assemble 0xFFF 0xF 0 0 0xFF
    | .S => assemble 0xFFF 0xF 0 0xF 0xFF
    | .SI12 => assemble 0 0xF 0 0xF 0xFF
    | .SI3 => assemble 0xFF8 0xF 0 0xF 0xFF
    | .SS => assemble 0xFFF 0 0 0xF 0xFF
    | .DSS => assemble 0xFFF 0 0 0 0xFF
    | .DSSR => assemble 0xFF0 0 0 0 0xFF := by
  cases f <;> rfl

/-- What a format asks of the fields it does not use (R72, R77). -/
def Format.Unused (f : Format) (i : BitVec 12) (c b a : BitVec 4) : Prop :=
  match f with
  | .Z => i = 0 ∧ c = 0 ∧ b = 0 ∧ a = 0
  | .D => i = 0 ∧ c = 0 ∧ b = 0
  | .DI12 => c = 0 ∧ b = 0
  | .DI3 => i &&& 0xFF8 = 0 ∧ c = 0 ∧ b = 0
  | .DI1 => i &&& 0xFFE = 0 ∧ c = 0 ∧ b = 0
  | .DS => i = 0 ∧ c = 0
  | .S => i = 0 ∧ c = 0 ∧ a = 0
  | .SI12 => c = 0 ∧ a = 0
  | .SI3 => i &&& 0xFF8 = 0 ∧ c = 0 ∧ a = 0
  | .SS => i = 0 ∧ a = 0
  | .DSS => i = 0
  | .DSSR => i &&& 0xFF0 = 0

theorem and_ones12 (i : BitVec 12) : i &&& 0xFFF = i := BitVec.and_allOnes

theorem and_ones4 (i : BitVec 4) : i &&& 0xF = i := BitVec.and_allOnes

theorem and_ones8 (i : BitVec 8) : i &&& 0xFF = i := BitVec.and_allOnes

theorem and_none12 (i : BitVec 12) : i &&& 0 = 0 := BitVec.and_zero

theorem and_none4 (i : BitVec 4) : i &&& 0 = 0 := BitVec.and_zero

/-- The mask test of R79 step 2 is the test that the unused fields are zero (R77). -/
theorem assemble_mask_iff (f : Format) (i : BitVec 12) (c b a : BitVec 4) (o : BitVec 8) :
    assemble i c b a o &&& f.mask = o.setWidth 32 ↔ f.Unused i c b a := by
  rw [mask_eq, setWidth_op]
  cases f <;>
    simp only [assemble_and, assemble_inj, and_ones12, and_ones4, and_ones8, and_none12, and_none4, Format.Unused, and_true, true_and]

/-! ## Immediates (R73) -/

theorem NativeType.ofCode_code (t : NativeType) : NativeType.ofCode t.code = t := by
  obtain ⟨s, w⟩ := t; cases s <;> cases w <;> decide

theorem NativeType.code_ofCode (t : BitVec 3) : (NativeType.ofCode t).code = t := by
  revert t; decide

theorem NativeType.code_field (t : NativeType) : BitVec.extractLsb' 0 3 (t.code.setWidth 12) = t.code := by
  obtain ⟨s, w⟩ := t; cases s <;> cases w <;> decide

theorem NativeType.code_unused (t : NativeType) : t.code.setWidth 12 &&& (0xFF8 : BitVec 12) = 0 := by
  obtain ⟨s, w⟩ := t; cases s <;> cases w <;> decide

theorem sign_field (g : Bool) : ((BitVec.ofBool g).setWidth 12 : BitVec 12).getLsbD 0 = g := by cases g <;> decide

theorem sign_unused (g : Bool) : ((BitVec.ofBool g).setWidth 12 : BitVec 12) &&& 0xFFE = 0 := by cases g <;> decide

theorem r4_field (r : BitVec 4) : BitVec.extractLsb' 0 4 (r.setWidth 12) = r := by revert r; decide

theorem r4_unused (r : BitVec 4) : r.setWidth 12 &&& (0xFF0 : BitVec 12) = 0 := by revert r; decide

/-- An immediate with the bits above the type code clear is that type code (R73). -/
theorem setWidth_code_field {i : BitVec 12} (h : i &&& 0xFF8 = 0) : (i.extractLsb' 0 3).setWidth 12 = i := by
  revert i; decide

theorem setWidth_sign_field {i : BitVec 12} (h : i &&& 0xFFE = 0) : (BitVec.ofBool (i.getLsbD 0)).setWidth 12 = i := by
  revert i; decide

theorem setWidth_r4_field {i : BitVec 12} (h : i &&& 0xFF0 = 0) : (i.extractLsb' 0 4).setWidth 12 = i := by
  revert i; decide

/-! ## The decoder (R79) -/

/-- What a word selects depends on its five fields alone. -/
theorem selectRow_assemble {i : BitVec 12} {c b a : BitVec 4} {o : BitVec 8} {r : Option Instr}
    (h : ∀ w : CmdWord, opField w = o → raField w = a → rbField w = b → rcField w = c → imm12Field w = i → selectRow w = r) :
    selectRow (assemble i c b a o) = r :=
  h _ (opField_assemble ..) (raField_assemble ..) (rbField_assemble ..) (rcField_assemble ..) (imm12Field_assemble ..)

/-- A word decodes to `i` when its opcode selects `i` (step 1), it passes the mask (step 2) and `i` is well-formed (step 3). -/
theorem decode_eq_ok {cw : CmdWord} {i : Instr} :
    decode cw = .ok i ↔ selectRow cw = some i ∧ cw &&& i.format.mask = (opField cw).setWidth 32 ∧ i.wellFormed = true := by
  unfold decode
  cases h : selectRow cw with
  | none => simp
  | some j =>
    simp only [Option.some.injEq]
    split
    · split
      · constructor
        · intro h; cases h; exact ⟨rfl, ‹_›, ‹_›⟩
        · rintro ⟨rfl, -, -⟩; rfl
      · constructor
        · intro h; cases h
        · rintro ⟨rfl, -, h⟩; exact absurd h ‹_›
    · constructor
      · intro h; cases h
      · rintro ⟨rfl, h, -⟩; exact absurd h ‹_›

/-- The word with these fields decodes to `r`. -/
theorem decode_assemble {i : BitVec 12} {c b a : BitVec 4} {o : BitVec 8} {r : Instr}
    (h : ∀ w : CmdWord, opField w = o → raField w = a → rbField w = b → rcField w = c → imm12Field w = i →
      selectRow w = some r)
    (hu : r.format.Unused i c b a) (hw : r.wellFormed = true) : decode (assemble i c b a o) = .ok r := by
  rw [decode_eq_ok, opField_assemble]
  exact ⟨selectRow_assemble h, (assemble_mask_iff _ _ _ _ _ _).2 hu, hw⟩

/-- The opcode of the row that a word selects is the word's opcode. -/
theorem selectRow_op {cw : CmdWord} {i : Instr} (h : selectRow cw = some i) : opField cw = i.opcode := by
  unfold selectRow at h
  dsimp only at h
  split at h <;> first | (cases h; rename_i h; exact BitVec.eq_of_toNat_eq h) | cases h

end Sys2Proof
end

