-- ==== Sys2Proof/Laws/Exec.lean ====
section
/-! SUPPORT. What one command can do, said once: it succeeds with one of six kinds of write, or it records one fault. -/

namespace Sys2Proof.Machine

/-- The ways a command can succeed: what state it leaves before the record of success. -/
inductive Wrote (i : Instr) (s : State) : State → Prop where
  | x (d : XReg) (z : Int) (hd : i.xDests = [d]) (hf : i.fDests = []) (hr : i.writesRes = false)
      (hs : i.storesBuffer = false) (fits : s.Fits z) : Wrote i s (s.setX d (BigInt.big z))
  | xx (q r : XReg) (z y : Int) (hd : i.xDests = [q, r]) (hf : i.fDests = []) (hr : i.writesRes = false)
      (hs : i.storesBuffer = false) (fz : s.Fits z) (fy : s.Fits y) :
      Wrote i s ((s.setX q (BigInt.big z)).setX r (BigInt.big y))
  | f (d : FReg) (v p : Int) (hd : i.xDests = []) (hf : i.fDests = [d]) (hr : i.writesRes = false)
      (hs : i.storesBuffer = false) (fv : s.Fits v) (fp : s.Fits p) (range : s.Inv → 0 ≤ v ∧ v < p) :
      Wrote i s (s.setF d { value := BigInt.big v, modulus := BigInt.big p })
  | res (v : Dword) (hd : i.xDests = []) (hf : i.fDests = []) (hr : i.writesRes = true)
      (hs : i.storesBuffer = false) : Wrote i s (s.setRes v)
  | out (bs : List Byte) (hd : i.xDests = []) (hf : i.fDests = []) (hr : i.writesRes = false)
      (hs : i.storesBuffer = true) (fits : bs.length ≤ s.params.tbMax) : Wrote i s (s.storeOutput bs)
  | clear (hi : i = .clrerr) : Wrote i s s.clearFirst

theorem setX_fits (s : State) (i : XReg) (u : BigInt) (z : Int) : (s.setX i u).Fits z ↔ s.Fits z := Iff.rfl

theorem emod_range {z p : Int} (h : 0 < p) : 0 ≤ emod z p ∧ emod z p < p :=
  ⟨emod_nonneg z h.ne', by have := emod_lt z h.ne'; rwa [abs_of_pos h] at this⟩

/-- A guarded write does what the plain write does, or reports that the value does not fit. -/
theorem writeShiftedLeft_cases {s t : State} {d : XReg} {z : Int} {n : Nat} (h : writeShiftedLeft s d z n = .ok t) :
    ∃ y, s.Fits y ∧ t = s.setX d (BigInt.big y) := by
  unfold writeShiftedLeft at h
  split at h
  · exact ⟨_, writeX_eq_ok.1 h⟩
  · split at h
    · cases h
    · exact ⟨_, writeX_eq_ok.1 h⟩

theorem writeView_cases {s t : State} {d : XReg} {z : Int} {n : Nat} (h : writeView s d z n = .ok t) :
    ∃ y, s.Fits y ∧ t = s.setX d (BigInt.big y) := by
  unfold writeView at h
  split at h
  · exact ⟨_, writeX_eq_ok.1 h⟩
  · split at h
    · cases h
    · exact ⟨_, writeX_eq_ok.1 h⟩

theorem writeFill_cases {s t : State} {d : XReg} {n : Nat} (h : writeFill s d n = .ok t) :
    ∃ y, s.Fits y ∧ t = s.setX d (BigInt.big y) := by
  unfold writeFill at h
  split at h
  · cases h
  · exact ⟨_, writeX_eq_ok.1 h⟩

theorem writePower_cases {s t : State} {d : XReg} {b : Int} {e : Nat} (h : writePower s d b e = .ok t) :
    ∃ y, s.Fits y ∧ t = s.setX d (BigInt.big y) := by
  unfold writePower at h
  split at h
  · exact ⟨_, writeX_eq_ok.1 h⟩
  · split at h
    · exact ⟨_, writeX_eq_ok.1 h⟩
    · split at h
      · exact ⟨_, writeX_eq_ok.1 h⟩
      · split at h
        · cases h
        · exact ⟨_, writeX_eq_ok.1 h⟩

theorem binaryX_cases {op : Int → Int → Int} {s t : State} {d a b : XReg} (h : binaryX op d a b s = .ok t) :
    ∃ y, s.Fits y ∧ t = s.setX d (BigInt.big y) := by
  unfold binaryX at h
  obtain ⟨_, -, h⟩ := bind_eq_ok.1 h
  obtain ⟨_, -, h⟩ := bind_eq_ok.1 h
  exact ⟨_, writeX_eq_ok.1 h⟩

theorem unaryX_cases {op : Int → Int} {s t : State} {d a : XReg} (h : unaryX op d a s = .ok t) :
    ∃ y, s.Fits y ∧ t = s.setX d (BigInt.big y) := by
  unfold unaryX at h
  obtain ⟨_, -, h⟩ := bind_eq_ok.1 h
  exact ⟨_, writeX_eq_ok.1 h⟩

theorem binaryF_cases {op : Int → Int → Int} {s t : State} {d a b : FReg} (h : binaryF op d a b s = .ok t) :
    ∃ v p, s.Fits v ∧ s.Fits p ∧ (s.Inv → 0 ≤ v ∧ v < p) ∧
      t = s.setF d { value := BigInt.big v, modulus := BigInt.big p } := by
  unfold binaryF at h
  obtain ⟨e, he, h⟩ := bind_eq_ok.1 h
  obtain ⟨_, -, h⟩ := bind_eq_ok.1 h
  obtain ⟨_, -, h⟩ := bind_eq_ok.1 h
  obtain ⟨⟨hv, hp⟩, rfl⟩ := writeF_eq_ok.1 h
  exact ⟨_, _, hv, hp, fun hs => emod_range (hs.modulus_pos (readF_eq_ok.1 he)), rfl⟩

/-- THE ONE CASE LEMMA OF THE COMMAND SET: a command ends with all of one kind of write and success, or with one fault's record
(R7, R222, R223). -/
theorem exec_cases (i : Instr) (s : State) :
    (∃ t, exec i s = .next t.succeed ∧ Wrote i s t) ∨ ∃ c, exec i s = .next (s.takeFault c) := by
  suffices h : ∃ r, exec i s = s.finish r ∧ ∀ t, r = .ok t → Wrote i s t by
    obtain ⟨r, hr, hw⟩ := h
    cases r with
    | ok t => exact .inl ⟨t, hr, hw t rfl⟩
    | error c => exact .inr ⟨c, hr⟩
  have mkX : ∀ {d t}, i.xDests = [d] → i.fDests = [] → i.writesRes = false → i.storesBuffer = false →
      (∃ y, s.Fits y ∧ t = s.setX d (BigInt.big y)) → Wrote i s t := by
    rintro d t hd hf hr hs ⟨y, hy, rfl⟩; exact .x d y hd hf hr hs hy
  have mkF : ∀ {d t}, i.xDests = [] → i.fDests = [d] → i.writesRes = false → i.storesBuffer = false →
      (∃ v p, s.Fits v ∧ s.Fits p ∧ (s.Inv → 0 ≤ v ∧ v < p) ∧
        t = s.setF d { value := BigInt.big v, modulus := BigInt.big p }) → Wrote i s t := by
    rintro d t hd hf hr hs ⟨v, p, fv, fp, hvp, rfl⟩; exact .f d v p hd hf hr hs fv fp hvp
  cases i
  case clrerr => exact ⟨.ok s.clearFirst, rfl, fun t h => by cases h; exact .clear rfl⟩
  all_goals refine ⟨_, rfl, fun t h => ?_⟩
  case ldn | ldm => exact mkX rfl rfl rfl rfl ⟨_, writeX_eq_ok.1 h⟩
  case add | sub | mul | and | or | xor => exact mkX rfl rfl rfl rfl (binaryX_cases h)
  case neg | not | shr | abs => exact mkX rfl rfl rfl rfl (unaryX_cases h)
  case fill => exact mkX rfl rfl rfl rfl (writeFill_cases h)
  case fadd | fsub | fmul => exact mkF rfl rfl rfl rfl (binaryF_cases h)
  case parse | parsed | mov =>
    obtain ⟨_, -, h⟩ := bind_eq_ok.1 h
    exact mkX rfl rfl rfl rfl ⟨_, writeX_eq_ok.1 h⟩
  case fgetv | fgetm =>
    obtain ⟨_, -, h⟩ := bind_eq_ok.1 h
    exact mkX rfl rfl rfl rfl ⟨_, writeX_eq_ok.1 h⟩
  case shl =>
    obtain ⟨_, -, h⟩ := bind_eq_ok.1 h
    exact mkX rfl rfl rfl rfl (writeShiftedLeft_cases h)
  case twos =>
    obtain ⟨_, -, h⟩ := bind_eq_ok.1 h
    exact mkX rfl rfl rfl rfl (writeView_cases h)
  case cmp | feq =>
    obtain ⟨_, -, h⟩ := bind_eq_ok.1 h
    obtain ⟨_, -, h⟩ := bind_eq_ok.1 h
    cases h; exact .res _ rfl rfl rfl rfl
  case bits | bit | cast | sign | bytes | digits =>
    obtain ⟨_, -, h⟩ := bind_eq_ok.1 h
    cases h; exact .res _ rfl rfl rfl rfl
  case stm =>
    obtain ⟨_, -, h⟩ := bind_eq_ok.1 h
    obtain ⟨hl, rfl⟩ := writeOutput_eq_ok.1 h
    exact .out _ rfl rfl rfl rfl hl
  case str =>
    obtain ⟨_, -, h⟩ := bind_eq_ok.1 h
    split at h
    · cases h
    · split at h
      · cases h
      · obtain ⟨hl, rfl⟩ := writeOutput_eq_ok.1 h
        exact .out _ rfl rfl rfl rfl hl
  case div | mod =>
    obtain ⟨_, -, h⟩ := bind_eq_ok.1 h
    obtain ⟨_, -, h⟩ := bind_eq_ok.1 h
    split at h
    · cases h
    · exact mkX rfl rfl rfl rfl ⟨_, writeX_eq_ok.1 h⟩
  case divmod =>
    split at h
    · cases h
    · obtain ⟨_, -, h⟩ := bind_eq_ok.1 h
      obtain ⟨_, -, h⟩ := bind_eq_ok.1 h
      split at h
      · cases h
      · obtain ⟨u, hu, h⟩ := bind_eq_ok.1 h
        obtain ⟨hq, rfl⟩ := writeX_eq_ok.1 hu
        obtain ⟨hr, rfl⟩ := writeX_eq_ok.1 h
        exact .xx _ _ _ _ rfl rfl rfl rfl hq hr
  case ilog =>
    obtain ⟨_, -, h⟩ := bind_eq_ok.1 h
    obtain ⟨_, -, h⟩ := bind_eq_ok.1 h
    split at h
    · cases h
    · split at h
      · cases h
      · exact mkX rfl rfl rfl rfl ⟨_, writeX_eq_ok.1 h⟩
  case pow =>
    obtain ⟨_, -, h⟩ := bind_eq_ok.1 h
    obtain ⟨_, -, h⟩ := bind_eq_ok.1 h
    split at h
    · cases h
    · exact mkX rfl rfl rfl rfl (writePower_cases h)
  case powm =>
    obtain ⟨_, -, h⟩ := bind_eq_ok.1 h
    obtain ⟨_, -, h⟩ := bind_eq_ok.1 h
    obtain ⟨_, -, h⟩ := bind_eq_ok.1 h
    split at h
    · cases h
    · split at h
      · cases h
      · exact mkX rfl rfl rfl rfl ⟨_, writeX_eq_ok.1 h⟩
  case fnew =>
    obtain ⟨_, -, h⟩ := bind_eq_ok.1 h
    obtain ⟨_, -, h⟩ := bind_eq_ok.1 h
    split at h
    · rename_i hr
      obtain ⟨⟨hv, hp⟩, rfl⟩ := writeF_eq_ok.1 h
      exact mkF rfl rfl rfl rfl ⟨_, _, hv, hp, fun _ => hr, rfl⟩
    · cases h
  case fsmul =>
    obtain ⟨e, he, h⟩ := bind_eq_ok.1 h
    obtain ⟨_, -, h⟩ := bind_eq_ok.1 h
    obtain ⟨⟨hv, hp⟩, rfl⟩ := writeF_eq_ok.1 h
    exact mkF rfl rfl rfl rfl ⟨_, _, hv, hp, fun hs => emod_range (hs.modulus_pos (readF_eq_ok.1 he)), rfl⟩
  case fdiv =>
    obtain ⟨e, he, h⟩ := bind_eq_ok.1 h
    obtain ⟨_, -, h⟩ := bind_eq_ok.1 h
    obtain ⟨_, -, h⟩ := bind_eq_ok.1 h
    dsimp only at h
    split at h
    · cases h
    · obtain ⟨⟨hv, hp⟩, rfl⟩ := writeF_eq_ok.1 h
      exact mkF rfl rfl rfl rfl ⟨_, _, hv, hp, fun hs => emod_range (hs.modulus_pos (readF_eq_ok.1 he)), rfl⟩
  case fpow =>
    obtain ⟨e, he, h⟩ := bind_eq_ok.1 h
    obtain ⟨_, -, h⟩ := bind_eq_ok.1 h
    dsimp only at h
    split at h
    · cases h
    · obtain ⟨⟨hv, hp⟩, rfl⟩ := writeF_eq_ok.1 h
      refine mkF rfl rfl rfl rfl ⟨_, _, hv, hp, fun hs => ?_, rfl⟩
      rw [modpow_eq]
      exact emod_range (hs.modulus_pos (readF_eq_ok.1 he))
  case fmov =>
    obtain ⟨e, he, h⟩ := bind_eq_ok.1 h
    obtain ⟨⟨hv, hp⟩, rfl⟩ := writeF_eq_ok.1 h
    exact mkF rfl rfl rfl rfl ⟨_, _, hv, hp, fun hs => (hs.storedF (readF_eq_ok.1 he)).2.2, rfl⟩

end Sys2Proof.Machine
end

