-- ==== Sys2Proof/Laws/MulDiv.lean ====
section
/-! SUPPORT. The multiplier's carry fold over the exact convolution is the product (R130, R131), and the long division gives the
Euclidean quotient and remainder (R140 to R142). -/

namespace Sys2Proof

/-! ## Multiplier (R131) -/

/-- A word sequence as a polynomial "with one coefficient per word" (R131). -/
noncomputable def wordPoly : List Byte → Polynomial Nat
  | [] => 0
  | w :: ws => Polynomial.C w.toNat + Polynomial.X * wordPoly ws

theorem wordPoly_coeff (m : List Byte) (k : Nat) : (wordPoly m).coeff k = wordAt m k := by
  induction m generalizing k with
  | nil => simp [wordPoly, wordAt]
  | cons w ws ih =>
    cases k with
    | zero => simp [wordPoly, wordAt]
    | succ k => simp [wordPoly, Polynomial.coeff_X_mul, ih, wordAt]

theorem wordPoly_eval (m : List Byte) : (wordPoly m).eval 256 = magValue m := by
  induction m with
  | nil => simp [wordPoly, magValue]
  | cons w ws ih => simp [wordPoly, magValue, ih, wordBits]

theorem wordAt_of_length_le {m : List Byte} {k : Nat} (h : m.length ≤ k) : wordAt m k = 0 := by
  simp [wordAt, List.getElem?_eq_none h]

/-- The coefficients of the product are the convolution of R131. -/
theorem convCoeff_eq (a b : List Byte) (k : Nat) : convCoeff a b k = (wordPoly a * wordPoly b).coeff k := by
  rw [Polynomial.coeff_mul, Finset.Nat.sum_antidiagonal_eq_sum_range_succ (fun i j => (wordPoly a).coeff i * (wordPoly b).coeff j)]
  simp only [wordPoly_coeff, convCoeff]
  rfl

/-- There is no coefficient at or beyond the sum of the lengths: "no wrap-around" (R131). -/
theorem convCoeff_of_le {a b : List Byte} {k : Nat} (h : a.length + b.length ≤ k) : convCoeff a b k = 0 := by
  simp only [convCoeff]
  apply List.sum_eq_zero
  simp only [List.mem_map, List.mem_range]
  rintro x ⟨i, hi, rfl⟩
  by_cases hl : a.length ≤ i
  · rw [wordAt_of_length_le hl, zero_mul]
  · rw [wordAt_of_length_le (m := b) (by omega), mul_zero]

/-- The product of two magnitudes is the value of the coefficient vector. -/
theorem sum_convCoeff (a b : List Byte) {L : Nat} (h : a.length + b.length ≤ L) :
    ∑ k ∈ Finset.range L, convCoeff a b k * 256 ^ k = magValue a * magValue b := by
  rw [← wordPoly_eval a, ← wordPoly_eval b, ← Polynomial.eval_mul]
  by_cases h0 : wordPoly a * wordPoly b = 0
  · rw [h0, Polynomial.eval_zero]
    exact Finset.sum_eq_zero fun k _ => by rw [convCoeff_eq, h0]; simp
  · rw [Polynomial.eval_eq_sum_range' (n := L)]
    · exact Finset.sum_congr rfl fun k _ => by rw [convCoeff_eq]
    · by_contra hd
      refine h0 (Polynomial.leadingCoeff_eq_zero.1 ?_)
      rw [Polynomial.leadingCoeff, ← convCoeff_eq]
      exact convCoeff_of_le (by omega)

theorem carryFold_value (cs : List Nat) (carry : Nat) :
    magValue (carryFold cs carry) = (digitsValue 256 cs + carry) % 256 ^ cs.length := by
  induction cs generalizing carry with
  | nil => simp [carryFold, magValue, Nat.mod_one]
  | cons c cs ih =>
    simp only [carryFold, magValue, wordBits, ih, digitsValue, List.length_cons, BitVec.toNat_ofNat]
    rw [pow_succ' 256, Nat.mod_mul]
    have e1 : (c + 256 * digitsValue 256 cs + carry) % 256 = (c + carry) % 2 ^ 8 % 2 ^ 8 := by omega
    have e2 : (c + 256 * digitsValue 256 cs + carry) / 256 = digitsValue 256 cs + (c + carry) / 2 ^ 8 := by omega
    rw [e1, e2, show (2 : Nat) ^ 8 = 256 from rfl]

theorem digitsValue_map_range (f : Nat → Nat) (L : Nat) :
    digitsValue 256 ((List.range L).map f) = ∑ k ∈ Finset.range L, f k * 256 ^ k := by
  induction L generalizing f with
  | zero => rfl
  | succ L ih =>
    rw [List.range_succ_eq_map, Finset.sum_range_succ']
    simp only [List.map_cons, digitsValue, List.map_map]
    rw [ih, Finset.mul_sum]
    simp only [Function.comp_apply, pow_zero, mul_one]
    rw [add_comm]
    congr 1
    exact Finset.sum_congr rfl fun k _ => by rw [pow_succ]; ring

/-- R131 step 1. -/
theorem le_fftLength (n : Nat) : n ≤ fftLength n := by
  have := lt_two_pow_bitlen (n - 1)
  unfold fftLength; omega

/-- R131: the carry fold over the exact coefficients is the product, and "the final carry is 0". -/
theorem magMul_eq (a b : List Byte) : magMul a b = magOf (magValue a * magValue b) := by
  have h : a.length + b.length ≤ fftLength (a.length + b.length) := le_fftLength _
  rw [magMul, trim_eq_magOf, carryFold_value, digitsValue_map_range, sum_convCoeff a b h, Nat.add_zero, List.length_map,
    List.length_range, Nat.mod_eq_of_lt]
  calc magValue a * magValue b < 256 ^ a.length * 256 ^ b.length :=
        Nat.mul_lt_mul'' (magValue_lt a) (magValue_lt b)
    _ = 256 ^ (a.length + b.length) := (pow_add _ _ _).symm
    _ ≤ _ := Nat.pow_le_pow_right (by decide) h

/-- R130: `smul(u, v) = big(val(u) * val(v))`. -/
theorem smul_eq (u v : BigInt) : smul u v = BigInt.big (u.val * v.val) := by
  have vu : u.val = if u.sign then -(magValue u.magnitude : Int) else magValue u.magnitude := rfl
  have vv : v.val = if v.sign then -(magValue v.magnitude : Int) else magValue v.magnitude := rfl
  simp only [smul, magMul_eq, magOf_eq_zero_iff]
  split
  · rename_i h
    refine BigInt.ext_val BigInt.zero_normalised ?_
    rw [BigInt.zero_val, vu, vv]
    rcases Nat.mul_eq_zero.1 h with h | h <;> simp [h]
  · rename_i h
    refine BigInt.ext_val (BigInt.mk_normalised fun _ => h) ?_
    rw [BigInt.mk_val, vu, vv]
    cases u.sign <;> cases v.sign <;> simp

/-! ## Divider (R140 to R142) -/

/-- R140: the binary search finds "the largest `d` in `0 .. 2^W - 1` with `d * B <= rem`". -/
theorem quotientDigit_eq {B rem : Nat} (k d : Nat) (h0 : d * B ≤ rem) (h1 : rem < (d + 2 ^ k) * B) :
    quotientDigit B rem k d = rem / B := by
  induction k generalizing d with
  | zero =>
    rw [quotientDigit]
    exact (Nat.div_eq_of_lt_le h0 (by simpa using h1)).symm
  | succ k ih =>
    rw [quotientDigit]
    split
    · rename_i h
      refine ih _ h ?_
      rw [pow_succ] at h1
      calc rem < (d + 2 ^ k * 2) * B := h1
        _ = (d + 2 ^ k + 2 ^ k) * B := by ring
    · rename_i h
      exact ih _ h0 (by omega)

/-- R140: the loop invariant `A_prefix = Q_prefix * B + rem` with `0 <= rem < B`. -/
theorem longDivLoop_spec {B : Nat} (hB : 0 < B) (ws q : List Byte) (rem : Nat) (hr : rem < B) :
    (longDivLoop B ws q rem).2 < B ∧
      magValue (longDivLoop B ws q rem).1 * B + (longDivLoop B ws q rem).2 =
        256 ^ ws.length * (magValue q * B + rem) + magValue ws.reverse := by
  induction ws generalizing q rem with
  | nil => simp [longDivLoop, hr, magValue]
  | cons w ws ih =>
    have hw : w.toNat < 256 := w.isLt
    have hd : quotientDigit B (rem * 2 ^ wordBits + w.toNat) wordBits 0 = (rem * 2 ^ wordBits + w.toNat) / B := by
      refine quotientDigit_eq _ _ (by simp) ?_
      simp only [wordBits]
      have : (rem + 1) * 256 ≤ B * 256 := Nat.mul_le_mul_right _ hr
      omega
    simp only [longDivLoop, hd]
    generalize hn : rem * 2 ^ wordBits + w.toNat = n at *
    have hm : n - n / B * B = n % B := by have := Nat.div_add_mod n B; rw [Nat.mul_comm] at this; omega
    have hlt : n / B < 256 := by
      rw [Nat.div_lt_iff_lt_mul hB]
      have : (rem + 1) * 256 ≤ B * 256 := Nat.mul_le_mul_right _ hr
      simp only [wordBits] at hn
      omega
    rw [hm]
    obtain ⟨h1, h2⟩ := ih (BitVec.ofNat 8 (n / B) :: q) (n % B) (Nat.mod_lt _ hB)
    refine ⟨h1, ?_⟩
    rw [h2]
    simp only [magValue, wordBits, BitVec.toNat_ofNat, List.reverse_cons, magValue_append, List.length_reverse, List.length_cons]
    rw [pow_succ 256]
    rw [Nat.mod_eq_of_lt (show n / B < 2 ^ 8 from hlt)]
    simp only [wordBits] at hn
    have e : (n / B + 2 ^ 8 * magValue q) * B + n % B = 256 * (magValue q * B + rem) + w.toNat := by
      have := Nat.div_add_mod n B
      calc (n / B + 2 ^ 8 * magValue q) * B + n % B = (B * (n / B) + n % B) + 256 * (magValue q * B) := by ring
        _ = 256 * (magValue q * B + rem) + w.toNat := by rw [this, ← hn]; ring
    rw [e]; ring

/-- R140: "the unique `Q`, `R` with `A = Q*B + R` and `0 <= R < B`". -/
theorem magDivmod_eq {a b : List Byte} (hb : 0 < magValue b) :
    magDivmod a b = (magOf (magValue a / magValue b), magOf (magValue a % magValue b)) := by
  obtain ⟨h1, h2⟩ := longDivLoop_spec hb a.reverse [] 0 hb
  simp only [magValue, Nat.zero_mul, Nat.add_zero, Nat.mul_zero, List.reverse_reverse, Nat.zero_add] at h2
  have hq : magValue (longDivLoop (magValue b) a.reverse [] 0).1 = magValue a / magValue b := by
    rw [← h2, Nat.mul_comm, Nat.mul_add_div hb, Nat.div_eq_of_lt h1, Nat.add_zero]
  have hr : (longDivLoop (magValue b) a.reverse [] 0).2 = magValue a % magValue b := by
    rw [← h2, Nat.mul_comm, Nat.mul_add_mod, Nat.mod_eq_of_lt h1]
  simp only [magDivmod, trim_eq_magOf, hq, hr]

/-- R142: the sign table delivers the Euclidean quotient and remainder. -/
theorem sdivmod_eq {u v : BigInt} (hv : v.Normalised) :
    sdivmod u v = if v.val = 0 then .error .divisionByZero else
      .ok (BigInt.big (ediv u.val v.val), BigInt.big (emod u.val v.val)) := by
  have vu : u.val = if u.sign then -(magValue u.magnitude : Int) else magValue u.magnitude := rfl
  have vv : v.val = if v.sign then -(magValue v.magnitude : Int) else magValue v.magnitude := rfl
  have hz : v.magnitude = [0] ↔ v.val = 0 := by
    rw [← magOf_magValue hv.1, magOf_eq_zero_iff, vv]; split <;> omega
  unfold sdivmod dm
  by_cases h0 : v.val = 0
  · simp only [if_pos (hz.2 h0), if_pos h0]
  · have hB : 0 < magValue v.magnitude := by
      rw [vv] at h0; rcases Nat.eq_zero_or_pos (magValue v.magnitude) with h | h
      · rw [h] at h0; simp at h0
      · exact h
    simp only [if_neg (mt hz.1 h0), if_neg h0, magDivmod_eq hB]
    generalize hA : magValue u.magnitude = A at *
    generalize hBB : magValue v.magnitude = B at *
    have hdm := Nat.div_add_mod A B
    have hml := Nat.mod_lt A hB
    have hdmz : ((B : Int) * ((A / B : Nat) : Int)) + ((A % B : Nat) : Int) = A := by exact_mod_cast hdm
    generalize hQ : A / B = Q at *
    generalize hR : A % B = R at *
    have habs : |v.val| = B := by rw [vv]; split <;> simp
    have pn : ∀ n : Nat, BigInt.Normalised { sign := false, magnitude := magOf n } := fun n =>
      BigInt.mk_normalised (by simp)
    have pv : ∀ n : Nat, BigInt.val { sign := false, magnitude := magOf n } = n := fun n => by simp [BigInt.mk_val]
    have sg : ∀ (g : Bool) (n : Nat),
        (if g then sneg { sign := false, magnitude := magOf n } else { sign := false, magnitude := magOf n } : BigInt) =
          BigInt.big (if g then -(n : Int) else n) := by
      intro g n
      cases g
      · exact BigInt.ext_val (pn n) (pv n)
      · simp only [if_true]; rw [sneg_eq (pn n), pv]
    have rg : ∀ n : Nat, ({ sign := false, magnitude := magOf n } : BigInt) = BigInt.big n := fun n =>
      BigInt.ext_val (pn n) (pv n)
    have fin : ∀ {q r : Int}, u.val = q * v.val + r → 0 ≤ r → r < B →
        (ediv u.val v.val = q ∧ emod u.val v.val = r) := fun h h0 h1 => ediv_emod_unique h h0 (by rw [habs]; exact h1)
    cases hsu : u.sign
    · rw [hsu] at vu
      rw [if_pos rfl, sg, rg]
      have := fin (q := if v.sign then -(Q : Int) else Q) (r := R)
        (by rw [vu, vv]; cases v.sign <;> simp <;> linarith) (by omega) (by omega)
      rw [this.1, this.2]
    · rw [hsu] at vu
      rw [if_neg (by simp)]
      have hqa : magAdd (magOf Q) [1] = magOf (Q + 1) := by
        rw [magAdd_eq (trim_magOf Q) (by rfl), magValue_magOf]; rfl
      have hRB : R ≤ B := hml.le
      have hsub : magSub v.magnitude (magOf R) = magOf (B - R) := by
        rw [magSub_eq hv.1 (trim_magOf R) (by rw [magValue_magOf]; omega), magValue_magOf, hBB]
      simp only [magOf_eq_zero_iff, hqa, hsub]
      split
      · rename_i hR0
        rw [sg, rg]
        have := fin (q := if !v.sign then -(Q : Int) else Q) (r := R)
          (by rw [vu, vv]; subst hR0; cases v.sign <;> simp at hdmz ⊢ <;> linarith) (by omega) (by omega)
        rw [this.1, this.2]
      · rename_i hR0
        rw [sg, rg]
        have := fin (q := if !v.sign then -((Q + 1 : Nat) : Int) else ((Q + 1 : Nat) : Int)) (r := ((B - R : Nat) : Int))
          (by rw [vu, vv, Nat.cast_sub hRB]; push_cast; cases v.sign <;> simp <;> linarith) (by omega) (by omega)
        rw [this.1, this.2]

/-! ## How large quotients and remainders are (R143, R144, R220) -/

theorem ediv_natAbs_le (a : Int) {b : Int} (hb : b ≠ 0) : (ediv a b).natAbs ≤ a.natAbs := by
  have h := ediv_mul_add_emod a b
  have h0 := emod_nonneg a hb
  have h1 := emod_lt a hb
  generalize ediv a b = q at *
  generalize emod a b = r at *
  rcases lt_trichotomy b 0 with hbn | hbn | hbn
  · rw [abs_of_neg hbn] at h1
    rcases lt_trichotomy q 0 with hq | hq | hq
    · have : -q ≤ a := by nlinarith
      omega
    · subst hq; simp
    · have : a ≤ -q := by nlinarith
      omega
  · exact absurd hbn hb
  · rw [abs_of_pos hbn] at h1
    rcases lt_trichotomy q 0 with hq | hq | hq
    · have : a ≤ q := by nlinarith
      omega
    · subst hq; simp
    · have : q ≤ a := by nlinarith
      omega

theorem emod_natAbs_le (a : Int) {b : Int} (hb : b ≠ 0) : (emod a b).natAbs ≤ b.natAbs := by
  have h0 := emod_nonneg a hb
  have h1 := emod_lt a hb
  rw [Int.abs_eq_natAbs] at h1
  omega

end Sys2Proof
end

