-- ==== Sys2Proof/Laws/Faults.lean ====
section
/-! SUPPORT. Which fault a command raises and when (R211 to R224): said once for the whole command set. -/

namespace Sys2Proof.Machine

/-! ## Unwritten sources come first (R219, R224) -/

theorem exec_lacks {i : Instr} {s : State} (hw : i.wellFormed = true) (h : s.LacksSource i) :
    exec i s = .next (s.takeFault .unwrittenRegister) := by
  cases i <;> simp only [State.LacksSource, Instr.xSources, Instr.fSources, List.mem_cons, List.not_mem_nil, or_false, false_and,
    exists_false, exists_eq_left, exists_eq_or_imp, false_or] at h
  case mov | bits | bit | cast | str | stm | sign | bytes | digits | shl | twos =>
    simp [exec, execMov, execBits, execBit, execCast, execStr, execStm, execSign, execBytes, execDigits, execShl, execTwos, readX,
      readXBig, Except.map, h]
  case neg | not | shr | abs => simp [exec, execNeg, execNot, execShr, execAbs, unaryX, readX, readXBig, Except.map, h]
  case fgetv | fgetm | fmov => simp [exec, execFgetv, execFgetm, execFmov, readF, h]
  case add xd a b | sub xd a b | mul xd a b | and xd a b | or xd a b | xor xd a b =>
    cases h1 : s.x[a] <;> simp_all [exec, execAdd, execSub, execMul, execAnd, execOr, execXor, binaryX, readX, readXBig, Except.map]
  case cmp a b => cases h1 : s.x[a] <;> simp_all [exec, execCmp, readXBig]
  case div xd a b | mod xd a b | fnew xd a b | ilog xd a b | pow xd a b =>
    cases h1 : s.x[a] <;> simp_all [exec, execDiv, execMod, execFnew, execIlog, execPow, readX, readXBig, Except.map]
  case divmod q r a b =>
    have hqr : q ≠ r := by simpa [Instr.wellFormed] using hw
    cases h1 : s.x[a] <;> simp_all [exec, execDivmod, readX, readXBig, Except.map]
  case powm xd a b m =>
    cases h1 : s.x[a] <;> cases h2 : s.x[b] <;> simp_all [exec, execPowm, readX, readXBig, Except.map]
  case fadd fd a b | fsub fd a b | fmul fd a b =>
    cases h1 : s.f[a] <;> simp_all [exec, execFadd, execFsub, execFmul, binaryF, readF]
  case fdiv fd a b => cases h1 : s.f[a] <;> simp_all [exec, execFdiv, readF]
  case feq a b => cases h1 : s.f[a] <;> simp_all [exec, execFeq, readF]
  case fsmul fd a b | fpow fd a b =>
    cases h1 : s.f[a] <;> simp_all [exec, execFsmul, execFpow, readF, readX, readXBig, Except.map]

/-! ## Which command raises what -/

/-- The commands that raise a fault of their own checks (R211, codes 1 to 6 and 10). -/
def ownRaisers : CmdFault → List String
  | .invalidBase => ["PARSE", "PARSED", "STR"]
  | .invalidDigit => ["PARSE", "PARSED"]
  | .divisionByZero => ["DIV", "MOD", "DIVMOD", "FDIV", "FPOW", "POWM"]
  | .outOfRange => ["FNEW"]
  | .incompatibleField => ["FADD", "FSUB", "FMUL", "FDIV"]
  | .domainError => ["ILOG", "POW", "POWM"]
  | .bufferOverflow => ["STR", "STM"]
  | .illegalCommand | .unwrittenRegister | .capacityExceeded => []

/-- What a raised fault says of the command and the state. -/
inductive Raises (i : Instr) (s : State) : CmdFault → Prop where
  | illegal (h : i.wellFormed = false) : Raises i s .illegalCommand
  | unwritten (h : s.LacksSource i) : Raises i s .unwrittenRegister
  | own (c : CmdFault) (h : i.mnemonic ∈ ownRaisers c) : Raises i s c
  | capacity (h : s.Inv → i.mayExceedCapacity = true ∧ (∀ xd type, i = .ldn xd type → s.params.maxWords < 8) ∧
      ∀ xd xa xb, i = .and xd xa xb → ∃ u v, s.x[xa] = some u ∧ s.x[xb] = some v ∧ u.val < 0 ∧ v.val < 0) :
      Raises i s .capacityExceeded

/-- The remainder of anything by `2^n` fits in `n` bits. -/
theorem ofDword_natAbs_lt (type : NativeType) (v : Dword) : (type.ofDword v).natAbs < 2 ^ 64 := by
  obtain ⟨g, w⟩ := type
  have hp : v.toNat % 2 ^ (NativeType.mk g w).bits < 2 ^ (NativeType.mk g w).bits := Nat.mod_lt _ (Nat.two_pow_pos _)
  simp only [NativeType.ofDword, signedBits]
  generalize v.toNat % 2 ^ (NativeType.mk g w).bits = p at *
  cases g <;> cases w <;> simp only [NativeType.bits] at * <;> (repeat' split) <;> simp_all <;> omega

/-- LDN's value fits in 8 words (R93, R220). -/
theorem fits_ofDword {s : State} (h : 8 ≤ s.params.maxWords) (type : NativeType) (v : Dword) : s.Fits (type.ofDword v) := by
  rw [State.fits_iff (by omega)]
  have := bitlen_le_iff.2 (ofDword_natAbs_lt type v)
  omega

theorem bitlen_mono {m n : Nat} (h : m ≤ n) : bitlen m ≤ bitlen n := bitlen_le_iff.2 (lt_of_le_of_lt h (lt_two_pow_bitlen _))

/-- R220, R211, R218, R219 in one: what a command's fault says. -/
theorem exec_raises {i : Instr} {s : State} {c : CmdFault} (h : exec i s = .next (s.takeFault c)) : Raises i s c := by
  have capT : ∀ {c : CmdFault}, c = .capacityExceeded → i.mayExceedCapacity = true → (∀ xd type, i ≠ .ldn xd type) →
      (∀ xd xa xb, i ≠ .and xd xa xb) → Raises i s c := by
    rintro c rfl h1 h2 h3
    exact .capacity fun _ => ⟨h1, fun xd ty e => absurd e (h2 xd ty), fun xd xa xb e => absurd e (h3 xd xa xb)⟩
  have capF : ∀ {c : CmdFault} {z : Int}, (¬s.Fits z ∧ c = .capacityExceeded) → (s.Inv → s.Fits z) → Raises i s c := by
    rintro c z ⟨h, rfl⟩ h'
    exact .capacity fun hs => absurd (h' hs) h
  have capFF : ∀ {c : CmdFault} {z y : Int}, (¬(s.Fits z ∧ s.Fits y) ∧ c = .capacityExceeded) → (s.Inv → s.Fits z ∧ s.Fits y) →
      Raises i s c := by
    rintro c z y ⟨h, rfl⟩ h'
    exact .capacity fun hs => absurd (h' hs) h
  have unx : ∀ {c : CmdFault} {a : XReg}, (s.x[a] = none ∧ c = .unwrittenRegister) → a ∈ i.xSources → Raises i s c := by
    rintro c a ⟨h, rfl⟩ ha; exact .unwritten (.inl ⟨a, ha, h⟩)
  have unf : ∀ {c : CmdFault} {a : FReg}, (s.f[a] = none ∧ c = .unwrittenRegister) → a ∈ i.fSources → Raises i s c := by
    rintro c a ⟨h, rfl⟩ ha; exact .unwritten (.inr ⟨a, ha, h⟩)
  cases i
  case clrerr => exact absurd (State.finish_eq_takeFault.1 (show s.finish (.ok s.clearFirst) = _ from h)) (by simp)
  all_goals replace h := State.finish_eq_takeFault.1 h
  case ldn xd type =>
    obtain ⟨hn, rfl⟩ := writeX_eq_error.1 h
    refine .capacity fun hs => ⟨rfl, fun _ _ _ => ?_, fun _ _ _ e => (by simp at e)⟩
    by_contra h8
    exact hn (fits_ofDword (by omega) _ _)
  case ldm => exact capT (writeX_eq_error.1 h).2 rfl (by simp) (by simp)
  case parse xd b =>
    rcases bind_eq_error.1 h with h | ⟨z, -, h⟩
    · unfold parseString at h
      split at h
      · cases h; exact .own _ (by simp [ownRaisers, Instr.mnemonic])
      · split at h
        · cases h
        · have acc : ∀ {b acc cs c}, accumChars b acc cs = .error c → c = .invalidDigit := by
            intro b acc cs c h
            induction cs generalizing acc with
            | nil => cases h
            | cons d ds ih =>
              unfold accumChars at h
              split at h
              · cases h; rfl
              · split at h
                · exact ih h
                · cases h; rfl
          have map : ∀ {α β : Type} {f : α → β} {x : Except CmdFault α} {c}, x.map f = .error c → x = .error c := by
            intro α β f x c h; cases x <;> simp_all [Except.map]
          split at h
          · cases h
          · split at h <;> (obtain rfl := acc (map h); exact .own _ (by simp [ownRaisers, Instr.mnemonic]))
    · exact capT (writeX_eq_error.1 h).2 rfl (by simp) (by simp)
  case parsed xd b =>
    rcases bind_eq_error.1 h with h | ⟨z, -, h⟩
    · unfold parseDigitValues at h
      split at h
      · cases h; exact .own _ (by simp [ownRaisers, Instr.mnemonic])
      · have acc : ∀ {b acc cs c}, accumDigits b acc cs = .error c → c = .invalidDigit := by
          intro b acc cs c h
          induction cs generalizing acc with
          | nil => cases h
          | cons d ds ih =>
            unfold accumDigits at h
            split at h
            · exact ih h
            · cases h; rfl
        have map : ∀ {α β : Type} {f : α → β} {x : Except CmdFault α} {c}, x.map f = .error c → x = .error c := by
          intro α β f x c h; cases x <;> simp_all [Except.map]
        obtain rfl := acc (map h); exact .own _ (by simp [ownRaisers, Instr.mnemonic])
    · exact capT (writeX_eq_error.1 h).2 rfl (by simp) (by simp)
  case mov xd a =>
    rcases bind_eq_error.1 h with h | ⟨z, hz, h⟩
    · exact unx (readX_eq_error.1 h) (by simp [Instr.xSources])
    · obtain ⟨u, hu, rfl⟩ := readX_eq_ok.1 hz
      exact capF (writeX_eq_error.1 h) fun hs => hs.fits hu
  case add xd a b | sub xd a b | mul xd a b | xor xd a b =>
    rcases bind_eq_error.1 h with h | ⟨z, hz, h⟩
    · exact unx (readX_eq_error.1 h) (by simp [Instr.xSources])
    rcases bind_eq_error.1 h with h | ⟨y, hy, h⟩
    · exact unx (readX_eq_error.1 h) (by simp [Instr.xSources])
    exact capT (writeX_eq_error.1 h).2 rfl (by simp) (by simp)
  case and xd a b =>
    rcases bind_eq_error.1 h with h | ⟨z, hz, h⟩
    · exact unx (readX_eq_error.1 h) (by simp [Instr.xSources])
    rcases bind_eq_error.1 h with h | ⟨y, hy, h⟩
    · exact unx (readX_eq_error.1 h) (by simp [Instr.xSources])
    obtain ⟨hn, rfl⟩ := writeX_eq_error.1 h
    obtain ⟨u, hu, rfl⟩ := readX_eq_ok.1 hz
    obtain ⟨v, hv, rfl⟩ := readX_eq_ok.1 hy
    refine .capacity fun hs => ⟨rfl, fun _ _ e => (by simp at e), fun _ _ _ e => ?_⟩
    cases e
    refine ⟨u, v, hu, hv, ?_⟩
    by_contra hneg
    apply hn
    rcases le_total u.val.natAbs v.val.natAbs with hle | hle
    · exact State.fits_mono (hs.fits hv) ((bitop_and_natAbs_le hneg).trans (max_le hle le_rfl))
    · exact State.fits_mono (hs.fits hu) ((bitop_and_natAbs_le hneg).trans (max_le le_rfl hle))
  case or xd a b =>
    rcases bind_eq_error.1 h with h | ⟨z, hz, h⟩
    · exact unx (readX_eq_error.1 h) (by simp [Instr.xSources])
    rcases bind_eq_error.1 h with h | ⟨y, hy, h⟩
    · exact unx (readX_eq_error.1 h) (by simp [Instr.xSources])
    obtain ⟨u, hu, rfl⟩ := readX_eq_ok.1 hz
    obtain ⟨v, hv, rfl⟩ := readX_eq_ok.1 hy
    refine capF (writeX_eq_error.1 h) fun hs => ?_
    have h1 := hs.fits hu
    have h2 := hs.fits hv
    rw [State.fits_iff hs.params.1] at *
    exact (bitop_or_bitlen_le _ _).trans (max_le h1 h2)
  case neg xd a | abs xd a =>
    rcases bind_eq_error.1 h with h | ⟨z, hz, h⟩
    · exact unx (readX_eq_error.1 h) (by simp [Instr.xSources])
    obtain ⟨u, hu, rfl⟩ := readX_eq_ok.1 hz
    exact capF (writeX_eq_error.1 h) fun hs => State.fits_mono (hs.fits hu) (by simp)
  case shr xd a =>
    rcases bind_eq_error.1 h with h | ⟨z, hz, h⟩
    · exact unx (readX_eq_error.1 h) (by simp [Instr.xSources])
    obtain ⟨u, hu, rfl⟩ := readX_eq_ok.1 hz
    refine capF (writeX_eq_error.1 h) fun hs => State.fits_mono (hs.fits hu) ?_
    show (shiftedRight _ _).natAbs ≤ _
    rw [shiftedRight_eq]; exact ediv_two_pow_natAbs_le _ _
  case not xd a =>
    rcases bind_eq_error.1 h with h | ⟨z, hz, h⟩
    · exact unx (readX_eq_error.1 h) (by simp [Instr.xSources])
    exact capT (writeX_eq_error.1 h).2 rfl (by simp) (by simp)
  case shl xd a =>
    rcases bind_eq_error.1 h with h | ⟨z, hz, h⟩
    · exact unx (readX_eq_error.1 h) (by simp [Instr.xSources])
    refine capT ?_ rfl (by simp) (by simp)
    unfold writeShiftedLeft at h
    split at h
    · exact (writeX_eq_error.1 h).2
    · split at h
      · cases h; rfl
      · exact (writeX_eq_error.1 h).2
  case twos xd a =>
    rcases bind_eq_error.1 h with h | ⟨z, hz, h⟩
    · exact unx (readX_eq_error.1 h) (by simp [Instr.xSources])
    refine capT ?_ rfl (by simp) (by simp)
    unfold writeView at h
    split at h
    · exact (writeX_eq_error.1 h).2
    · split at h
      · cases h; rfl
      · exact (writeX_eq_error.1 h).2
  case fill xd =>
    refine capT ?_ rfl (by simp) (by simp)
    unfold writeFill at h
    split at h
    · cases h; rfl
    · exact (writeX_eq_error.1 h).2
  case cmp a b =>
    rcases bind_eq_error.1 h with h | ⟨z, hz, h⟩
    · exact unx (readXBig_eq_error.1 h) (by simp [Instr.xSources])
    rcases bind_eq_error.1 h with h | ⟨y, hy, h⟩
    · exact unx (readXBig_eq_error.1 h) (by simp [Instr.xSources])
    cases h
  case feq a b =>
    rcases bind_eq_error.1 h with h | ⟨z, hz, h⟩
    · exact unf (readF_eq_error.1 h) (by simp [Instr.fSources])
    rcases bind_eq_error.1 h with h | ⟨y, hy, h⟩
    · exact unf (readF_eq_error.1 h) (by simp [Instr.fSources])
    cases h
  case bits a | bytes a | digits a =>
    rcases bind_eq_error.1 h with h | ⟨z, hz, h⟩
    · exact unx (readXBig_eq_error.1 h) (by simp [Instr.xSources])
    cases h
  case bit a | cast a _ | sign a =>
    rcases bind_eq_error.1 h with h | ⟨z, hz, h⟩
    · exact unx (readX_eq_error.1 h) (by simp [Instr.xSources])
    cases h
  case stm a =>
    rcases bind_eq_error.1 h with h | ⟨z, hz, h⟩
    · exact unx (readXBig_eq_error.1 h) (by simp [Instr.xSources])
    obtain ⟨-, rfl⟩ := writeOutput_eq_error.1 h
    exact .own _ (by simp [ownRaisers, Instr.mnemonic])
  case str a b =>
    rcases bind_eq_error.1 h with h | ⟨z, hz, h⟩
    · exact unx (readX_eq_error.1 h) (by simp [Instr.xSources])
    split at h
    · cases h; exact .own _ (by simp [ownRaisers, Instr.mnemonic])
    · split at h
      · cases h; exact .own _ (by simp [ownRaisers, Instr.mnemonic])
      · obtain ⟨-, rfl⟩ := writeOutput_eq_error.1 h
        exact .own _ (by simp [ownRaisers, Instr.mnemonic])
  case div xd a b =>
    rcases bind_eq_error.1 h with h | ⟨z, hz, h⟩
    · exact unx (readX_eq_error.1 h) (by simp [Instr.xSources])
    rcases bind_eq_error.1 h with h | ⟨y, hy, h⟩
    · exact unx (readX_eq_error.1 h) (by simp [Instr.xSources])
    split at h
    · cases h; exact .own _ (by simp [ownRaisers, Instr.mnemonic])
    · rename_i h0
      obtain ⟨u, hu, rfl⟩ := readX_eq_ok.1 hz
      exact capF (writeX_eq_error.1 h) fun hs => State.fits_mono (hs.fits hu) (ediv_natAbs_le _ h0)
  case mod xd a b =>
    rcases bind_eq_error.1 h with h | ⟨z, hz, h⟩
    · exact unx (readX_eq_error.1 h) (by simp [Instr.xSources])
    rcases bind_eq_error.1 h with h | ⟨y, hy, h⟩
    · exact unx (readX_eq_error.1 h) (by simp [Instr.xSources])
    split at h
    · cases h; exact .own _ (by simp [ownRaisers, Instr.mnemonic])
    · rename_i h0
      obtain ⟨u, hu, rfl⟩ := readX_eq_ok.1 hy
      exact capF (writeX_eq_error.1 h) fun hs => State.fits_mono (hs.fits hu) (emod_natAbs_le _ h0)
  case divmod q r a b =>
    split at h
    · rename_i hqr; cases h; exact .illegal (by simp [Instr.wellFormed, hqr])
    rcases bind_eq_error.1 h with h | ⟨z, hz, h⟩
    · exact unx (readX_eq_error.1 h) (by simp [Instr.xSources])
    rcases bind_eq_error.1 h with h | ⟨y, hy, h⟩
    · exact unx (readX_eq_error.1 h) (by simp [Instr.xSources])
    split at h
    · cases h; exact .own _ (by simp [ownRaisers, Instr.mnemonic])
    · rename_i h0
      obtain ⟨u, hu, rfl⟩ := readX_eq_ok.1 hz
      obtain ⟨v, hv, rfl⟩ := readX_eq_ok.1 hy
      rcases bind_eq_error.1 h with h | ⟨t, ht, h⟩
      · exact capF (writeX_eq_error.1 h) fun hs => State.fits_mono (hs.fits hu) (ediv_natAbs_le _ h0)
      · obtain ⟨-, rfl⟩ := writeX_eq_ok.1 ht
        have h := writeX_eq_error.1 h
        rw [setX_fits] at h
        exact capF h fun hs => State.fits_mono (hs.fits hv) (emod_natAbs_le _ h0)
  case fnew xd a b =>
    rcases bind_eq_error.1 h with h | ⟨z, hz, h⟩
    · exact unx (readX_eq_error.1 h) (by simp [Instr.xSources])
    rcases bind_eq_error.1 h with h | ⟨y, hy, h⟩
    · exact unx (readX_eq_error.1 h) (by simp [Instr.xSources])
    split at h
    · obtain ⟨u, hu, rfl⟩ := readX_eq_ok.1 hz
      obtain ⟨v, hv, rfl⟩ := readX_eq_ok.1 hy
      exact capFF (writeF_eq_error.1 h) fun hs => ⟨hs.fits hu, hs.fits hv⟩
    · cases h; exact .own _ (by simp [ownRaisers, Instr.mnemonic])
  case fadd fd a b | fsub fd a b | fmul fd a b =>
    rcases bind_eq_error.1 h with h | ⟨e, he, h⟩
    · exact unf (readF_eq_error.1 h) (by simp [Instr.fSources])
    rcases bind_eq_error.1 h with h | ⟨g, hg, h⟩
    · exact unf (readF_eq_error.1 h) (by simp [Instr.fSources])
    rcases bind_eq_error.1 h with h | ⟨_, -, h⟩
    · unfold compat at h
      split at h
      · cases h
      · cases h; exact .own _ (by simp [ownRaisers, Instr.mnemonic])
    · refine capFF (writeF_eq_error.1 h) fun hs => ⟨?_, hs.fits_modulus (readF_eq_ok.1 he)⟩
      have hp := hs.modulus_pos (readF_eq_ok.1 he)
      exact State.fits_of_le (hs.fits_modulus (readF_eq_ok.1 he)) (emod_range hp).1 (emod_range hp).2.le
  case fsmul fd a b =>
    rcases bind_eq_error.1 h with h | ⟨e, he, h⟩
    · exact unf (readF_eq_error.1 h) (by simp [Instr.fSources])
    rcases bind_eq_error.1 h with h | ⟨g, hg, h⟩
    · exact unx (readX_eq_error.1 h) (by simp [Instr.xSources])
    refine capFF (writeF_eq_error.1 h) fun hs => ⟨?_, hs.fits_modulus (readF_eq_ok.1 he)⟩
    have hp := hs.modulus_pos (readF_eq_ok.1 he)
    exact State.fits_of_le (hs.fits_modulus (readF_eq_ok.1 he)) (emod_range hp).1 (emod_range hp).2.le
  case fdiv fd a b =>
    rcases bind_eq_error.1 h with h | ⟨e, he, h⟩
    · exact unf (readF_eq_error.1 h) (by simp [Instr.fSources])
    rcases bind_eq_error.1 h with h | ⟨g, hg, h⟩
    · exact unf (readF_eq_error.1 h) (by simp [Instr.fSources])
    rcases bind_eq_error.1 h with h | ⟨_, -, h⟩
    · unfold compat at h
      split at h
      · cases h
      · cases h; exact .own _ (by simp [ownRaisers, Instr.mnemonic])
    · dsimp only at h
      split at h
      · cases h; exact .own _ (by simp [ownRaisers, Instr.mnemonic])
      · refine capFF (writeF_eq_error.1 h) fun hs => ⟨?_, hs.fits_modulus (readF_eq_ok.1 he)⟩
        have hp := hs.modulus_pos (readF_eq_ok.1 he)
        exact State.fits_of_le (hs.fits_modulus (readF_eq_ok.1 he)) (emod_range hp).1 (emod_range hp).2.le
  case fpow fd a b =>
    rcases bind_eq_error.1 h with h | ⟨e, he, h⟩
    · exact unf (readF_eq_error.1 h) (by simp [Instr.fSources])
    rcases bind_eq_error.1 h with h | ⟨g, hg, h⟩
    · exact unx (readX_eq_error.1 h) (by simp [Instr.xSources])
    dsimp only at h
    split at h
    · cases h; exact .own _ (by simp [ownRaisers, Instr.mnemonic])
    · refine capFF (writeF_eq_error.1 h) fun hs => ⟨?_, hs.fits_modulus (readF_eq_ok.1 he)⟩
      have hp := hs.modulus_pos (readF_eq_ok.1 he)
      rw [modpow_eq]
      exact State.fits_of_le (hs.fits_modulus (readF_eq_ok.1 he)) (emod_range hp).1 (emod_range hp).2.le
  case fgetv xd a =>
    rcases bind_eq_error.1 h with h | ⟨e, he, h⟩
    · exact unf (readF_eq_error.1 h) (by simp [Instr.fSources])
    exact capF (writeX_eq_error.1 h) fun hs => hs.fits_value (readF_eq_ok.1 he)
  case fgetm xd a =>
    rcases bind_eq_error.1 h with h | ⟨e, he, h⟩
    · exact unf (readF_eq_error.1 h) (by simp [Instr.fSources])
    exact capF (writeX_eq_error.1 h) fun hs => hs.fits_modulus (readF_eq_ok.1 he)
  case fmov fd a =>
    rcases bind_eq_error.1 h with h | ⟨e, he, h⟩
    · exact unf (readF_eq_error.1 h) (by simp [Instr.fSources])
    exact capFF (writeF_eq_error.1 h) fun hs => ⟨hs.fits_value (readF_eq_ok.1 he), hs.fits_modulus (readF_eq_ok.1 he)⟩
  case ilog xd a b =>
    rcases bind_eq_error.1 h with h | ⟨z, hz, h⟩
    · exact unx (readX_eq_error.1 h) (by simp [Instr.xSources])
    rcases bind_eq_error.1 h with h | ⟨y, hy, h⟩
    · exact unx (readX_eq_error.1 h) (by simp [Instr.xSources])
    split at h
    · cases h; exact .own _ (by simp [ownRaisers, Instr.mnemonic])
    · split at h
      · cases h; exact .own _ (by simp [ownRaisers, Instr.mnemonic])
      · obtain ⟨u, hu, rfl⟩ := readX_eq_ok.1 hz
        refine capF (writeX_eq_error.1 h) fun hs => State.fits_mono (hs.fits hu) ?_
        have h1 := floorLog_lt_bitlen (b := y.toNat) (v := u.val.toNat) (by omega) (by omega)
        have h2 := (lt_bitlen_iff.1 h1)
        have h3 := Nat.lt_two_pow_self (n := floorLog y.toNat u.val.toNat)
        omega
  case pow xd a b =>
    rcases bind_eq_error.1 h with h | ⟨z, hz, h⟩
    · exact unx (readX_eq_error.1 h) (by simp [Instr.xSources])
    rcases bind_eq_error.1 h with h | ⟨y, hy, h⟩
    · exact unx (readX_eq_error.1 h) (by simp [Instr.xSources])
    split at h
    · cases h; exact .own _ (by simp [ownRaisers, Instr.mnemonic])
    · refine capT ?_ rfl (by simp) (by simp)
      unfold writePower at h
      split at h
      · exact (writeX_eq_error.1 h).2
      · split at h
        · exact (writeX_eq_error.1 h).2
        · split at h
          · exact (writeX_eq_error.1 h).2
          · split at h
            · cases h; rfl
            · exact (writeX_eq_error.1 h).2
  case powm xd a b m =>
    rcases bind_eq_error.1 h with h | ⟨z, hz, h⟩
    · exact unx (readX_eq_error.1 h) (by simp [Instr.xSources])
    rcases bind_eq_error.1 h with h | ⟨y, hy, h⟩
    · exact unx (readX_eq_error.1 h) (by simp [Instr.xSources])
    rcases bind_eq_error.1 h with h | ⟨w, hw, h⟩
    · exact unx (readX_eq_error.1 h) (by simp [Instr.xSources])
    split at h
    · cases h; exact .own _ (by simp [ownRaisers, Instr.mnemonic])
    · rename_i h0
      split at h
      · cases h; exact .own _ (by simp [ownRaisers, Instr.mnemonic])
      · obtain ⟨u, hu, rfl⟩ := readX_eq_ok.1 hw
        refine capF (writeX_eq_error.1 h) fun hs => State.fits_mono (hs.fits hu) ?_
        rw [modpow_eq]; exact emod_natAbs_le _ h0

end Sys2Proof.Machine
end

