-- ==== Sys2Proof/Laws/Inv.lean ====
section
/-! SUPPORT. Which single updates keep the invariant of the command boundary: one lemma per update. -/

namespace Sys2Proof.Machine

theorem getElem_set16 {α : Type} (v : Vector α 16) (i j : Fin 16) (a : α) : (v.set i a)[j] = if i = j then a else v[j] := by
  simp [Vector.getElem_set, Fin.ext_iff]

theorem State.Inv.setX {s : State} (h : s.Inv) (i : XReg) {u : BigInt} (hu : u.Stored s.params) : (s.setX i u).Inv := by
  refine ⟨h.params, fun j v hv => ?_, h.f, h.err, h.efirst, h.latch, h.tlen, h.tb, h.tbRange⟩
  rw [State.setX_x, getElem_set16] at hv
  split at hv
  · cases hv; exact hu
  · exact h.x j v hv

theorem State.Inv.setF {s : State} (h : s.Inv) (i : FReg) {e : FieldElement} (he : e.Stored s.params) : (s.setF i e).Inv := by
  refine ⟨h.params, h.x, fun j g hg => ?_, h.err, h.efirst, h.latch, h.tlen, h.tb, h.tbRange⟩
  rw [State.setF_f, getElem_set16] at hg
  split at hg
  · cases hg; exact he
  · exact h.f j g hg

theorem State.Inv.setRes {s : State} (h : s.Inv) (v : Dword) : (s.setRes v).Inv :=
  ⟨h.params, h.x, h.f, h.err, h.efirst, h.latch, h.tlen, h.tb, h.tbRange⟩

theorem State.Inv.storeOutput {s : State} (h : s.Inv) {bs : List Byte} (hl : bs.length ≤ s.params.tbMax) :
    (s.storeOutput bs).Inv := by
  refine ⟨h.params, h.x, h.f, h.err, h.efirst, h.latch, ?_, Memory.wf_writeBytes h.tb 0 bs, fun c hc => ?_⟩
  · show (BitVec.ofNat 64 bs.length).toNat ≤ s.params.tbMax
    rw [BitVec.toNat_ofNat]
    exact (Nat.mod_le _ _).trans hl
  · rcases Memory.mem_writeBytes hc with h1 | h1
    · show c.1 < s.params.tbMax; omega
    · exact h.tbRange c h1

/-- CLRERR's update and the record of success together (R230): cleared on its own, EFIRST would be 0 beside an old ERR. -/
theorem State.Inv.clearFirst {s : State} (h : s.Inv) : s.clearFirst.succeed.Inv :=
  ⟨h.params, h.x, h.f, Nat.zero_le _, Nat.zero_le _, fun _ => rfl, h.tlen, h.tb, h.tbRange⟩

theorem State.Inv.succeed {s : State} (h : s.Inv) : s.succeed.Inv :=
  ⟨h.params, h.x, h.f, Nat.zero_le _, h.efirst, fun _ => rfl, h.tlen, h.tb, h.tbRange⟩

theorem State.Inv.takeFault {s : State} (h : s.Inv) (c : CmdFault) : (s.takeFault c).Inv := by
  refine ⟨h.params, h.x, h.f, c.code_le, ?_, ?_, h.tlen, h.tb, h.tbRange⟩
  · show (if s.efirst = 0 then c.code else s.efirst).toNat ≤ 10
    split
    · exact c.code_le
    · exact h.efirst
  · show (if s.efirst = 0 then c.code else s.efirst) = 0 → c.code = 0
    split
    · exact id
    · intro h'; contradiction

end Sys2Proof.Machine
end

