-- ==== Sys2Proof/Laws/PerInstr.lean ====
section
/-! SUPPORT. Statements about every command as syntax, one lemma per constructor. -/

/-- The encoder writes the opcode and leaves every field the format does not use zero (R72, R75, R77). -/
def Sys2Proof.Laws.EncodingRow.Statement (i : Sys2Proof.Instr) : Prop :=
  Sys2Proof.encode i &&& i.format.mask = i.opcode.setWidth 32

namespace Sys2Proof.Laws

theorem encodingRow_of {i : Instr} (h : i.format.Unused i.imm12 i.rc i.rb i.ra) : EncodingRow.Statement i :=
  (assemble_mask_iff _ _ _ _ _ _).2 h

theorem EncodingRow.ldn (xd : XReg) (type : NativeType) : EncodingRow.Statement (.ldn xd type) :=
  encodingRow_of ⟨NativeType.code_unused _, rfl, rfl⟩

theorem EncodingRow.parse (xd : XReg) (base : Fin 4096) : EncodingRow.Statement (.parse xd base) :=
  encodingRow_of ⟨rfl, rfl⟩

theorem EncodingRow.parsed (xd : XReg) (base : Fin 4096) : EncodingRow.Statement (.parsed xd base) :=
  encodingRow_of ⟨rfl, rfl⟩

theorem EncodingRow.ldm (xd : XReg) (negative : Bool) : EncodingRow.Statement (.ldm xd negative) :=
  encodingRow_of ⟨sign_unused _, rfl, rfl⟩

theorem EncodingRow.mov (xd xs : XReg) : EncodingRow.Statement (.mov xd xs) :=
  encodingRow_of ⟨rfl, rfl⟩

theorem EncodingRow.cmp (xa xb : XReg) : EncodingRow.Statement (.cmp xa xb) :=
  encodingRow_of ⟨rfl, rfl⟩

theorem EncodingRow.add (xd xa xb : XReg) : EncodingRow.Statement (.add xd xa xb) :=
  encodingRow_of rfl

theorem EncodingRow.sub (xd xa xb : XReg) : EncodingRow.Statement (.sub xd xa xb) :=
  encodingRow_of rfl

theorem EncodingRow.neg (xd xs : XReg) : EncodingRow.Statement (.neg xd xs) :=
  encodingRow_of ⟨rfl, rfl⟩

theorem EncodingRow.mul (xd xa xb : XReg) : EncodingRow.Statement (.mul xd xa xb) :=
  encodingRow_of rfl

theorem EncodingRow.div (xd xa xb : XReg) : EncodingRow.Statement (.div xd xa xb) :=
  encodingRow_of rfl

theorem EncodingRow.mod (xd xa xb : XReg) : EncodingRow.Statement (.mod xd xa xb) :=
  encodingRow_of rfl

theorem EncodingRow.divmod (xq xr xa xb : XReg) : EncodingRow.Statement (.divmod xq xr xa xb) :=
  encodingRow_of (r4_unused _)

theorem EncodingRow.and (xd xa xb : XReg) : EncodingRow.Statement (.and xd xa xb) :=
  encodingRow_of rfl

theorem EncodingRow.or (xd xa xb : XReg) : EncodingRow.Statement (.or xd xa xb) :=
  encodingRow_of rfl

theorem EncodingRow.xor (xd xa xb : XReg) : EncodingRow.Statement (.xor xd xa xb) :=
  encodingRow_of rfl

theorem EncodingRow.not (xd xs : XReg) : EncodingRow.Statement (.not xd xs) :=
  encodingRow_of ⟨rfl, rfl⟩

theorem EncodingRow.shl (xd xs : XReg) : EncodingRow.Statement (.shl xd xs) :=
  encodingRow_of ⟨rfl, rfl⟩

theorem EncodingRow.shr (xd xs : XReg) : EncodingRow.Statement (.shr xd xs) :=
  encodingRow_of ⟨rfl, rfl⟩

theorem EncodingRow.twos (xd xs : XReg) : EncodingRow.Statement (.twos xd xs) :=
  encodingRow_of ⟨rfl, rfl⟩

theorem EncodingRow.fill (xd : XReg) : EncodingRow.Statement (.fill xd) :=
  encodingRow_of ⟨rfl, rfl, rfl⟩

theorem EncodingRow.bits (xs : XReg) : EncodingRow.Statement (.bits xs) :=
  encodingRow_of ⟨rfl, rfl, rfl⟩

theorem EncodingRow.bit (xs : XReg) : EncodingRow.Statement (.bit xs) :=
  encodingRow_of ⟨rfl, rfl, rfl⟩

theorem EncodingRow.cast (xs : XReg) (type : NativeType) : EncodingRow.Statement (.cast xs type) :=
  encodingRow_of ⟨NativeType.code_unused _, rfl, rfl⟩

theorem EncodingRow.str (xs : XReg) (base : Fin 4096) : EncodingRow.Statement (.str xs base) :=
  encodingRow_of ⟨rfl, rfl⟩

theorem EncodingRow.stm (xs : XReg) : EncodingRow.Statement (.stm xs) :=
  encodingRow_of ⟨rfl, rfl, rfl⟩

theorem EncodingRow.sign (xs : XReg) : EncodingRow.Statement (.sign xs) :=
  encodingRow_of ⟨rfl, rfl, rfl⟩

theorem EncodingRow.bytes (xs : XReg) : EncodingRow.Statement (.bytes xs) :=
  encodingRow_of ⟨rfl, rfl, rfl⟩

theorem EncodingRow.digits (xs : XReg) : EncodingRow.Statement (.digits xs) :=
  encodingRow_of ⟨rfl, rfl, rfl⟩

theorem EncodingRow.fnew (fd : FReg) (xa xb : XReg) : EncodingRow.Statement (.fnew fd xa xb) :=
  encodingRow_of rfl

theorem EncodingRow.fadd (fd fa fb : FReg) : EncodingRow.Statement (.fadd fd fa fb) :=
  encodingRow_of rfl

theorem EncodingRow.fsub (fd fa fb : FReg) : EncodingRow.Statement (.fsub fd fa fb) :=
  encodingRow_of rfl

theorem EncodingRow.fmul (fd fa fb : FReg) : EncodingRow.Statement (.fmul fd fa fb) :=
  encodingRow_of rfl

theorem EncodingRow.fsmul (fd fa : FReg) (xb : XReg) : EncodingRow.Statement (.fsmul fd fa xb) :=
  encodingRow_of rfl

theorem EncodingRow.fdiv (fd fa fb : FReg) : EncodingRow.Statement (.fdiv fd fa fb) :=
  encodingRow_of rfl

theorem EncodingRow.fpow (fd fa : FReg) (xb : XReg) : EncodingRow.Statement (.fpow fd fa xb) :=
  encodingRow_of rfl

theorem EncodingRow.feq (fa fb : FReg) : EncodingRow.Statement (.feq fa fb) :=
  encodingRow_of ⟨rfl, rfl⟩

theorem EncodingRow.fgetv (xd : XReg) (fa : FReg) : EncodingRow.Statement (.fgetv xd fa) :=
  encodingRow_of ⟨rfl, rfl⟩

theorem EncodingRow.fgetm (xd : XReg) (fa : FReg) : EncodingRow.Statement (.fgetm xd fa) :=
  encodingRow_of ⟨rfl, rfl⟩

theorem EncodingRow.fmov (fd fa : FReg) : EncodingRow.Statement (.fmov fd fa) :=
  encodingRow_of ⟨rfl, rfl⟩

theorem EncodingRow.abs (xd xs : XReg) : EncodingRow.Statement (.abs xd xs) :=
  encodingRow_of ⟨rfl, rfl⟩

theorem EncodingRow.ilog (xd xa xb : XReg) : EncodingRow.Statement (.ilog xd xa xb) :=
  encodingRow_of rfl

theorem EncodingRow.pow (xd xa xb : XReg) : EncodingRow.Statement (.pow xd xa xb) :=
  encodingRow_of rfl

theorem EncodingRow.powm (xd xa xb xm : XReg) : EncodingRow.Statement (.powm xd xa xb xm) :=
  encodingRow_of (r4_unused _)

theorem EncodingRow.clrerr : EncodingRow.Statement (.clrerr) :=
  encodingRow_of ⟨rfl, rfl, rfl, rfl⟩

end Sys2Proof.Laws
end

