-- ==== Sys2Proof/Laws/Text.lean ====
section
/-! SUPPORT. The radix converter (R91 to R95, R171 to R174): what the accumulation computes, and that it reads back what STR writes. -/

namespace Sys2Proof

theorem digitsValue_append (b : Nat) (xs ys : List Nat) :
    digitsValue b (xs ++ ys) = digitsValue b xs + b ^ xs.length * digitsValue b ys := by
  induction xs with
  | nil => simp [digitsValue]
  | cons x xs ih => simp only [List.cons_append, digitsValue, ih, List.length_cons, pow_succ]; ring

theorem digitsValue_replicate_zero (b k : Nat) : digitsValue b (List.replicate k 0) = 0 := by
  induction k with
  | zero => rfl
  | succ k ih => simp [List.replicate_succ, digitsValue, ih]

/-! ## Accumulation (R92, R95) -/

/-- A legal digit character of base `b` (R92). -/
abbrev LegalDigit (b : Nat) (c : Byte) : Prop := ∃ d, digitval c = some d ∧ d < b

theorem accumChars_ok {b : Nat} (acc : Nat) {cs : List Byte} (h : ∀ c ∈ cs, LegalDigit b c) :
    accumChars b acc cs = .ok (acc * b ^ cs.length + digitsValue b (cs.reverse.map fun c => (digitval c).getD 0)) := by
  induction cs generalizing acc with
  | nil => simp [accumChars, digitsValue]
  | cons c cs ih =>
    obtain ⟨d, hd, hlt⟩ := h c (by simp)
    simp only [accumChars, hd, if_pos hlt, ih _ fun c hc => h c (by simp [hc]), List.reverse_cons, List.map_append,
      List.map_cons, List.map_nil, Option.getD_some, digitsValue_append, digitsValue, List.length_cons, List.length_map,
      List.length_reverse, pow_succ]
    congr 1; ring

theorem accumChars_error {b : Nat} (acc : Nat) {cs : List Byte} (h : ∃ c ∈ cs, ¬LegalDigit b c) :
    accumChars b acc cs = .error .invalidDigit := by
  induction cs generalizing acc with
  | nil => simp at h
  | cons c cs ih =>
    unfold accumChars
    cases hd : digitval c with
    | none => rfl
    | some d =>
      simp only
      split
      · rename_i hlt
        refine ih _ ?_
        obtain ⟨e, he, hn⟩ := h
        rcases List.mem_cons.1 he with rfl | he
        · exact absurd ⟨d, hd, hlt⟩ hn
        · exact ⟨e, he, hn⟩
      · rfl

theorem accumDigits_ok {b : Nat} (acc : Nat) {ss : List Byte} (h : ∀ c ∈ ss, c.toNat < b) :
    accumDigits b acc ss = .ok (acc * b ^ ss.length + digitsValue b (ss.reverse.map BitVec.toNat)) := by
  induction ss generalizing acc with
  | nil => simp [accumDigits, digitsValue]
  | cons c cs ih =>
    simp only [accumDigits, if_pos (h c (by simp)), ih _ fun c hc => h c (by simp [hc]), List.reverse_cons, List.map_append,
      List.map_cons, List.map_nil, digitsValue_append, digitsValue, List.length_cons, List.length_map, List.length_reverse,
      pow_succ]
    congr 1; ring

theorem accumDigits_error {b : Nat} (acc : Nat) {ss : List Byte} (h : ∃ c ∈ ss, ¬c.toNat < b) :
    accumDigits b acc ss = .error .invalidDigit := by
  induction ss generalizing acc with
  | nil => simp at h
  | cons c cs ih =>
    unfold accumDigits
    split
    · rename_i hlt
      refine ih _ ?_
      obtain ⟨e, he, hn⟩ := h
      rcases List.mem_cons.1 he with rfl | he
      · exact absurd hlt hn
      · exact ⟨e, he, hn⟩
    · rfl

/-- The value of a magnitude is the value of its words as digits (R53, R55). -/
theorem magValue_eq_digitsValue (m : List Byte) : magValue m = digitsValue 256 (m.map BitVec.toNat) := by
  induction m with
  | nil => rfl
  | cons w ws ih => simp [magValue, digitsValue, ih, wordBits]

/-! ## The alphabet (R91) -/

theorem digitval_digitchar {d : Nat} (h : d < 16) : digitval (digitchar d) = some d := by
  have : ∀ d : Fin 16, digitval (digitchar d) = some d.val := by decide
  exact this ⟨d, h⟩

theorem digitval_minus : digitval minusByte = none := by decide

/-- "`digitchar(d)` .. always lower case" (R91): the inverse of the alphabet. -/
theorem legalDigit_digitchar {b d : Nat} (h : d < b) (hb : b ≤ 16) : LegalDigit b (digitchar d) :=
  ⟨d, digitval_digitchar (by omega), h⟩

/-! ## Rendering (R171) -/

/-- The digits that `render` prints, most significant first. -/
def renderDigits (a b : Nat) : List Nat := if a = 0 then [0] else (digitsOf b a).reverse

theorem render_eq (a b : Nat) : render a b = (renderDigits a b).map (digitByte b) := rfl

theorem renderDigits_lt {a b : Nat} (hb : 2 ≤ b) : ∀ d ∈ renderDigits a b, d < b := by
  unfold renderDigits
  split
  · simp; omega
  · simpa using digitsOf_lt hb a

theorem renderDigits_value {a b : Nat} (hb : 2 ≤ b) : digitsValue b (renderDigits a b).reverse = a := by
  unfold renderDigits
  split
  · simp [digitsValue, *]
  · rw [List.reverse_reverse, digitsOf_value hb]

theorem renderDigits_ne_nil (a b : Nat) : renderDigits a b ≠ [] := by
  unfold renderDigits
  split
  · simp
  · simpa [digitsOf_eq_nil_iff] using ‹¬a = 0›

/-- The printed digits with their padding. -/
def paddedDigits (a b minLength : Nat) : List Nat :=
  List.replicate (minLength - (render a b).length) 0 ++ renderDigits a b

theorem strBytes_eq (z : Int) (b k : Nat) :
    strBytes z b k = (if hasMarker z b then [minusByte] else []) ++ (paddedDigits z.natAbs b k).map (digitByte b) := by
  simp only [strBytes, paddedDigits, List.map_append, List.map_replicate, render_eq, List.append_assoc]

theorem paddedDigits_lt {a b k : Nat} (hb : 2 ≤ b) : ∀ d ∈ paddedDigits a b k, d < b := by
  intro d hd
  rcases List.mem_append.1 hd with hd | hd
  · have := (List.mem_replicate.1 hd).2; omega
  · exact renderDigits_lt hb d hd

theorem paddedDigits_value {a b k : Nat} (hb : 2 ≤ b) : digitsValue b (paddedDigits a b k).reverse = a := by
  rw [paddedDigits, List.reverse_append, digitsValue_append, renderDigits_value hb, List.reverse_replicate,
    digitsValue_replicate_zero, Nat.mul_zero, Nat.add_zero]

/-- R172, R221: the length is known before any byte is made. -/
theorem strBytes_length (z : Int) (b k : Nat) : (strBytes z b k).length = strLength z b k := by
  simp only [strBytes, strLength]
  split <;> simp <;> omega

theorem render_pos (a b : Nat) : 0 < (render a b).length := by
  rw [render_eq, List.length_map]; exact List.length_pos_of_ne_nil (renderDigits_ne_nil a b)

/-! ## Reading back what STR wrote (R174) -/

theorem accumChars_digits {b : Nat} {ds : List Nat} (hb : b ≤ 16) (h : ∀ d ∈ ds, d < b) :
    accumChars b 0 (ds.map digitchar) = .ok (digitsValue b ds.reverse) := by
  rw [accumChars_ok]
  · rw [Nat.zero_mul, Nat.zero_add, ← List.map_reverse, List.map_map]
    congr 2
    conv_rhs => rw [← List.map_id ds.reverse]
    refine List.map_congr_left fun d hd => ?_
    have := h d (by simpa using hd)
    simp only [Function.comp_apply, digitval_digitchar (show d < 16 by omega), Option.getD_some, id]
  · intro c hc
    obtain ⟨d, hd, rfl⟩ := List.mem_map.1 hc
    exact legalDigit_digitchar (h d hd) hb

theorem digitchar_ne_minus {d : Nat} (h : d < 16) : digitchar d ≠ minusByte := fun e => by
  have := digitval_digitchar h; rw [e, digitval_minus] at this; cases this

/-- In the bases 2 to 16 PARSE reads STR's output back, sign and padding included (R174). -/
theorem parseString_strBytes (z : Int) {b : Nat} (k : Nat) (h2 : 2 ≤ b) (h16 : b ≤ 16) :
    parseString b (strBytes z b k) = .ok z := by
  have hd : digitByte b = digitchar := by funext d; simp [digitByte, show b ≠ 256 by omega]
  have hacc := accumChars_digits h16 (paddedDigits_lt (a := z.natAbs) (k := k) h2)
  rw [paddedDigits_value h2] at hacc
  rw [strBytes_eq, hd]
  unfold parseString
  rw [if_neg (by simp; omega), if_neg (by omega)]
  by_cases hm : hasMarker z b
  · rw [if_pos hm]
    simp only [List.singleton_append, if_pos, hacc, Except.map]
    have := hm.1
    exact congrArg Except.ok (by omega)
  · have hz : 0 ≤ z := by by_contra h; exact hm ⟨by omega, h16⟩
    rw [if_neg hm, List.nil_append]
    have hne : paddedDigits z.natAbs b k ≠ [] := by simp [paddedDigits, renderDigits_ne_nil]
    obtain ⟨d, ds, hds⟩ := List.exists_cons_of_ne_nil hne
    have hlt := paddedDigits_lt (a := z.natAbs) (k := k) h2 d (by rw [hds]; simp)
    rw [hds] at hacc ⊢
    simp only [List.map_cons, if_neg (digitchar_ne_minus (show d < 16 by omega))] at hacc ⊢
    rw [hacc]
    exact congrArg Except.ok (show (z.natAbs : Int) = z by omega)

/-- In base 256 PARSE reads the magnitude back, without a sign (R174). -/
theorem parseString_strBytes_256 (z : Int) (k : Nat) : parseString 256 (strBytes z 256 k) = .ok (z.natAbs : Int) := by
  rw [strBytes_eq]
  unfold parseString
  rw [if_neg (by simp), if_pos rfl, if_neg (by simp), List.nil_append, bigEndianValue, magValue_eq_digitsValue, ← List.map_reverse,
    List.map_map]
  have e : (paddedDigits z.natAbs 256 k).reverse.map (BitVec.toNat ∘ digitByte 256) = (paddedDigits z.natAbs 256 k).reverse := by
    conv_rhs => rw [← List.map_id (paddedDigits z.natAbs 256 k).reverse]
    refine List.map_congr_left fun d hd => ?_
    have := paddedDigits_lt (a := z.natAbs) (b := 256) (k := k) (by decide) d (by simpa using hd)
    simp only [Function.comp_apply, digitByte, if_pos, BitVec.toNat_ofNat, id]
    omega
  rw [e, paddedDigits_value (by decide)]

end Sys2Proof
end

