-- ==== Sys2Proof/Tests/Slice0.lean ====
section
/-! SUPPORT. Tests. Expected results come from the examples under the rules of the spec and from its files 95 to 97; words are written
out from R71 to R75. The last part gives, for each statement with hypotheses, states and operands that meet them. -/

namespace Sys2Proof.Tests

open Sys2Proof.Machine

/-! ## Well-formedness -/

theorem test_wellFormed_refuses_divmod_with_one_destination : (Instr.divmod 3 3 1 2).wellFormed = false := by decide

theorem test_wellFormed_accepts_divmod_over_its_sources : (Instr.divmod 1 2 1 2).wellFormed = true := by decide

/-! ## Decoding: every constructor by a word of its row -/

theorem test_decode_construction :
    decode 0x00700101 = .ok (.ldn 1 ⟨true, .w64⟩) ∧ decode 0x00100201 = .ok (.ldn 2 ⟨false, .w16⟩) ∧
    decode 0x01000102 = .ok (.parse 1 16) ∧ decode 0xFFF00102 = .ok (.parse 1 4095) ∧
    decode 0x00A00103 = .ok (.parsed 1 10) ∧ decode 0x00100104 = .ok (.ldm 1 true) ∧ decode 0x00000104 = .ok (.ldm 1 false) ∧
    decode 0x00002505 = .ok (.mov 5 2) := by decide

theorem test_decode_comparison_and_adder :
    decode 0x00021010 = .ok (.cmp 1 2) ∧ decode 0x00021320 = .ok (.add 3 1 2) ∧ decode 0x00021321 = .ok (.sub 3 1 2) ∧
    decode 0x00001222 = .ok (.neg 2 1) := by decide

theorem test_decode_multiplier_and_divider :
    decode 0x00021330 = .ok (.mul 3 1 2) ∧ decode 0x00021340 = .ok (.div 3 1 2) ∧ decode 0x00021341 = .ok (.mod 3 1 2) ∧
    decode 0x00B91A42 = .ok (.divmod 10 11 1 9) := by decide

theorem test_decode_bitwise :
    decode 0x00021350 = .ok (.and 3 1 2) ∧ decode 0x00021351 = .ok (.or 3 1 2) ∧ decode 0x00021352 = .ok (.xor 3 1 2) ∧
    decode 0x00001253 = .ok (.not 2 1) ∧ decode 0x00001254 = .ok (.shl 2 1) ∧ decode 0x00001C55 = .ok (.shr 12 1) ∧
    decode 0x00001256 = .ok (.twos 2 1) ∧ decode 0x00000157 = .ok (.fill 1) ∧ decode 0x00001058 = .ok (.bits 1) ∧
    decode 0x00001059 = .ok (.bit 1) := by decide

theorem test_decode_conversion :
    decode 0x00601060 = .ok (.cast 1 ⟨true, .w32⟩) ∧ decode 0x10001061 = .ok (.str 1 256) ∧ decode 0x00001062 = .ok (.stm 1) ∧
    decode 0x00001063 = .ok (.sign 1) ∧ decode 0x00001064 = .ok (.bytes 1) ∧ decode 0x00001065 = .ok (.digits 1) := by decide

theorem test_decode_field :
    decode 0x00033570 = .ok (.fnew 5 3 3) ∧ decode 0x00021371 = .ok (.fadd 3 1 2) ∧ decode 0x00021472 = .ok (.fsub 4 1 2) ∧
    decode 0x00021373 = .ok (.fmul 3 1 2) ∧ decode 0x00011274 = .ok (.fsmul 2 1 1) ∧ decode 0x00011375 = .ok (.fdiv 3 1 1) ∧
    decode 0x00031276 = .ok (.fpow 2 1 3) ∧ decode 0x00032077 = .ok (.feq 2 3) ∧ decode 0x00003678 = .ok (.fgetv 6 3) ∧
    decode 0x00003679 = .ok (.fgetm 6 3) ∧ decode 0x0000147A = .ok (.fmov 4 1) := by decide

theorem test_decode_helpers_and_system :
    decode 0x00001280 = .ok (.abs 2 1) ∧ decode 0x00021381 = .ok (.ilog 3 1 2) ∧ decode 0x00021382 = .ok (.pow 3 1 2) ∧
    decode 0x00321483 = .ok (.powm 4 1 2 3) ∧ decode 0x000000F0 = .ok .clrerr := by decide

theorem test_decode_rejects_reserved_opcodes :
    decode 0x00000000 = .error (.reservedOpcode 0x00) ∧ decode 0xFFFFFFFF = .error (.reservedOpcode 0xFF) ∧
    decode 0x00021311 = .error (.reservedOpcode 0x11) ∧ decode 0x00021384 = .error (.reservedOpcode 0x84) := by decide

theorem test_decode_rejects_nonzero_unused_fields :
    decode 0x00121320 = .error (.nonzeroUnusedField 0x20) ∧ decode 0x80021320 = .error (.nonzeroUnusedField 0x20) ∧
    decode 0x000001F0 = .error (.nonzeroUnusedField 0xF0) ∧ decode 0x00800101 = .error (.nonzeroUnusedField 0x01) ∧
    decode 0x00200104 = .error (.nonzeroUnusedField 0x04) ∧ decode 0x01421342 = .error (.nonzeroUnusedField 0x42) ∧
    decode 0x00021110 = .error (.nonzeroUnusedField 0x10) ∧ decode 0x00A11061 = .error (.nonzeroUnusedField 0x61) := by decide

theorem test_decode_rejects_divmod_with_one_destination : decode 0x00321342 = .error .divmodSameDestination := by decide

theorem test_decodeTableWord : decodeTableWord 32 0x00421342 = some (.divmod 3 4 1 2) ∧ decodeTableWord 32 0x00000006 = none := by
  decide

/-! ## The assembler's text (R80, R81) -/

theorem test_assembler_text :
    (Instr.ldn 2 ⟨true, .w64⟩).text = "LDN x2, s64" ∧ (Instr.parse 1 16).text = "PARSE x1, 16" ∧
    (Instr.ldm 1 true).text = "LDM x1, neg" ∧ (Instr.divmod 3 4 1 2).text = "DIVMOD x3, x4, x1, x2" ∧
    (Instr.fpow 2 1 3).text = "FPOW f2, f1, x3" ∧ Instr.clrerr.text = "CLRERR" ∧
    (Instr.add 1 1 2).inPlace = some (.add 1 1 2) ∧ (Pseudo.relation .le 1 2).expand = .cmp 1 2 := by decide

/-! ## Datapath traces (95_test_vectors.md section 2) -/

theorem test_mag_add : magAdd [0xFF, 0xFF, 0xFF] [0x01] = [0, 0, 0, 1] ∧ magAdd [0x80, 0xFF] [0x80, 0x01] = [0, 1, 1] := by decide

theorem test_mag_sub : magSub [0, 0, 1] [0xFF, 0xFF] = [1] ∧ magSub [0x34, 0x12] [0x78, 0x01] = [0xBC, 0x10] := by decide

theorem test_mag_cmp : magCmp [0, 1] [0xFF] = .gt ∧ magCmp [0xFF, 1] [0xFF, 2] = .lt := by decide

theorem test_mag_mul :
    magMul [0xFF, 0xFF] [0xFF, 0xFF] = [0x01, 0x00, 0xFE, 0xFF] ∧ magMul [0x34, 0x12] [0x78, 0x56] = [0x60, 0, 0x26, 0x06] := by
  decide

theorem test_mag_divmod : magDivmod [0x45, 0x23, 0x01] [0x10, 0x01] = ([0x12, 0x01], [0x25]) := by decide

theorem test_bitop : bitop Nat.xor (-1) 255 = -256 ∧ bitop Nat.land (-128) (-129) = -256 ∧ bitop Nat.lor (-8) 7 = -1 := by decide

/-! ## A small state -/

/-- A unit with `MAXWORDS = 2` and `TB_MAX = 8`, ARG 1 and the buffer holding `-fF` (`2D 66 46`). -/
def unit : State := { State.resetWith ⟨2, 8⟩ with arg := 1, tb := [(0, 0x2D), (1, 0x66), (2, 0x46)], tlen := 3 }

/-- The field element `(v, p)`. -/
def element (v p : Int) : FieldElement := { value := BigInt.big v, modulus := BigInt.big p }

/-- `unit` with some registers written; `x15` and `f15` are not. -/
def demo : State :=
  ((((((((((((((unit.setX 0 (BigInt.big 0)).setX 1 (BigInt.big (-7))).setX 2 (BigInt.big 2)).setX 3 (BigInt.big 13)).setX 4
    (BigInt.big 16)).setX 5 (BigInt.big 65535)).setX 6 (BigInt.big (-256))).setX 7 (BigInt.big 1)).setX 8 (BigInt.big 9)).setF 1
    (element 7 13)).setF 2 (element 9 13)).setF 3 (element 3 17)).setF 4 (element 0 13)).setF 5 (element 0 1))

/-- `demo` with another ARG. -/
def demoArg (v : Dword) : State := { demo with arg := v }

/-- `demo` with another buffer. -/
def demoBuffer (bs : List Byte) : State := demo.storeOutput bs

/-- What a command leaves in an integer register, if it succeeds. -/
def xAfter (i : Instr) (s : State) (d : XReg) : Option Int :=
  match exec i s with
  | .next t => if t.err = 0 then t.x[d].map BigInt.val else none
  | _ => none

/-- What a command leaves in a field register, if it succeeds. -/
def fAfter (i : Instr) (s : State) (d : FReg) : Option (Int × Int) :=
  match exec i s with
  | .next t => if t.err = 0 then t.f[d].map fun e => (e.value.val, e.modulus.val) else none
  | _ => none

/-- ERR and RES after a command. -/
def errRes (i : Instr) (s : State) : Option (Nat × Nat) :=
  match exec i s with
  | .next t => some (t.err.toNat, t.res.toNat)
  | _ => none

/-- TLEN and the valid bytes after a command that succeeds. -/
def bufferAfter (i : Instr) (s : State) : Option (List Byte) :=
  match exec i s with
  | .next t => if t.err = 0 then some t.content else none
  | _ => none

/-! ## One step of each instruction (the examples under the rules; 95 to 97) -/

theorem test_ldn : xAfter (.ldn 1 ⟨true, .w8⟩) (demoArg 0xFFFFFFFFFFFFFF01) 1 = some 1 ∧
    xAfter (.ldn 1 ⟨true, .w16⟩) (demoArg 0xFFFFFFFFFFFFFF01) 1 = some (-255) ∧
    xAfter (.ldn 1 ⟨false, .w16⟩) (demoArg 0xFFFFFFFFFFFFFF01) 1 = some 65281 := by decide

theorem test_parse : xAfter (.parse 1 16) demo 1 = some (-255) ∧ xAfter (.parse 1 256) demo 1 = none ∧
    errRes (.parse 1 1) demo = some (1, 0) ∧ errRes (.parse 1 10) demo = some (2, 0) := by decide

theorem test_parsed : xAfter (.parsed 1 10) (demoBuffer [1, 2, 3]) 1 = some 123 ∧
    errRes (.parsed 1 3) (demoBuffer [1, 2, 3]) = some (2, 0) := by decide

theorem test_ldm : xAfter (.ldm 1 true) (demoBuffer [0x01, 0xFF, 0x00]) 1 = some (-65281) ∧
    xAfter (.ldm 1 true) (demoBuffer [0, 0]) 1 = some 0 := by decide

theorem test_mov : xAfter (.mov 5 1) demo 5 = some (-7) ∧ errRes (.mov 5 15) demo = some (8, 0) := by decide

theorem test_cmp : errRes (.cmp 6 1) demo = some (0, 2 ^ 64 - 1) ∧ errRes (.cmp 2 1) demo = some (0, 1) := by decide

theorem test_add : xAfter (.add 9 1 8) demo 9 = some 2 ∧ errRes (.add 5 5 7) demo = some (9, 0) := by decide

theorem test_sub : xAfter (.sub 3 2 8) demo 3 = some (-7) := by decide

theorem test_neg : xAfter (.neg 2 1) demo 2 = some 7 ∧ xAfter (.neg 2 0) demo 2 = some 0 := by decide

theorem test_mul : xAfter (.mul 3 1 2) demo 3 = some (-14) ∧ errRes (.mul 3 6 6) demo = some (9, 0) := by decide

theorem test_div : xAfter (.div 3 1 2) demo 3 = some (-4) ∧ errRes (.div 3 1 0) demo = some (3, 0) := by decide

theorem test_mod : xAfter (.mod 3 1 3) demo 3 = some 6 := by decide

theorem test_divmod : xAfter (.divmod 1 2 1 2) demo 1 = some (-4) ∧ xAfter (.divmod 1 2 1 2) demo 2 = some 1 := by decide

theorem test_and : xAfter (.and 3 1 4) demo 3 = some 16 ∧ xAfter (.and 3 6 1) demo 3 = some (-256) := by decide

theorem test_or : xAfter (.or 3 1 2) demo 3 = some (-5) := by decide

theorem test_xor : xAfter (.xor 3 1 2) demo 3 = some (-5) ∧ xAfter (.xor 3 1 1) demo 3 = some 0 := by decide

theorem test_not : xAfter (.not 2 1) demo 2 = some 6 ∧ xAfter (.not 2 0) demo 2 = some (-1) := by decide

theorem test_shl : xAfter (.shl 2 1) (demoArg 3) 2 = some (-56) ∧ errRes (.shl 2 7) (demoArg 0xFFFFFFFFFFFFFFFF) = some (9, 0) := by
  decide

theorem test_shr : xAfter (.shr 2 1) demo 2 = some (-4) ∧ xAfter (.shr 2 1) (demoArg 0xFFFFFFFFFFFFFFFF) 2 = some (-1) := by decide

theorem test_twos : xAfter (.twos 2 1) (demoArg 16) 2 = some 65529 ∧ errRes (.twos 2 1) (demoArg 17) = some (9, 0) := by decide

theorem test_fill : xAfter (.fill 1) (demoArg 12) 1 = some 4095 ∧ xAfter (.fill 1) (demoArg 0) 1 = some 0 := by decide

theorem test_bits : errRes (.bits 6) demo = some (0, 9) := by decide

theorem test_bit : errRes (.bit 6) (demoArg 8) = some (0, 1) ∧ errRes (.bit 6) (demoArg 9) = some (0, 0) := by decide

theorem test_cast : errRes (.cast 1 ⟨false, .w8⟩) demo = some (0, 249) ∧
    errRes (.cast 1 ⟨true, .w8⟩) demo = some (0, 2 ^ 64 - 7) := by decide

theorem test_str : bufferAfter (.str 1 10) (demoArg 3) = some [0x2D, 0x30, 0x30, 0x37] ∧
    errRes (.str 1 17) (demoArg 9) = some (1, 0) ∧ errRes (.str 1 10) (demoArg 8) = some (10, 0) := by decide

theorem test_stm : bufferAfter (.stm 6) demo = some [0x00, 0x01] := by decide

theorem test_sign : errRes (.sign 1) demo = some (0, 1) ∧ errRes (.sign 0) demo = some (0, 0) := by decide

theorem test_bytes : errRes (.bytes 6) demo = some (0, 2) := by decide

theorem test_digits : errRes (.digits 0) demo = some (0, 1) := by decide

theorem test_fnew : fAfter (.fnew 6 2 3) demo 6 = some (2, 13) ∧ errRes (.fnew 6 3 3) demo = some (4, 0) := by decide

theorem test_fadd : fAfter (.fadd 6 1 2) demo 6 = some (3, 13) ∧ errRes (.fadd 6 1 3) demo = some (5, 0) := by decide

theorem test_fsub : fAfter (.fsub 6 1 2) demo 6 = some (11, 13) := by decide

theorem test_fmul : fAfter (.fmul 6 1 2) demo 6 = some (11, 13) := by decide

theorem test_fsmul : fAfter (.fsmul 6 1 1) demo 6 = some (3, 13) := by decide

theorem test_fdiv : fAfter (.fdiv 6 1 2) demo 6 = some (8, 13) ∧ errRes (.fdiv 6 3 4) demo = some (5, 0) ∧
    errRes (.fdiv 6 1 4) demo = some (3, 0) := by decide

theorem test_fpow : fAfter (.fpow 6 3 4) demo 6 = some (1, 17) ∧ errRes (.fpow 6 5 4) demo = some (3, 0) := by decide

theorem test_feq : errRes (.feq 1 1) demo = some (0, 1) ∧ errRes (.feq 1 2) demo = some (0, 0) := by decide

theorem test_fgetv_fgetm : xAfter (.fgetv 5 1) demo 5 = some 7 ∧ xAfter (.fgetm 5 1) demo 5 = some 13 := by decide

theorem test_fmov : fAfter (.fmov 6 1) demo 6 = some (7, 13) := by decide

theorem test_abs : xAfter (.abs 2 6) demo 2 = some 256 := by decide

theorem test_ilog : xAfter (.ilog 3 5 2) demo 3 = some 15 ∧ errRes (.ilog 3 5 7) demo = some (6, 0) := by decide

theorem test_pow : xAfter (.pow 3 2 8) demo 3 = some 512 ∧ xAfter (.pow 3 0 0) demo 3 = some 1 ∧
    errRes (.pow 3 2 1) demo = some (6, 0) ∧ errRes (.pow 3 2 5) demo = some (9, 0) := by decide

theorem test_powm : xAfter (.powm 9 2 4 3) demo 9 = some 3 ∧ errRes (.powm 9 2 1 0) demo = some (3, 0) ∧
    errRes (.powm 9 2 1 3) demo = some (6, 0) := by decide

theorem test_clrerr : errRes .clrerr { demo with err := 3, efirst := 3 } = some (0, 0) := by decide

/-! ## The fault record and the first steps after reset (95_test_vectors.md section 4.3) -/

/-- ERR and EFIRST after one step. -/
def errFirst (s : State) : Option (Nat × Nat) :=
  match step s with
  | .next t => some (t.err.toNat, t.efirst.toNat)
  | _ => none

theorem test_first_fault_is_latched : errFirst (State.reset.withFetchWord 32 0x00000000) = some (7, 7) := by decide

theorem test_later_fault_keeps_the_first :
    errFirst ({ State.reset with err := 7, efirst := 7 }.withFetchWord 32 0x00032120) = some (8, 7) := by decide

theorem test_load_as_first_command : errFirst (State.reset.withFetchWord 32 0x00000101) = some (0, 0) := by decide

theorem test_clrerr_as_first_command : errFirst (State.reset.withFetchWord 32 0x000000F0) = some (0, 0) := by decide

/-! ## Witnesses: states and operands that meet the hypotheses of the statements, each clause at a boundary of its range -/

theorem unit_inv : unit.Inv := by
  refine ⟨by decide, fun i u hu => ?_, fun i e he => ?_, by decide, by decide, by decide, by decide, by decide, by decide⟩
  · rw [show unit.x[i] = none from by simp [unit, State.resetWith]] at hu; cases hu
  · rw [show unit.f[i] = none from by simp [unit, State.resetWith]] at he; cases he

/-- A unit whose buffer has one byte, with `x6 = -256`. -/
def tiny : State := (State.resetWith ⟨2, 1⟩).setX 6 ⟨true, [0, 1]⟩

theorem tiny_inv : tiny.Inv := by
  refine State.Inv.setX ⟨by decide, fun i u hu => ?_, fun i e he => ?_, by decide, by decide, by decide, by decide, by decide,
    by decide⟩ 6 (by decide)
  · rw [show (State.resetWith ⟨2, 1⟩).x[i] = none from by simp [State.resetWith]] at hu; cases hu
  · rw [show (State.resetWith ⟨2, 1⟩).f[i] = none from by simp [State.resetWith]] at he; cases he

theorem demo_inv : demo.Inv :=
  (((((((((((((unit_inv.setX 0 (by decide)).setX 1 (by decide)).setX 2 (by decide)).setX 3 (by decide)).setX 4 (by decide)).setX 5
    (by decide)).setX 6 (by decide)).setX 7 (by decide)).setX 8 (by decide)).setF 1 (by decide)).setF 2 (by decide)).setF 3
    (by decide)).setF 4 (by decide)).setF 5 (by decide)

theorem demoArg_inv (v : Dword) : (demoArg v).Inv :=
  ⟨demo_inv.params, demo_inv.x, demo_inv.f, demo_inv.err, demo_inv.efirst, demo_inv.latch, demo_inv.tlen, demo_inv.tb, demo_inv.tbRange⟩

theorem demoBuffer_inv {bs : List Byte} (h : bs.length ≤ 8) : (demoBuffer bs).Inv := demo_inv.storeOutput h

/-- Some word that a row selects. -/
theorem test_clrerr_selected : ∃ row, Spec.Selects 0x000000F0 row :=
  ⟨(0xF0, 0xFFFFFFFF, fun _ => .clrerr), by simp [Spec.opcodeMap, Spec.rowsC], by decide, by decide⟩

/-- Some word that no row selects. -/
theorem test_zero_not_selected : ¬∃ row, Spec.Selects 0x00000000 row := by
  rintro ⟨row, hr, hm, -⟩
  simp only [Spec.opcodeMap, Spec.rowsA, Spec.rowsB, Spec.rowsC, List.cons_append, List.nil_append, List.mem_cons,
    List.not_mem_nil, or_false] at hr
  rcases hr with rfl | hr
  · exact absurd hm (by decide)
  repeat' (rcases hr with rfl | hr; · exact absurd hm (by decide))

theorem test_witness_DecodeIsTheOpcodeMap : ∃ row, Spec.Selects 0x000000F0 row ∧ Spec.Selects 0x000000F0 row :=
  test_clrerr_selected.elim fun row h => ⟨row, h, h⟩

theorem test_witness_DecodeReadsBackEncode :
    (Instr.divmod 15 14 15 15).wellFormed = true ∧ (Instr.parse 15 4095).wellFormed = true := by decide

theorem test_witness_EncodeReadsBackDecode : decode 0x00EFFF42 = .ok (.divmod 15 14 15 15) := by decide

theorem test_witness_IllegalWordsRaiseIllegalCommand :
    { demo with host := [.issue 0] }.host = .issue 0 :: [] ∧ (¬∃ row, Spec.Selects 0x00000000 row) ∧
    { demo with host := [.issue 0xF0] }.host = .issue 0xF0 :: [] ∧ ∃ row, Spec.Selects 0x000000F0 row :=
  ⟨rfl, test_zero_not_selected, rfl, test_clrerr_selected⟩

theorem test_witness_StepRunsTheDecodedCommand :
    decode 0x00021320 = .ok (.add 3 1 2) ∧ { demo with host := [.issue 0x00021320] }.host = .issue 0x00021320 :: [] := by decide

theorem test_witness_HostTransactionsChangeOnlyWhatTheyAddress :
    demo.host = [] ∧ { demo with host := [.readCsr (4 : Fin 5)] }.host = .readCsr (4 : Fin 5) :: [] ∧
    { demo with host := [.readCsr (0 : Fin 5)] }.host = .readCsr (0 : Fin 5) :: [] ∧
    { demo with host := [.writeCsr 0 5] }.host = .writeCsr 0 5 :: [] ∧
    (8 : Dword).toNat ≤ demo.params.tbMax ∧ { demo with host := [.writeCsr 4 8] }.host = .writeCsr 4 8 :: [] ∧
    7 < demo.params.tbMax ∧ { demo with host := [.readTb 7] }.host = .readTb 7 :: [] ∧
    { demo with host := [.writeTb 7 1] }.host = .writeTb 7 1 :: [] := by decide

theorem test_witness_HostProtocolViolationsAreRefused :
    { demo with host := [.readCsr 5] }.host = .readCsr 5 :: [] ∧ { demo with host := [.writeCsr 5 0] }.host = .writeCsr 5 0 :: [] ∧
    { demo with host := [.writeCsr 1 0] }.host = .writeCsr 1 0 :: [] ∧ { demo with host := [.writeCsr 3 0] }.host = .writeCsr 3 0 :: [] ∧
    demo.params.tbMax < (9 : Dword).toNat ∧ { demo with host := [.writeCsr 4 9] }.host = .writeCsr 4 9 :: [] ∧
    demo.params.tbMax ≤ 8 ∧ { demo with host := [.readTb 8] }.host = .readTb 8 :: [] ∧
    { demo with host := [.writeTb 8 0] }.host = .writeTb 8 0 :: [] := by decide

theorem test_witness_UnwrittenSourcesAreFoundFirst :
    (Instr.add 3 1 15).wellFormed = true ∧ demo.LacksSource (.add 3 1 15) ∧ demo.LacksSource (.feq 1 15) ∧
    ¬demo.LacksSource (.add 3 1 2) := by decide

/-- For every code but 7 a well-formed command and a state in which it raises that code. -/
theorem test_witness_FaultCodesAndTheirCommands :
    errRes (.str 1 17) demo = some (1, 0) ∧ errRes (.parse 1 15) demo = some (2, 0) ∧ errRes (.mod 1 1 0) demo = some (3, 0) ∧
    errRes (.fnew 1 3 3) demo = some (4, 0) ∧ errRes (.fmul 1 1 3) demo = some (5, 0) ∧ errRes (.ilog 1 0 2) demo = some (6, 0) ∧
    errRes (.mov 1 15) demo = some (8, 0) ∧ errRes (.add 5 5 7) demo = some (9, 0) ∧ errRes (.str 1 2) (demoArg 8) = some (10, 0) := by
  decide

theorem test_witness_CapacityExceededOnlyWhereAdmitted :
    (demoArg 65536).Inv ∧ errRes (.ldn 1 ⟨false, .w32⟩) (demoArg 65536) = some (9, 0) ∧
    ((demo.setX 5 (BigInt.big (-65535))).setX 9 (BigInt.big (-2))).Inv ∧
    errRes (.and 1 5 9) ((demo.setX 5 (BigInt.big (-65535))).setX 9 (BigInt.big (-2))) = some (9, 0) :=
  ⟨demoArg_inv _, by decide, (demo_inv.setX 5 (by decide)).setX 9 (by decide), by decide⟩

theorem test_witness_ReissuingAFaultingWordFaultsAgain : ∃ t, issueCommand 0x00001140 demo = .next t ∧ t.err ≠ 0 :=
  ⟨demo.takeFault .divisionByZero, rfl, by decide⟩

/-- Two states that differ in what the commands do not read. -/
theorem test_witness_CommandsDependOnlyOnTheirOperands :
    demo.Inv ∧ (demo.setRes 5).Inv ∧ demo.params = (demo.setRes 5).params ∧
    (∀ r ∈ (Instr.divmod 1 2 1 2).xSources, demo.x[r] = (demo.setRes 5).x[r]) ∧
    (∀ r ∈ (Instr.fadd 1 1 2).fSources, demo.f[r] = (demo.setRes 5).f[r]) ∧ (Instr.str 1 10).readsArg = true ∧
    demo.arg = (demo.setRes 5).arg ∧ (Instr.parse 1 16).loadsBuffer = true ∧ Spec.buffer demo = Spec.buffer (demo.setRes 5) ∧
    demo ≠ demo.setRes 5 ∧ errRes (.parse 1 16) demo = some (0, 0) :=
  ⟨demo_inv, demo_inv.setRes 5, rfl, fun _ _ => rfl, fun _ _ => rfl, rfl, rfl, rfl, rfl, by decide, by decide⟩

theorem test_witness_BigIntCommandsIgnoreTheFieldLayer :
    (Instr.add 3 1 2).isField = false ∧ ∃ t, exec (.add 3 1 2) demo = .next t := ⟨rfl, _, rfl⟩

theorem test_witness_CommandsChangeOnlyTheirDestinations :
    (∃ t, exec (.divmod 3 4 1 2) demo = .next t) ∧ (5 : XReg) ∉ (Instr.divmod 3 4 1 2).xDests ∧
    (1 : FReg) ∉ (Instr.divmod 3 4 1 2).fDests ∧ (Instr.divmod 3 4 1 2).writesRes = false ∧
    (Instr.divmod 3 4 1 2).storesBuffer = false := ⟨⟨_, rfl⟩, by decide, by decide, rfl, rfl⟩

theorem test_witness_OnlyTheEightQueriesWriteRes :
    (∃ t, exec (.cmp 1 2) demo = .next t ∧ t.err = 0) ∧ (Instr.cmp 1 2).mnemonic ∈ Spec.resWriters ∧
    (∃ t, exec (.cmp 1 15) demo = .next t ∧ t.err ≠ 0) ∧ (Instr.clrerr).mnemonic ∉ Spec.resWriters :=
  ⟨⟨_, rfl, by decide⟩, by decide, ⟨_, rfl, by decide⟩, by decide⟩

theorem test_witness_StoresKeepTheRestOfTheBuffer :
    (∃ t, exec (.stm 1) demo = .next t ∧ t.err = 0 ∧ t.tlen.toNat ≤ 1) ∧ demo.Inv ∧ (Instr.stm 1).mnemonic ∈ ["STR", "STM"] ∧
    (Instr.add 1 1 1).mnemonic ∉ ["STR", "STM"] ∧ demo.x[(1 : XReg)] ≠ none ∧ demo.f[(1 : FReg)] ≠ none :=
  ⟨⟨_, rfl, by decide, by decide⟩, demo_inv, by decide, by decide, by decide, by decide⟩

theorem test_witness_ResetSatisfiesTheInvariant : Params.InRange ⟨1, 1⟩ ∧ Params.InRange ⟨2 ^ 56 - 1, 2 ^ 56⟩ := by decide

theorem test_witness_EveryStepKeepsTheInvariant :
    (demo.withFetchWord 32 0x00021320).Inv ∧ ∃ t, step (demo.withFetchWord 32 0x00021320) = .next t :=
  ⟨⟨demo_inv.params, demo_inv.x, demo_inv.f, demo_inv.err, demo_inv.efirst, demo_inv.latch, demo_inv.tlen, demo_inv.tb,
    demo_inv.tbRange⟩, _, rfl⟩

theorem test_witness_FirstCommandsAfterReset :
    Params.InRange ⟨1, 1⟩ ∧ (Instr.mov 1 2).wellFormed = true ∧ (Instr.mov 1 2).xSources ≠ [] ∧ (Instr.fmov 1 2).fSources ≠ [] ∧
    2 ≤ (2 : Fin 4096).val ∧ (16 : Fin 4096).val ≤ 16 ∧ (256 : Fin 4096).val = 256 := by decide

theorem test_witness_LdnLoadsTheNativeInteger : (demoArg 0x80).Inv ∧ (demoArg 0x7F).Inv := ⟨demoArg_inv _, demoArg_inv _⟩

theorem test_witness_ParseReadsTheString :
    demo.Inv ∧ Spec.buffer demo = [0x2D] ++ [0x66, 0x46] ∧ (∀ c ∈ [0x66, 0x46], ∃ d, digitval c = some d ∧ d < 16) ∧
    (demoBuffer []).Inv ∧ Spec.buffer (demoBuffer []) = [] ++ [] ∧ ([] : List Byte).head? ≠ some 0x2D ∧
    (demoBuffer [0x47]).Inv ∧ Spec.buffer (demoBuffer [0x47]) = [] ++ [0x47] ∧ [(0x47 : Byte)].head? ≠ some 0x2D ∧
    (∃ c ∈ [(0x47 : Byte)], ∀ d, digitval c = some d → 16 ≤ d) ∧ ¬(2 ≤ (1 : Fin 4096).val ∧ (1 : Fin 4096).val ≤ 16) ∧
    (256 : Fin 4096).val = 256 := by
  refine ⟨demo_inv, rfl, fun c hc => ?_, demoBuffer_inv (by decide), rfl, by decide, demoBuffer_inv (by decide), rfl, by decide,
    ⟨0x47, by decide, fun d h => by rw [show digitval 0x47 = none from rfl] at h; cases h⟩, by decide, rfl⟩
  rw [List.mem_cons, List.mem_singleton] at hc
  rcases hc with rfl | rfl <;> exact ⟨15, rfl, by decide⟩

theorem test_witness_ParsedReadsTheDigitSequence :
    (demoBuffer [1, 2, 3]).Inv ∧ (∀ c ∈ Spec.buffer (demoBuffer [1, 2, 3]), c.toNat < 4) ∧
    (∃ c ∈ Spec.buffer (demoBuffer [1, 2, 3]), 3 ≤ c.toNat) ∧ (1 : Fin 4096).val < 2 ∧ 2 ≤ (2 : Fin 4096).val :=
  ⟨demoBuffer_inv (by decide), by decide, by decide, by decide, by decide⟩

theorem test_witness_LdmLoadsTheTrimmedWords :
    (demoBuffer [1, 255, 0]).Inv ∧ (trim (Spec.buffer (demoBuffer [1, 255, 0]))).length ≤ demo.params.maxWords ∧
    (demoBuffer [0, 0, 1]).Inv ∧ demo.params.maxWords < (trim (Spec.buffer (demoBuffer [0, 0, 1]))).length :=
  ⟨demoBuffer_inv (by decide), by decide, demoBuffer_inv (by decide), by decide⟩

theorem test_witness_CopiesCopyTheRegister :
    demo.Inv ∧ demo.x[(15 : XReg)] = none ∧ demo.f[(15 : FReg)] = none ∧ demo.x[(1 : XReg)] = some ⟨true, [7]⟩ ∧
    demo.f[(1 : FReg)] = some (element 7 13) := ⟨demo_inv, by decide⟩

theorem test_witness_CmpOrdersTheIntegers :
    demo.Inv ∧ demo.x[(15 : XReg)] = none ∧ demo.x[(6 : XReg)] = some ⟨true, [0, 1]⟩ ∧ demo.x[(1 : XReg)] = some ⟨true, [7]⟩ ∧
    BigInt.val ⟨true, [0, 1]⟩ < BigInt.val ⟨true, [7]⟩ := ⟨demo_inv, by decide⟩

theorem test_witness_RelationalTestsReadTheComparison :
    demo.Inv ∧ demo.x[(6 : XReg)] = some ⟨true, [0, 1]⟩ ∧ demo.x[(1 : XReg)] = some ⟨true, [7]⟩ ∧
    demo.f[(1 : FReg)] = some (element 7 13) ∧ demo.f[(3 : FReg)] = some (element 3 17) := ⟨demo_inv, by decide⟩

/-- Two written integer registers and an unwritten one: the hypotheses of the statements about ADD, SUB and MUL. -/
theorem test_witness_AddIsTheExactSum :
    demo.Inv ∧ demo.x[(15 : XReg)] = none ∧ demo.x[(5 : XReg)] = some ⟨false, [255, 255]⟩ ∧ demo.x[(7 : XReg)] = some ⟨false, [1]⟩ :=
  ⟨demo_inv, by decide⟩

theorem test_witness_SubIsTheExactDifference :
    demo.Inv ∧ demo.x[(15 : XReg)] = none ∧ demo.x[(2 : XReg)] = some ⟨false, [2]⟩ ∧ demo.x[(8 : XReg)] = some ⟨false, [9]⟩ :=
  ⟨demo_inv, by decide⟩

theorem test_witness_NegAndAbsKeepTheMagnitude :
    demo.Inv ∧ demo.x[(15 : XReg)] = none ∧ demo.x[(0 : XReg)] = some ⟨false, [0]⟩ ∧ demo.x[(1 : XReg)] = some ⟨true, [7]⟩ :=
  ⟨demo_inv, by decide⟩

theorem test_witness_MulIsTheExactProduct :
    demo.Inv ∧ demo.x[(15 : XReg)] = none ∧ demo.x[(0 : XReg)] = some ⟨false, [0]⟩ ∧ demo.x[(1 : XReg)] = some ⟨true, [7]⟩ ∧
    demo.x[(6 : XReg)] = some ⟨true, [0, 1]⟩ ∧ BigInt.val ⟨false, [0]⟩ * BigInt.val ⟨true, [7]⟩ = 0 ∧
    BigInt.val ⟨true, [7]⟩ * BigInt.val ⟨true, [0, 1]⟩ ≠ 0 := ⟨demo_inv, by decide⟩

/-- Two operands of one word each need a transform of length 2, and -1 is a primitive square root of unity of the rationals. -/
theorem test_witness_TransformRecoversTheConvolution :
    IsPrimitiveRoot (-1 : ℚ) (fftLength ([(255 : Byte)].length + [(255 : Byte)].length)) ∧
    1 < fftLength ([(255 : Byte)].length + [(255 : Byte)].length) :=
  ⟨show IsPrimitiveRoot (-1 : ℚ) 2 from IsPrimitiveRoot.neg_one 0 (by decide), by decide⟩

theorem test_witness_LongDivisionIsEuclidean :
    (BigInt.big (-7)).Normalised ∧ (BigInt.big 0).Normalised ∧ (BigInt.big 0).val = 0 ∧ (BigInt.big 2).Normalised ∧
    (BigInt.big 2).val ≠ 0 := by decide

theorem test_witness_DivAndModAreEuclidean :
    demo.Inv ∧ demo.x[(15 : XReg)] = none ∧ demo.x[(1 : XReg)] = some ⟨true, [7]⟩ ∧ demo.x[(0 : XReg)] = some ⟨false, [0]⟩ ∧
    BigInt.val ⟨false, [0]⟩ = 0 ∧ demo.x[(2 : XReg)] = some ⟨false, [2]⟩ ∧ BigInt.val ⟨false, [2]⟩ ≠ 0 := ⟨demo_inv, by decide⟩

theorem test_witness_DivmodWritesBothOrNeither :
    demo.Inv ∧ (1 : XReg) ≠ 2 ∧ demo.x[(15 : XReg)] = none ∧ demo.x[(1 : XReg)] = some ⟨true, [7]⟩ ∧
    demo.x[(0 : XReg)] = some ⟨false, [0]⟩ ∧ BigInt.val ⟨false, [0]⟩ = 0 ∧ demo.x[(2 : XReg)] = some ⟨false, [2]⟩ ∧
    BigInt.val ⟨false, [2]⟩ ≠ 0 := ⟨demo_inv, by decide⟩

theorem test_witness_BitwiseCommandsActOnEveryBit :
    demo.Inv ∧ demo.x[(15 : XReg)] = none ∧ demo.x[(6 : XReg)] = some ⟨true, [0, 1]⟩ ∧ demo.x[(1 : XReg)] = some ⟨true, [7]⟩ :=
  ⟨demo_inv, by decide⟩

theorem test_witness_NotFlipsEveryBit :
    demo.Inv ∧ demo.x[(15 : XReg)] = none ∧ demo.x[(0 : XReg)] = some ⟨false, [0]⟩ := ⟨demo_inv, by decide⟩

/-- 1 shifted by 15 is the largest power of two that two words hold; by 16 it is one too large. -/
theorem test_witness_ShiftsMultiplyAndFloor :
    (demoArg 15).Inv ∧ (demoArg 16).Inv ∧ demo.x[(15 : XReg)] = none ∧ demo.x[(7 : XReg)] = some ⟨false, [1]⟩ ∧
    BigInt.val ⟨false, [1]⟩ ≠ 0 ∧ ¬8 * demo.params.maxWords < bitlen (BigInt.val ⟨false, [1]⟩).natAbs + (demoArg 15).arg.toNat ∧
    8 * demo.params.maxWords < bitlen (BigInt.val ⟨false, [1]⟩).natAbs + (demoArg 16).arg.toNat :=
  ⟨demoArg_inv _, demoArg_inv _, by decide⟩

theorem test_witness_TwosAndFillGiveTheView :
    (demoArg 16).Inv ∧ (demoArg 17).Inv ∧ demo.x[(15 : XReg)] = none ∧ demo.x[(1 : XReg)] = some ⟨true, [7]⟩ ∧
    (demoArg 16).arg.toNat ≤ 8 * demo.params.maxWords ∧ 8 * demo.params.maxWords < (demoArg 17).arg.toNat :=
  ⟨demoArg_inv _, demoArg_inv _, by decide⟩

theorem test_witness_BitsAndBitReadTheMagnitude :
    demo.Inv ∧ demo.x[(15 : XReg)] = none ∧ demo.x[(6 : XReg)] = some ⟨true, [0, 1]⟩ := ⟨demo_inv, by decide⟩

theorem test_witness_CastWrapsAndExtends :
    demo.Inv ∧ demo.x[(15 : XReg)] = none ∧ demo.x[(1 : XReg)] = some ⟨true, [7]⟩ ∧ (3 : BitVec 3).toNat < 4 ∧
    4 ≤ (4 : BitVec 3).toNat := ⟨demo_inv, by decide⟩

/-- `-0000007` fills the 8 bytes of the buffer; one digit more does not fit. -/
theorem test_witness_StrRendersTheValue :
    (demoArg 7).Inv ∧ (demoArg 8).Inv ∧ demo.x[(15 : XReg)] = none ∧ demo.x[(1 : XReg)] = some ⟨true, [7]⟩ ∧
    bufferAfter (.str 1 10) (demoArg 7) = some [0x2D, 0x30, 0x30, 0x30, 0x30, 0x30, 0x30, 0x37] ∧
    errRes (.str 1 10) (demoArg 8) = some (10, 0) ∧ ¬(2 ≤ (17 : Fin 4096).val ∧ (17 : Fin 4096).val ≤ 16) :=
  ⟨demoArg_inv _, demoArg_inv _, by decide⟩

theorem test_witness_StmStoresTheMagnitude :
    demo.Inv ∧ demo.x[(15 : XReg)] = none ∧ demo.x[(6 : XReg)] = some ⟨true, [0, 1]⟩ ∧
    BigInt.len ⟨true, [0, 1]⟩ ≤ demo.params.tbMax ∧
    tiny.Inv ∧ tiny.x[(6 : XReg)] = some ⟨true, [0, 1]⟩ ∧ tiny.params.tbMax < BigInt.len ⟨true, [0, 1]⟩ :=
  ⟨demo_inv, by decide, by decide, by decide, tiny_inv, by decide⟩

theorem test_witness_ParseReadsBackWhatStrWrote :
    demo.Inv ∧ demo.x[(1 : XReg)] = some ⟨true, [7]⟩ ∧ (16 : Fin 4096).val ≤ 16 ∧
    (∃ t, exec (.str 1 16) demo = .next t ∧ t.err = 0) ∧ ∃ t, exec (.str 1 256) demo = .next t ∧ t.err = 0 :=
  ⟨demo_inv, by decide, by decide, ⟨_, rfl, by decide⟩, ⟨_, rfl, by decide⟩⟩

theorem test_witness_QueriesReadSignAndSize :
    demo.Inv ∧ demo.x[(15 : XReg)] = none ∧ demo.x[(6 : XReg)] = some ⟨true, [0, 1]⟩ := ⟨demo_inv, by decide⟩

theorem test_witness_FnewChecksTheRange :
    demo.Inv ∧ demo.x[(15 : XReg)] = none ∧ demo.x[(0 : XReg)] = some ⟨false, [0]⟩ ∧ demo.x[(7 : XReg)] = some ⟨false, [1]⟩ ∧
    (0 ≤ BigInt.val ⟨false, [0]⟩ ∧ BigInt.val ⟨false, [0]⟩ < BigInt.val ⟨false, [1]⟩) ∧
    ¬(0 ≤ BigInt.val ⟨false, [1]⟩ ∧ BigInt.val ⟨false, [1]⟩ < BigInt.val ⟨false, [1]⟩) := ⟨demo_inv, by decide⟩

theorem test_witness_FieldArithmeticIsModular :
    demo.Inv ∧ demo.f[(15 : FReg)] = none ∧ demo.f[(1 : FReg)] = some (element 7 13) ∧ demo.f[(2 : FReg)] = some (element 9 13) ∧
    demo.f[(3 : FReg)] = some (element 3 17) ∧ (element 7 13).modulus.val = (element 9 13).modulus.val ∧
    (element 7 13).modulus.val ≠ (element 3 17).modulus.val := ⟨demo_inv, by decide⟩

theorem test_witness_FsmulTakesAnyScalar :
    demo.Inv ∧ demo.f[(15 : FReg)] = none ∧ demo.x[(15 : XReg)] = none ∧ demo.f[(5 : FReg)] = some (element 0 1) ∧
    demo.x[(1 : XReg)] = some ⟨true, [7]⟩ := ⟨demo_inv, by decide⟩

theorem test_witness_FdivUsesTheFermatInverse :
    demo.Inv ∧ demo.f[(15 : FReg)] = none ∧ demo.f[(1 : FReg)] = some (element 7 13) ∧ demo.f[(2 : FReg)] = some (element 9 13) ∧
    demo.f[(3 : FReg)] = some (element 3 17) ∧ demo.f[(4 : FReg)] = some (element 0 13) ∧
    (element 7 13).modulus.val ≠ (element 3 17).modulus.val ∧ (element 7 13).modulus.val = (element 0 13).modulus.val ∧
    (element 0 13).value.val = 0 ∧ (element 7 13).modulus.val = (element 9 13).modulus.val ∧ (element 9 13).value.val ≠ 0 ∧
    (element 7 13).modulus.val.natAbs.Prime :=
  ⟨demo_inv, by decide, by decide, by decide, by decide, by decide, by decide, by decide, by decide, by decide, by decide,
    show Nat.Prime 13 by norm_num⟩

theorem test_witness_FpowReducesTheExponent :
    demo.Inv ∧ demo.f[(15 : FReg)] = none ∧ demo.x[(15 : XReg)] = none ∧ demo.f[(3 : FReg)] = some (element 3 17) ∧
    demo.x[(1 : XReg)] = some ⟨true, [7]⟩ ∧ (element 3 17).modulus.val ≠ 1 ∧ demo.f[(5 : FReg)] = some (element 0 1) ∧
    (element 0 1).modulus.val = 1 := ⟨demo_inv, by decide⟩

theorem test_witness_FermatConsistency :
    demo.Inv ∧ demo.f[(3 : FReg)] = some (element 3 17) ∧ (element 3 17).modulus.val.natAbs.Prime ∧ (element 3 17).value.val ≠ 0 ∧
    demo.x[(4 : XReg)] = some ⟨false, [16]⟩ ∧ demo.x[(1 : XReg)] = some ⟨true, [7]⟩ ∧ demo.x[(8 : XReg)] = some ⟨false, [9]⟩ ∧
    BigInt.val ⟨false, [9]⟩ = BigInt.val ⟨false, [16]⟩ + BigInt.val ⟨true, [7]⟩ ∧
    BigInt.val ⟨false, [16]⟩ = (element 3 17).modulus.val - 1 :=
  ⟨demo_inv, by decide, show Nat.Prime 17 by norm_num, by decide, by decide, by decide, by decide, by decide, by decide⟩

theorem test_witness_FeqComparesValueAndModulus :
    demo.Inv ∧ demo.f[(15 : FReg)] = none ∧ demo.f[(1 : FReg)] = some (element 7 13) ∧ demo.f[(2 : FReg)] = some (element 9 13) ∧
    ¬((element 7 13).value.val = (element 9 13).value.val ∧ (element 7 13).modulus.val = (element 9 13).modulus.val) :=
  ⟨demo_inv, by decide⟩

/-- Base 2 and value 1 are the least ones with a logarithm; base 1 has none. -/
theorem test_witness_IlogIsTheFloorLogarithm :
    demo.Inv ∧ demo.x[(15 : XReg)] = none ∧ demo.x[(7 : XReg)] = some ⟨false, [1]⟩ ∧ demo.x[(2 : XReg)] = some ⟨false, [2]⟩ ∧
    2 ≤ BigInt.val ⟨false, [2]⟩ ∧ 1 ≤ BigInt.val ⟨false, [1]⟩ ∧ BigInt.val ⟨false, [1]⟩ = 1 := ⟨demo_inv, by decide⟩

theorem test_witness_PowIsTheExactPower :
    demo.Inv ∧ demo.x[(15 : XReg)] = none ∧ demo.x[(2 : XReg)] = some ⟨false, [2]⟩ ∧ demo.x[(1 : XReg)] = some ⟨true, [7]⟩ ∧
    BigInt.val ⟨true, [7]⟩ < 0 ∧ demo.x[(0 : XReg)] = some ⟨false, [0]⟩ ∧ 0 ≤ BigInt.val ⟨false, [0]⟩ := ⟨demo_inv, by decide⟩

theorem test_witness_PowmIsTheModularPower :
    demo.Inv ∧ demo.x[(15 : XReg)] = none ∧ demo.x[(2 : XReg)] = some ⟨false, [2]⟩ ∧ demo.x[(1 : XReg)] = some ⟨true, [7]⟩ ∧
    demo.x[(0 : XReg)] = some ⟨false, [0]⟩ ∧ BigInt.val ⟨false, [0]⟩ = 0 ∧ BigInt.val ⟨true, [7]⟩ ≠ 0 ∧ BigInt.val ⟨true, [7]⟩ < 0 ∧
    0 ≤ BigInt.val ⟨false, [0]⟩ := ⟨demo_inv, by decide⟩

/-- `x10 = 3`, `x11 = 17`, `x12 = 15` beside `f3 = (3, 17)`. -/
def demoField : State := ((demo.setX 10 (BigInt.big 3)).setX 11 (BigInt.big 17)).setX 12 (BigInt.big 15)

theorem test_witness_HelpersAgreeWithTheFieldLayer :
    demoField.Inv ∧ demoField.f[(3 : FReg)] = some (element 3 17) ∧ 2 ≤ (element 3 17).modulus.val ∧
    demoField.x[(10 : XReg)] = some (element 3 17).value ∧ demoField.x[(11 : XReg)] = some (element 3 17).modulus ∧
    demoField.x[(12 : XReg)] = some (BigInt.big 15) ∧ 0 ≤ (BigInt.big 15).val ∧ (BigInt.big 15).val < (element 3 17).modulus.val - 1 ∧
    (element 3 17).value.val ≠ 0 ∧ (BigInt.big 15).val = (element 3 17).modulus.val - 2 :=
  ⟨((demo_inv.setX 10 (by decide)).setX 11 (by decide)).setX 12 (by decide), by decide⟩

theorem test_witness_ClrerrClearsTheStickyRecord :
    (0x000000F0 : CmdWord).extractLsb' 0 8 = 0xF0 ∧ (0x000001F0 : CmdWord).extractLsb' 0 8 = 0xF0 := by decide

end Sys2Proof.Tests
end

section
/-! The decoder is the opcode map (O2): every row of the map and the decoder's tables (`selectRow`, `Format.mask`,
`Instr.wellFormed`) say the same of a word with the row's opcode, and the opcodes of the map are those of the commands. -/

namespace Sys2Proof

/-! ## The fields of the map are the decoder's fields (R71, R73) -/

theorem extractLsb'_extractLsb' {w : Nat} (x : BitVec w) {lo len lo' len' : Nat} (h : lo' + len' ≤ len) :
    (x.extractLsb' lo len).extractLsb' lo' len' = x.extractLsb' (lo + lo') len' := by
  apply BitVec.eq_of_getLsbD_eq; intro k hk
  simp [hk, show lo' + k < len by omega, Nat.add_assoc]

theorem reg_r4 (cw : CmdWord) : Spec.reg cw 20 = (r4Field cw).toFin := by
  have hr4 : r4Field cw = cw.extractLsb' 20 4 := extractLsb'_extractLsb' _ (by decide)
  rw [hr4]; rfl

theorem getLsbD_sign (cw : CmdWord) : cw.getLsbD 20 = (imm12Field cw).getLsbD 0 := by simp [imm12Field]

theorem type_eq_ofCode (cw : CmdWord) : Spec.type cw = NativeType.ofCode ((imm12Field cw).extractLsb' 0 3) := by
  have hcode : (imm12Field cw).extractLsb' 0 3 = cw.extractLsb' 20 3 := extractLsb'_extractLsb' _ (by decide)
  have hwidth : (cw.extractLsb' 20 3).extractLsb' 0 2 = cw.extractLsb' 20 2 := extractLsb'_extractLsb' _ (by decide)
  have hsign : (cw.extractLsb' 20 3).getLsbD 2 = cw.getLsbD 22 := by simp
  rw [NativeType.ofCode, hcode, hsign, hwidth, Spec.type]
  refine congrArg (NativeType.mk _) ?_
  generalize cw.extractLsb' 20 2 = k
  revert k; decide

/-! ## The mask test fixes the opcode (R72) -/

theorem opField_and_mask (cw : CmdWord) (f : Format) : opField (cw &&& f.mask) = opField cw := by
  have hmask : opField f.mask = 0xFF := by cases f <;> rfl
  calc opField (cw &&& f.mask) = opField cw &&& opField f.mask := BitVec.extractLsb'_and
    _ = opField cw := by rw [hmask, and_ones8]

theorem opField_of_and_mask {cw : CmdWord} {f : Format} {o : BitVec 8} (h : cw &&& f.mask = o.setWidth 32) :
    opField cw = o := by
  rw [← opField_and_mask cw f, h, setWidth_op, opField_assemble]

/-! ## The rows of the map -/

/-- A row agrees with the decoder: on a word with the row's opcode the decoder selects the row's command (R79 steps 1 and 4), that
command's format has the row's mask (R72), and it is well-formed when it passes the row's test of R77. -/
structure RowAgrees (row : Spec.Row) : Prop where
  select : ∀ cw, opField cw = row.1 → selectRow cw = some (row.2.2 cw)
  mask : ∀ cw, (row.2.2 cw).format.mask = row.2.1
  wellFormed : ∀ cw, (row.2.2 cw).wellFormed = true ↔ ¬(row.1 = 0x42 ∧ Spec.reg cw 8 = Spec.reg cw 20)

theorem opcodeMap_agrees : ∀ row ∈ Spec.opcodeMap, RowAgrees row := by
  simp only [Spec.opcodeMap, Spec.rowsA, Spec.rowsB, Spec.rowsC, List.forall_mem_append, List.forall_mem_cons,
    List.not_mem_nil, false_imp_iff, implies_true, and_true]
  and_intros
  all_goals
    refine ⟨fun cw hop => ?_, fun _ => rfl, fun cw => by simp [Instr.wellFormed]⟩
    simp only [reg_r4, type_eq_ofCode, getLsbD_sign]
    unfold selectRow
    rw [hop]
    rfl

theorem opcodeMap_opcodes_nodup : (Spec.opcodeMap.map fun row => row.1).Nodup := by decide

theorem exists_row_of_opcode (i : Instr) : ∃ row ∈ Spec.opcodeMap, row.1 = i.opcode := by
  refine List.mem_map.1 (?_ : i.opcode ∈ Spec.opcodeMap.map fun row => row.1)
  cases i <;> (simp only [Instr.opcode]; decide)

theorem opField_of_selects {cw : CmdWord} {row : Spec.Row} (h : Spec.Selects cw row) : opField cw = row.1 := by
  obtain ⟨hrow, hmask, -⟩ := h
  rw [← (opcodeMap_agrees row hrow).mask cw] at hmask
  exact opField_of_and_mask hmask

/-- R78: the opcode fixes the row. -/
theorem selects_unique {cw : CmdWord} {row row' : Spec.Row} (h : Spec.Selects cw row) (h' : Spec.Selects cw row') : row = row' :=
  List.inj_on_of_nodup_map opcodeMap_opcodes_nodup h.1 h'.1 ((opField_of_selects h).symm.trans (opField_of_selects h'))

/-- On a word with a row's opcode, steps 2 and 3 of R79 are the tests of `Spec.Selects`. -/
theorem selects_iff {cw : CmdWord} {row : Spec.Row} (hrow : row ∈ Spec.opcodeMap) (hop : opField cw = row.1) :
    Spec.Selects cw row ↔
      cw &&& (row.2.2 cw).format.mask = (opField cw).setWidth 32 ∧ (row.2.2 cw).wellFormed = true := by
  have hr := opcodeMap_agrees row hrow
  rw [Spec.Selects, hr.mask, hr.wellFormed, hop]
  exact and_iff_right hrow

theorem decode_eq_ok_iff_selects {cw : CmdWord} {i : Instr} :
    decode cw = .ok i ↔ ∃ row, Spec.Selects cw row ∧ i = row.2.2 cw := by
  rw [decode_eq_ok]
  constructor
  · rintro ⟨hsel, htests⟩
    obtain ⟨row, hrow, hop⟩ := exists_row_of_opcode i
    replace hop := (selectRow_op hsel).trans hop.symm
    have hi : i = row.2.2 cw := Option.some.inj (hsel.symm.trans ((opcodeMap_agrees row hrow).select cw hop))
    subst hi
    exact ⟨row, (selects_iff hrow hop).2 htests, rfl⟩
  · rintro ⟨row, hrow, rfl⟩
    have hop := opField_of_selects hrow
    exact ⟨(opcodeMap_agrees row hrow.1).select cw hop, (selects_iff hrow.1 hop).1 hrow⟩

/-- Settles O2: rows and decoder agree opcode by opcode, and distinct opcodes make the selected row unique. -/
theorem decodeIsTheOpcodeMap : Obligations.DecodeIsTheOpcodeMap :=
  ⟨rfl, opcodeMap_opcodes_nodup, fun _ _ _ => selects_unique, fun _ _ => decode_eq_ok_iff_selects⟩

end Sys2Proof
end

section
/-! The outcomes of `Sys2Proof.Spec` as the model's operations: a command word is an assembled word (R71), a recorded fault is
`takeFault` (R223), `Spec.writeX` is the write primitive at the end of a command (R11, R26), `Spec.buffer` the buffer's content. -/

namespace Sys2Proof

@[simp] theorem r4Field_assemble (i : BitVec 12) (c b a : BitVec 4) (o : BitVec 8) :
    r4Field (assemble i c b a o) = i.extractLsb' 0 4 := by
  rw [r4Field, imm12Field_assemble]

/-- A word of the statements decodes to the command its opcode selects, when the unused fields are 0 (R77, R79). -/
theorem decode_word {i : BitVec 12} {c b a : Fin 16} {o : BitVec 8} {r : Instr}
    (hsel : selectRow (assemble i (BitVec.ofFin c) (BitVec.ofFin b) (BitVec.ofFin a) o) = some r)
    (hunused : r.format.Unused i (BitVec.ofFin c) (BitVec.ofFin b) (BitVec.ofFin a)) (hwf : r.wellFormed = true) :
    decode (Spec.word i c b a o) = .ok r := by
  refine decode_eq_ok.2 ⟨hsel, ?_, hwf⟩
  have hop : opField (Spec.word i c b a o) = o := opField_assemble ..
  rw [hop]
  exact (assemble_mask_iff ..).2 hunused

namespace Machine

theorem finish_error_eq_fault (s : State) (c : CmdFault) : s.finish (.error c) = Spec.fault c.code s := rfl

/-- A command with an unwritten integer source records code 8 (R219). -/
theorem exec_of_x_none {i : Instr} {s : State} {a : XReg} (hwf : i.wellFormed = true) (ha : a ∈ i.xSources)
    (h : s.x[a] = none) : exec i s = Spec.fault 8 s := exec_lacks hwf (.inl ⟨a, ha, h⟩)

/-- A command with an unwritten field source records code 8 (R219). -/
theorem exec_of_f_none {i : Instr} {s : State} {a : FReg} (hwf : i.wellFormed = true) (ha : a ∈ i.fSources)
    (h : s.f[a] = none) : exec i s = Spec.fault 8 s := exec_lacks hwf (.inr ⟨a, ha, h⟩)

theorem finish_writeX_of_fits {s : State} {z : Int} (h : s.Fits z) (d : XReg) :
    s.finish (writeX s d z) = .next { s with x := s.x.set d (some (BigInt.big z)), err := 0 } := by
  rw [writeX_fits h]; rfl

theorem finish_writeX_of_not_fits {s : State} {z : Int} (h : ¬s.Fits z) (d : XReg) :
    s.finish (writeX s d z) = Spec.fault 9 s := by
  rw [writeX_eq_error.2 ⟨h, rfl⟩]; exact finish_error_eq_fault s .capacityExceeded

/-- A command that ends with `x[d] <- z` ends as the statements say (R26). -/
theorem finish_writeX {s : State} (hs : s.Inv) (d : XReg) (z : Int) : s.finish (writeX s d z) = Spec.writeX s d z := by
  have hfits : s.Fits z ↔ bitlen z.natAbs ≤ 8 * s.params.maxWords := State.fits_iff hs.params.1
  unfold Spec.writeX
  split
  · exact finish_writeX_of_fits (hfits.2 ‹_›) d
  · exact finish_writeX_of_not_fits (mt hfits.1 ‹_›) d

/-- Writing back the value of what a register may hold stores exactly that (R24). -/
theorem finish_writeX_val {s : State} {u : BigInt} (hu : u.Stored s.params) (d : XReg) :
    s.finish (writeX s d u.val) = .next { s with x := s.x.set d (some u), err := 0 } := by
  have hbig : BigInt.big u.val = u := BigInt.big_val hu.1
  have hfits : s.Fits u.val := by rw [State.Fits, hbig]; exact hu.2
  rw [finish_writeX_of_fits hfits, hbig]

/-- The same for both components of a field register (R27). -/
theorem finish_writeF_val {s : State} {e : FieldElement} (he : e.Stored s.params) (d : FReg) :
    s.finish (writeF s d e.value.val e.modulus.val) = .next { s with f := s.f.set d (some e), err := 0 } := by
  obtain ⟨hv, hm, -, -⟩ := he
  have hbigv : BigInt.big e.value.val = e.value := BigInt.big_val hv.1
  have hbigm : BigInt.big e.modulus.val = e.modulus := BigInt.big_val hm.1
  have hfits : s.Fits e.value.val ∧ s.Fits e.modulus.val := by
    rw [State.Fits, State.Fits, hbigv, hbigm]; exact ⟨hv.2, hm.2⟩
  rw [writeF_eq_ok.2 ⟨hfits, rfl⟩, hbigv, hbigm]; rfl

theorem content_eq_buffer (s : State) : s.content = Spec.buffer s := by
  simp [State.content, Memory.readBytes, Spec.buffer]

@[simp] theorem buffer_length (s : State) : (Spec.buffer s).length = s.tlen.toNat := by simp [Spec.buffer]

end Machine
end Sys2Proof
end

section
/-! Construction (40_construction.md): LDN (R93), PARSED (R95), LDM (R96), and the copies MOV, FGETV, FGETM, FMOV (R97, R190 to
R192). -/

namespace Sys2Proof

/-! ## LDN (R73, R93) -/

theorem NativeType.bits_ofCode (code : BitVec 3) : (NativeType.ofCode code).bits = 8 * 2 ^ (code.toNat % 4) := by
  revert code; decide

theorem NativeType.signed_ofCode (code : BitVec 3) : (NativeType.ofCode code).signed = decide (4 ≤ code.toNat) := by
  revert code; decide

/-- A type code reads the low `N` bits, and from code 4 on takes `2^N` off a pattern in the upper half (R93). -/
theorem NativeType.ofDword_ofCode (code : BitVec 3) (d : Dword) :
    let n : Nat := 8 * 2 ^ (code.toNat % 4)
    let v : Nat := d.toNat % 2 ^ n
    (NativeType.ofCode code).ofDword d = if 4 ≤ code.toNat ∧ 2 ^ (n - 1) ≤ v then (v : Int) - 2 ^ n else (v : Int) := by
  simp only [NativeType.ofDword, NativeType.bits_ofCode, NativeType.signed_ofCode, decide_eq_true_eq, signedBits]
  by_cases hsigned : 4 ≤ code.toNat
  · simp only [hsigned, if_true, true_and, ← not_lt, ite_not]
  · simp only [hsigned, if_false, false_and]

theorem decode_ldn (xd : XReg) (code : BitVec 3) :
    decode (Spec.word (code.setWidth 12) 0 0 xd 0x01) = .ok (.ldn xd (NativeType.ofCode code)) := by
  have hcode := NativeType.code_ofCode code
  have hfield := NativeType.code_field (NativeType.ofCode code)
  have hzero := NativeType.code_unused (NativeType.ofCode code)
  rw [hcode] at hfield hzero
  exact decode_word (by simp [selectRow, hfield]) ⟨hzero, rfl, rfl⟩ rfl

/-! ## PARSED (R95) -/

/-- Digits accumulated from the left are a digit sequence read from the right (R92, R95). -/
theorem foldl_digits (b : Nat) (digit : Byte → Nat) (acc : Nat) (cs : List Byte) :
    cs.foldl (fun acc c => acc * b + digit c) acc = acc * b ^ cs.length + digitsValue b (cs.reverse.map digit) := by
  induction cs generalizing acc with
  | nil => simp [digitsValue]
  | cons c cs ih =>
    simp only [List.foldl_cons, ih, List.reverse_cons, List.map_append, List.map_cons, List.map_nil, digitsValue_append,
      digitsValue, List.length_cons, List.length_map, List.length_reverse, pow_succ]
    ring

theorem parseDigitValues_base_lt_two {b : Nat} (h : b < 2) (ss : List Byte) :
    parseDigitValues b ss = .error .invalidBase := if_pos h

theorem parseDigitValues_error {b : Nat} (hb : 2 ≤ b) {ss : List Byte} (h : ∃ c ∈ ss, b ≤ c.toNat) :
    parseDigitValues b ss = .error .invalidDigit := by
  rw [parseDigitValues, if_neg (by omega), accumDigits_error 0 (by simpa using h)]; rfl

theorem parseDigitValues_ok {b : Nat} (hb : 2 ≤ b) {ss : List Byte} (h : ∀ c ∈ ss, c.toNat < b) :
    parseDigitValues b ss = .ok (ss.foldl (fun acc c => acc * b + c.toNat) 0 : Nat) := by
  rw [parseDigitValues, if_neg (by omega), accumDigits_ok 0 h, foldl_digits b BitVec.toNat]; rfl

/-! ## LDM (R90, R96) -/

theorem magValue_eq_sum (m : List Byte) : magValue m = ∑ k ∈ Finset.range m.length, (m.getD k 0).toNat * 256 ^ k := by
  induction m with
  | nil => rfl
  | cons w ws ih =>
    simp only [List.length_cons, Finset.sum_range_succ', List.getD_cons_succ, List.getD_cons_zero, pow_zero, mul_one,
      magValue, ih, wordBits, Finset.mul_sum, pow_succ]
    rw [add_comm]
    congr 1
    exact Finset.sum_congr rfl fun k _ => by ring

/-- What is stored for trimmed words and a sign: those words, and the sign but for zero (R23, R96). -/
theorem BigInt.big_val_trim (negative : Bool) (m : List Byte) :
    BigInt.big (BigInt.val { sign := negative, magnitude := trim m }) =
      { sign := negative && decide (trim m ≠ [0]), magnitude := trim m } := by
  refine (BigInt.ext_val ⟨trim_trim m, by simp⟩ ?_).symm
  by_cases hzero : trim m = [0]
  · simp [BigInt.val, hzero, magValue]
  · rw [decide_eq_true hzero, Bool.and_true]

end Sys2Proof

namespace Sys2Proof.Machine

theorem exec_parsed (xd : XReg) (b : Fin 4096) (s : State) :
    exec (.parsed xd b) s = s.finish (parseDigitValues b.val (Spec.buffer s) >>= writeX s xd) := by
  rw [← content_eq_buffer]; rfl

theorem exec_ldm (xd : XReg) (negative : Bool) (s : State) :
    exec (.ldm xd negative) s =
      s.finish (writeX s xd (BigInt.val { sign := negative, magnitude := trim (Spec.buffer s) })) := by
  rw [← content_eq_buffer]; rfl

/-- Settles O23: the type code's width and sign (`NativeType.ofDword_ofCode`), then the write primitive. -/
theorem ldnLoadsTheNativeInteger : Obligations.LdnLoadsTheNativeInteger := by
  intro xd code s hs
  refine ⟨decode_ldn xd code, ?_⟩
  intro n v
  have hvalue : (NativeType.ofCode code).ofDword s.arg = _ := NativeType.ofDword_ofCode code s.arg
  rw [← hvalue]
  exact finish_writeX hs xd _

/-- Settles O25: the base check, then the digits from the left, the first illegal one or the end. -/
theorem parsedReadsTheDigitSequence : Obligations.ParsedReadsTheDigitSequence := by
  intro xd b s hs
  refine ⟨decode_word (by simp [selectRow]) ⟨rfl, rfl⟩ rfl, fun hb => ?_, fun hb hbad => ?_, fun hb hgood => ?_⟩
  · rw [exec_parsed, parseDigitValues_base_lt_two hb]; exact finish_error_eq_fault s .invalidBase
  · rw [exec_parsed, parseDigitValues_error hb hbad]; exact finish_error_eq_fault s .invalidDigit
  · rw [exec_parsed, parseDigitValues_ok hb hgood, ok_bind, finish_writeX hs]

/-- Settles O26: the sum over the words is `magValue`, which `trim` keeps; whether the value fits is the trimmed length. -/
theorem ldmLoadsTheTrimmedWords : Obligations.LdmLoadsTheTrimmedWords := by
  intro xd negative s hs
  refine ⟨?_, ?_⟩
  · cases negative <;> exact decode_word (by simp [selectRow]) ⟨by decide, rfl, rfl⟩ rfl
  intro m a
  have hexec : exec (.ldm xd negative) s = s.finish (writeX s xd (BigInt.val { sign := negative, magnitude := m })) :=
    exec_ldm xd negative s
  have ha : magValue m = a := by rw [magValue_trim, magValue_eq_sum, buffer_length]
  have hval : BigInt.val { sign := negative, magnitude := m } = if negative then -(a : Int) else a := by
    rw [BigInt.val, ha]
  have hbig : BigInt.big (BigInt.val { sign := negative, magnitude := m }) =
      { sign := negative && decide (m ≠ [0]), magnitude := m } := BigInt.big_val_trim ..
  have hfits : s.Fits (BigInt.val { sign := negative, magnitude := m }) ↔ m.length ≤ s.params.maxWords := by
    rw [State.Fits, hbig]; rfl
  refine ⟨?_, fun hlen => ?_, fun hlen => ?_⟩
  · rw [hexec, finish_writeX hs, hval]
  · rw [hexec, finish_writeX_of_fits (hfits.2 hlen), hbig]
  · rw [hexec, finish_writeX_of_not_fits (mt hfits.1 hlen.not_ge)]

/-- Settles O27: an unwritten source is found first; a written one holds a normalised value that fits, which the write primitives
store unchanged. -/
theorem copiesCopyTheRegister : Obligations.CopiesCopyTheRegister := by
  intro d a s hs
  refine ⟨decode_word (by simp [selectRow]) ⟨rfl, rfl⟩ rfl, decode_word (by simp [selectRow]) ⟨rfl, rfl⟩ rfl,
    decode_word (by simp [selectRow]) ⟨rfl, rfl⟩ rfl, decode_word (by simp [selectRow]) ⟨rfl, rfl⟩ rfl,
    fun hx => ?_, fun hf => ?_, fun u hu => ?_, fun e he => ?_⟩
  · exact exec_of_x_none rfl (.head _) hx
  · exact ⟨exec_of_f_none rfl (.head _) hf, exec_of_f_none rfl (.head _) hf, exec_of_f_none rfl (.head _) hf⟩
  · have hread : readX s a = .ok u.val := readX_of hu
    rw [exec, execMov, hread, ok_bind, finish_writeX_val (hs.stored hu)]
  · have hread : readF s a = .ok e := readF_of he
    have hstored : e.Stored s.params := hs.storedF he
    have ⟨hvalue, hmodulus, _⟩ := hstored
    refine ⟨?_, ?_, ?_⟩
    · rw [exec, execFgetv, hread, ok_bind, finish_writeX_val hvalue]
    · rw [exec, execFgetm, hread, ok_bind, finish_writeX_val hmodulus]
    · rw [exec, execFmov, hread, ok_bind, finish_writeF_val hstored]

end Sys2Proof.Machine
end

section
/-! Comparison (41_comparison.md): CMP (R111 to R113). -/

namespace Sys2Proof

/-- R112: equal integers are equal sign and words, because every integer has one normalised form. -/
theorem BigInt.eq_of_val_eq {u v : BigInt} (hu : u.Normalised) (hv : v.Normalised) (h : u.val = v.val) : u = v := by
  rw [BigInt.ext_val hu h, BigInt.big_val hv]

end Sys2Proof

namespace Sys2Proof.Machine

theorem exec_cmp_of_some {s : State} {a b : XReg} {u v : BigInt} (hu : s.x[a] = some u) (hv : s.x[b] = some v) :
    exec (.cmp a b) s = Spec.writeRes s (comparisonResult (BigInt.cmp u v)) := by
  rw [exec, execCmp, readXBig_of hu, readXBig_of hv]; rfl

/-- Settles O28: the registers hold normalised values, on which the word-serial comparison is `compare` of the integers
(`BigInt.cmp_eq`); each case is then one row of R113's table. -/
theorem cmpOrdersTheIntegers : Obligations.CmpOrdersTheIntegers := by
  intro a b s hs
  refine ⟨decode_word (by simp [selectRow]) ⟨rfl, rfl⟩ rfl, fun hnone => ?_, fun u v hu hv => ?_⟩
  · rcases hnone with ha | hb
    · exact exec_of_x_none rfl (.head _) ha
    · exact exec_of_x_none rfl (.tail _ (.head _)) hb
  have hun : u.Normalised := (hs.stored hu).1
  have hvn : v.Normalised := (hs.stored hv).1
  have hcmp : BigInt.cmp u v = compare u.val v.val := BigInt.cmp_eq hun hvn
  rw [exec_cmp_of_some hu hv, hcmp]
  refine ⟨fun hlt => ?_, fun heq => ?_, fun hgt => ?_⟩
  · rw [compare_lt_iff_lt.2 hlt]; exact ⟨rfl, rfl⟩
  · rw [compare_eq_iff_eq.2 heq]; exact ⟨BigInt.eq_of_val_eq hun hvn heq, rfl, rfl⟩
  · rw [compare_gt_iff_gt.2 hgt]; exact ⟨rfl, rfl⟩

end Sys2Proof.Machine
end

section
/-! Adder and subtractor (42_addsub.md): ADD, SUB, NEG (R122 to R125), and ABS (R200), which like NEG keeps the magnitude. -/

namespace Sys2Proof

/-- R125 on the representation: only the sign changes, and zero stays POSITIVE. -/
theorem sneg_eq_ite (u : BigInt) :
    sneg u = if u.magnitude = [0] then { sign := false, magnitude := u.magnitude } else
      { sign := !u.sign, magnitude := u.magnitude } := by
  unfold sneg
  split
  · next hzero => rw [hzero]
  · rfl

theorem val_sneg {u : BigInt} (hu : u.Normalised) : (sneg u).val = -u.val := by rw [sneg_eq hu, BigInt.val_big]

/-- A register that holds `u` may hold its negation: the magnitude is the same (R22, R23, R26). -/
theorem sneg_stored {p : Params} {u : BigInt} (hu : u.Stored p) : (sneg u).Stored p := by
  obtain ⟨hnorm, hlen⟩ := hu
  have hmag : (sneg u).magnitude = u.magnitude := by rw [sneg_eq_ite]; split <;> rfl
  refine ⟨?_, ?_⟩
  · rw [sneg_eq hnorm]; exact BigInt.big_normalised _
  · rw [BigInt.len, hmag]; exact hlen

/-- R200: the value under a POSITIVE sign is the absolute value. -/
theorem BigInt.val_positive (u : BigInt) : BigInt.val { sign := false, magnitude := u.magnitude } = |u.val| := by
  rw [Int.abs_eq_natAbs, BigInt.natAbs_val]; rfl

theorem BigInt.Stored.positive {p : Params} {u : BigInt} (hu : u.Stored p) :
    BigInt.Stored p { sign := false, magnitude := u.magnitude } :=
  ⟨⟨hu.1.1, by simp⟩, hu.2⟩

end Sys2Proof

namespace Sys2Proof.Machine

/-- Of two integer sources at least one unwritten: code 8 (R219). -/
theorem exec_of_either_x_none {i : Instr} {s : State} {a b : XReg} (hwf : i.wellFormed = true) (ha : a ∈ i.xSources)
    (hb : b ∈ i.xSources) (h : s.x[a] = none ∨ s.x[b] = none) : exec i s = Spec.fault 8 s :=
  h.elim (exec_of_x_none hwf ha) (exec_of_x_none hwf hb)

theorem binaryX_of {op : Int → Int → Int} {s : State} {a b : XReg} {u v : BigInt} (hu : s.x[a] = some u)
    (hv : s.x[b] = some v) (d : XReg) : binaryX op d a b s = writeX s d (op u.val v.val) := by
  rw [binaryX, readX_of hu, readX_of hv, ok_bind, ok_bind]

theorem unaryX_of {op : Int → Int} {s : State} {a : XReg} {u : BigInt} (hu : s.x[a] = some u) (d : XReg) :
    unaryX op d a s = writeX s d (op u.val) := by
  rw [unaryX, readX_of hu, ok_bind]

/-- Settles O30: both reads give the registers' integers and the write primitive stores their sum; on what registers hold, the carry
datapath is that sum (`sadd_eq`). -/
theorem addIsTheExactSum : Obligations.AddIsTheExactSum := by
  intro d a b s hs
  refine ⟨decode_word (by simp [selectRow]) rfl rfl, exec_of_either_x_none rfl (.head _) (.tail _ (.head _)),
    fun u v hu hv => ⟨?_, sadd_eq (hs.stored hu).1 (hs.stored hv).1⟩⟩
  rw [exec, execAdd, binaryX_of hu hv, finish_writeX hs]

/-- Settles O31: as for ADD, with the difference; `a + (-b)` is `ssub`, which computes it (`ssub_eq`). -/
theorem subIsTheExactDifference : Obligations.SubIsTheExactDifference := by
  intro d a b s hs
  refine ⟨decode_word (by simp [selectRow]) rfl rfl, exec_of_either_x_none rfl (.head _) (.tail _ (.head _)),
    fun u v hu hv => ⟨?_, ssub_eq (hs.stored hu).1 (hs.stored hv).1⟩⟩
  rw [exec, execSub, binaryX_of hu hv, finish_writeX hs]

/-- Settles O32: NEG stores `sneg u` and ABS the magnitude of `u` as POSITIVE. Both are what a register may hold, because `u` is, so
the write primitive stores exactly them and has no capacity to miss (`finish_writeX_val`). -/
theorem negAndAbsKeepTheMagnitude : Obligations.NegAndAbsKeepTheMagnitude := by
  intro d a s hs
  refine ⟨decode_word (by simp [selectRow]) ⟨rfl, rfl⟩ rfl, decode_word (by simp [selectRow]) ⟨rfl, rfl⟩ rfl,
    fun hnone => ⟨exec_of_x_none rfl (.head _) hnone, exec_of_x_none rfl (.head _) hnone⟩, fun u hu => ?_⟩
  have hstored : u.Stored s.params := hs.stored hu
  refine ⟨⟨sneg u, sneg_eq_ite u, val_sneg hstored.1, ?_⟩, ⟨_, rfl, BigInt.val_positive u, ?_⟩⟩
  · rw [exec, execNeg, unaryX_of hu, ← val_sneg hstored.1, finish_writeX_val (sneg_stored hstored)]
  · rw [exec, execAbs, unaryX_of hu, ← Int.abs_eq_natAbs, ← BigInt.val_positive, finish_writeX_val hstored.positive]

end Sys2Proof.Machine
end

section
/-! Multiplier (43_multiply.md): MUL (R130, R135), and how many words an exact product takes. -/

namespace Sys2Proof

/-- R8, R26: `len(big(z)) <= k` is `|z| < 256 ^ k`, and for a nonzero `z` this needs no bound on `k`. -/
theorem BigInt.len_big_le_iff_natAbs_lt {z : Int} (hz : z ≠ 0) {k : Nat} :
    (BigInt.big z).len ≤ k ↔ z.natAbs < 256 ^ k := by
  rcases Nat.eq_zero_or_pos k with rfl | hk
  · have hlen := BigInt.one_le_len_big z
    exact iff_of_false (by omega) (by simpa using hz)
  · rw [BigInt.len_big_le_iff hk, bitlen_le_iff, pow_mul]; norm_num

theorem BigInt.lt_len_big_iff_le_natAbs {z : Int} (hz : z ≠ 0) {k : Nat} :
    k < (BigInt.big z).len ↔ 256 ^ k ≤ z.natAbs := by
  rw [← not_le, BigInt.len_big_le_iff_natAbs_lt hz, not_lt]

/-- R135: `256 ^ (p - 1) <= |y| < 256 ^ p` and `256 ^ (q - 1) <= |z| < 256 ^ q` put `|y * z|` between `256 ^ (p + q - 2)` and
`256 ^ (p + q)`. -/
theorem BigInt.len_big_mul {y z : Int} (h : y * z ≠ 0) :
    (BigInt.big (y * z)).len = (BigInt.big y).len + (BigInt.big z).len ∨
      (BigInt.big (y * z)).len + 1 = (BigInt.big y).len + (BigInt.big z).len := by
  obtain ⟨hy, hz⟩ := mul_ne_zero_iff.1 h
  have hp := BigInt.one_le_len_big y
  have hq := BigInt.one_le_len_big z
  have hupper : (BigInt.big (y * z)).len ≤ (BigInt.big y).len + (BigInt.big z).len := by
    rw [BigInt.len_big_le_iff_natAbs_lt h, Int.natAbs_mul, pow_add]
    exact Nat.mul_lt_mul'' ((BigInt.len_big_le_iff_natAbs_lt hy).1 le_rfl) ((BigInt.len_big_le_iff_natAbs_lt hz).1 le_rfl)
  have hlower : (BigInt.big y).len - 1 + ((BigInt.big z).len - 1) < (BigInt.big (y * z)).len := by
    rw [BigInt.lt_len_big_iff_le_natAbs h, Int.natAbs_mul, pow_add]
    exact Nat.mul_le_mul ((BigInt.lt_len_big_iff_le_natAbs hy).1 (by omega))
      ((BigInt.lt_len_big_iff_le_natAbs hz).1 (by omega))
  omega

/-- R135: the length of a nonzero product of what registers may hold. -/
theorem smul_len {u v : BigInt} (hu : u.Normalised) (hv : v.Normalised) (h : u.val * v.val ≠ 0) :
    (smul u v).len = u.len + v.len ∨ (smul u v).len + 1 = u.len + v.len := by
  rw [smul_eq, ← BigInt.len_big_val hu, ← BigInt.len_big_val hv]
  exact BigInt.len_big_mul h

end Sys2Proof

namespace Sys2Proof.Machine

/-- Settles O33: as for ADD, with the product; the sign rule over the folded convolution computes it (`smul_eq`), and its length is that
of the integer's words (`smul_len`). -/
theorem mulIsTheExactProduct : Obligations.MulIsTheExactProduct := by
  intro d a b s hs
  refine ⟨decode_word (by simp [selectRow]) rfl rfl, exec_of_either_x_none rfl (.head _) (.tail _ (.head _)),
    fun u v hu hv => ⟨?_, smul_eq u v, fun hzero => ?_, smul_len (hs.stored hu).1 (hs.stored hv).1⟩⟩
  · rw [exec, execMul, binaryX_of hu hv, finish_writeX hs]
  · rw [smul_eq, hzero]; rfl

end Sys2Proof.Machine
end

section
/-! Divider (44_divide.md): DIV, MOD, DIVMOD (R140 to R146). -/

namespace Sys2Proof

/-! ## DIVMOD's second destination (R71, R77) -/

theorem r4_eq_setWidth (r : Fin 16) : Spec.r4 r = (BitVec.ofFin r : BitVec 4).setWidth 12 := by revert r; decide

theorem selectRow_divmod (q r a b : XReg) :
    selectRow (assemble (Spec.r4 r) (BitVec.ofFin b) (BitVec.ofFin a) (BitVec.ofFin q) 0x42) = some (.divmod q r a b) := by
  simp [selectRow, r4_eq_setWidth, r4_field]

/-- A word whose row is no well-formed command does not decode (R77, R79 step 3). -/
theorem decode_error_of_not_wellFormed {cw : CmdWord} {i : Instr} (hsel : selectRow cw = some i) (hwf : i.wellFormed = false) :
    ∃ e, decode cw = .error e := by
  cases hdec : decode cw with
  | error e => exact ⟨e, rfl⟩
  | ok j =>
    obtain ⟨hselj, -, hwfj⟩ := decode_eq_ok.1 hdec
    have hij : i = j := Option.some.inj (hsel.symm.trans hselj)
    rw [hij, hwfj] at hwf
    exact absurd hwf (by decide)

/-! ## Long division (R140 to R142) -/

/-- Settles O35: the datapath's two results are `big` of the integers' Euclidean quotient and remainder (`sdivmod_eq`), hence
normalised with those values. -/
theorem longDivisionIsEuclidean : Obligations.LongDivisionIsEuclidean := by
  intro u v _ hv
  refine ⟨fun hzero => ?_, fun hne => ⟨BigInt.big (ediv u.val v.val), BigInt.big (emod u.val v.val), ?_, ?_⟩⟩
  · rw [sdivmod_eq hv, if_pos hzero]
  · rw [sdivmod_eq hv, if_neg hne]
  · rw [BigInt.val_big, BigInt.val_big]
    exact ⟨BigInt.big_normalised _, BigInt.big_normalised _, (ediv_mul_add_emod ..).symm, emod_nonneg _ hne,
      emod_lt _ hne, rfl, rfl⟩

end Sys2Proof

namespace Sys2Proof.Machine

/-! ## What the three commands do with two written sources -/

section
variable {s : State} {a b : XReg} {u v : BigInt} (hu : s.x[a] = some u) (hv : s.x[b] = some v)
include hu hv

theorem exec_div_of_some (d : XReg) :
    exec (.div d a b) s =
      s.finish (if v.val = 0 then .error .divisionByZero else writeX s d (ediv u.val v.val)) := by
  rw [exec, execDiv, readX_of hu, readX_of hv, ok_bind, ok_bind]

theorem exec_mod_of_some (d : XReg) :
    exec (.mod d a b) s =
      s.finish (if v.val = 0 then .error .divisionByZero else writeX s d (emod u.val v.val)) := by
  rw [exec, execMod, readX_of hu, readX_of hv, ok_bind, ok_bind]

theorem exec_divmod_of_some {q r : XReg} (hqr : q ≠ r) :
    exec (.divmod q r a b) s =
      s.finish (if v.val = 0 then .error .divisionByZero else
        writeX s q (ediv u.val v.val) >>= fun t => writeX t r (emod u.val v.val)) := by
  rw [exec, execDivmod, if_neg hqr, readX_of hu, readX_of hv, ok_bind, ok_bind]

end

/-! ## Both results fit (R143, R144, R220) -/

/-- The quotient is no larger than the dividend. -/
theorem State.Inv.fits_ediv {s : State} (hs : s.Inv) {a : XReg} {u : BigInt} (hu : s.x[a] = some u) {z : Int} (hz : z ≠ 0) :
    s.Fits (ediv u.val z) := State.fits_mono (hs.fits hu) (ediv_natAbs_le _ hz)

/-- The remainder is no larger than the divisor. -/
theorem State.Inv.fits_emod {s : State} (hs : s.Inv) {b : XReg} {v : BigInt} (hv : s.x[b] = some v) (hne : v.val ≠ 0) (z : Int) :
    s.Fits (emod z v.val) := State.fits_mono (hs.fits hv) (emod_natAbs_le _ hne)

/-- Two writes that both fit end the command with both, the second over the first. -/
theorem finish_writeX_writeX_of_fits {s : State} {y z : Int} (hy : s.Fits y) (hz : s.Fits z) (q r : XReg) :
    s.finish (writeX s q y >>= fun t => writeX t r z) =
      .next { s with x := (s.x.set q (some (BigInt.big y))).set r (some (BigInt.big z)), err := 0 } := by
  rw [writeX_fits hy, ok_bind, writeX_fits ((setX_fits ..).2 hz)]; rfl

/-- Settles O36: a zero divisor is found before the write; otherwise the result is `ediv` or `emod`, which R9's identity and range fix and
which always fits. -/
theorem divAndModAreEuclidean : Obligations.DivAndModAreEuclidean := by
  intro d a b s hs
  refine ⟨decode_word (by simp [selectRow]) rfl rfl, decode_word (by simp [selectRow]) rfl rfl,
    fun hnone => ⟨exec_of_either_x_none rfl (.head _) (.tail _ (.head _)) hnone,
      exec_of_either_x_none rfl (.head _) (.tail _ (.head _)) hnone⟩, fun u v hu hv => ?_⟩
  rw [exec_div_of_some hu hv, exec_mod_of_some hu hv]
  refine ⟨fun hzero => ?_, fun hne => ⟨ediv u.val v.val, emod u.val v.val, (ediv_mul_add_emod ..).symm,
    emod_nonneg _ hne, emod_lt _ hne, ?_⟩⟩
  · rw [if_pos hzero, if_pos hzero]
    exact ⟨finish_error_eq_fault s .divisionByZero, finish_error_eq_fault s .divisionByZero⟩
  · rw [if_neg hne, if_neg hne]
    exact ⟨finish_writeX_of_fits (hs.fits_ediv hu hne) d, finish_writeX_of_fits (hs.fits_emod hv hne _) d⟩

/-- Settles O37: equal destinations are no command, so their word does not decode; otherwise both sources are read before either write,
and both results fit, so no fault can come between the two writes. -/
theorem divmodWritesBothOrNeither : Obligations.DivmodWritesBothOrNeither := by
  intro q r a b s hs
  have hsel := selectRow_divmod q r a b
  refine ⟨fun heq => decode_error_of_not_wellFormed hsel (by simp [Instr.wellFormed, heq]), fun hqr => ?_⟩
  have hwf : (Instr.divmod q r a b).wellFormed = true := bne_iff_ne.2 hqr
  refine ⟨decode_word hsel (by rw [r4_eq_setWidth]; exact r4_unused _) hwf,
    exec_of_either_x_none hwf (.head _) (.tail _ (.head _)), fun u v hu hv => ?_⟩
  rw [exec_divmod_of_some hu hv hqr]
  refine ⟨fun hzero => ?_, fun hne => ?_⟩
  · rw [if_pos hzero]; exact finish_error_eq_fault s .divisionByZero
  · rw [if_neg hne]; exact finish_writeX_writeX_of_fits (hs.fits_ediv hu hne) (hs.fits_emod hv hne _) q r

end Sys2Proof.Machine
end

section
/-! Bitwise commands, shifts and bit queries (45_bitwise_shift.md): AND, OR, XOR, NOT (R151 to R155), SHL, SHR (R156, R157), TWOS,
FILL (R158, R159), BITS, BIT (R161, R162). -/

namespace Sys2Proof

/-! ## Bits of the infinite sign-extended form (R151, R155) -/

theorem ibit_eq_one_iff (z : Int) (i : Nat) : ibit z i = 1 ↔ z.testBit i = true := by simp [ibit_eq]

/-- R151: no other integer has the same condition for a 1 at every position. -/
theorem eq_iff_ibit_eq_one_iff {r : Int} {p : Nat → Prop} (hr : ∀ i, ibit r i = 1 ↔ p i) (y : Int) :
    y = r ↔ ∀ i, (ibit y i = 1 ↔ p i) := by
  constructor
  · rintro rfl; exact hr
  · intro hy
    refine int_ext fun i => Bool.eq_iff_iff.2 ?_
    rw [← ibit_eq_one_iff, ← ibit_eq_one_iff, hy, hr]

theorem ibit_bitop_and (a b : Int) (i : Nat) : ibit (bitop Nat.land a b) i = 1 ↔ ibit a i = 1 ∧ ibit b i = 1 := by
  simp only [ibit_eq_one_iff, testBit_and, Bool.and_eq_true]

theorem ibit_bitop_or (a b : Int) (i : Nat) : ibit (bitop Nat.lor a b) i = 1 ↔ ibit a i = 1 ∨ ibit b i = 1 := by
  simp only [ibit_eq_one_iff, testBit_or, Bool.or_eq_true]

theorem ibit_bitop_xor (a b : Int) (i : Nat) : ibit (bitop Nat.xor a b) i = 1 ↔ ¬(ibit a i = 1 ↔ ibit b i = 1) := by
  rw [ibit_eq_one_iff, ibit_eq_one_iff, ibit_eq_one_iff, testBit_xor]
  cases a.testBit i <;> cases b.testBit i <;> decide

theorem ibit_not (z : Int) (i : Nat) : ibit (-(z + 1)) i = 1 - ibit z i := by
  rw [ibit_eq, ibit_eq, testBit_not]
  cases z.testBit i <;> rfl

/-- R152: `|r| <= max(|a|, |b|)` unless both operands are negative. -/
theorem abs_bitop_and_le {a b : Int} (h : ¬(a < 0 ∧ b < 0)) : |bitop Nat.land a b| ≤ max |a| |b| := by
  rw [Int.abs_eq_natAbs, Int.abs_eq_natAbs, Int.abs_eq_natAbs, ← Nat.cast_max]
  exact Int.ofNat_le.2 (bitop_and_natAbs_le h)

/-! ## Shifts (R156, R157) -/

/-- R156: only a nonzero value can shift out of the register. -/
theorem bitlen_shl_le_iff (z : Int) (n k : Nat) :
    bitlen (z * 2 ^ n).natAbs ≤ k ↔ ¬(z ≠ 0 ∧ k < bitlen z.natAbs + n) := by
  rcases eq_or_ne z 0 with rfl | hz
  · simp
  · rw [shl_natAbs, bitlen_mul_two_pow (Int.natAbs_ne_zero.2 hz)]
    simp [hz]

/-- R157: the floor of the rational quotient is `ediv`. -/
theorem floor_div_two_pow (z : Int) (n : Nat) : ⌊(z : ℚ) / 2 ^ n⌋ = ediv z (2 ^ n) := by
  have hfloor := Rat.floor_intCast_div_natCast z (2 ^ n)
  push_cast at hfloor
  exact hfloor

/-! ## Bits of the magnitude (R162) -/

/-- R162: bit `i` of a magnitude is bit `i mod 8` of word `i div 8`. -/
theorem testBit_magValue (m : List Byte) (i : Nat) :
    (magValue m).testBit i = (m.getD (i / 8) 0).getLsbD (i % 8) := by
  induction m generalizing i with
  | nil => simp [magValue]
  | cons w ws ih =>
    rw [magValue, wordBits, add_comm, Nat.testBit_two_pow_mul_add _ w.isLt]
    split
    · next hlow => rw [Nat.div_eq_of_lt hlow, Nat.mod_eq_of_lt hlow]; rfl
    · next hhigh =>
      obtain ⟨j, rfl⟩ := Nat.exists_eq_add_of_le (not_lt.1 hhigh)
      rw [ih, Nat.add_sub_cancel_left, Nat.add_mod_left, Nat.add_div_left j (by decide), List.getD_cons_succ]

/-! ## Truth values in RES (R162) -/

theorem toNat_truthResult (b : Bool) : (truthResult b).toNat = b.toNat := by cases b <;> rfl

theorem ofNat_toNat_eq_truthResult (b : Bool) : BitVec.ofNat 64 b.toNat = truthResult b := by cases b <;> rfl

end Sys2Proof

namespace Sys2Proof.Machine

theorem magnitudeBit_magValue (m : List Byte) (i : Nat) :
    magnitudeBit (magValue m) i = ((m.getD (i / 8) 0).getLsbD (i % 8)).toNat := by
  rw [magnitudeBit_eq, ← testBit_magValue, Nat.toNat_testBit]

/-- R162: the rule's formula over the integers is the bit the command reads. -/
theorem emod_ediv_abs_val (u : BigInt) (i : Nat) :
    emod (ediv |u.val| (2 ^ i)) 2 = magnitudeBit (magValue u.magnitude) i := by
  rw [Int.abs_eq_natAbs, BigInt.natAbs_val, magnitudeBit_eq, emod, ediv]
  push_cast; rfl

/-- BIT answers the word's bit as a truth value. -/
theorem exec_bit_of_some {s : State} {a : XReg} {u : BigInt} (hu : s.x[a] = some u) :
    exec (.bit a) s =
      Spec.writeRes s (truthResult ((u.magnitude.getD (s.arg.toNat / 8) 0).getLsbD (s.arg.toNat % 8))) := by
  rw [exec, execBit, readX_of hu, ok_bind, BigInt.natAbs_val, magnitudeBit_magValue,
    ofNat_toNat_eq_truthResult]; rfl

/-- OR needs no more bits than an operand has, so its result fits (R153). -/
theorem State.Inv.fits_bitop_or {s : State} (hs : s.Inv) {a b : XReg} {u v : BigInt} (hu : s.x[a] = some u)
    (hv : s.x[b] = some v) : s.Fits (bitop Nat.lor u.val v.val) :=
  (State.fits_iff hs.params.1).2 ((bitop_or_bitlen_le _ _).trans
    (max_le ((hs.stored hu).bitlen_le hs.params) ((hs.stored hv).bitlen_le hs.params)))

theorem toNat_ofNat_bitlen {s : State} (hs : s.Inv) {a : XReg} {u : BigInt} (hu : s.x[a] = some u) :
    (BitVec.ofNat 64 (bitlen u.val.natAbs)).toNat = bitlen u.val.natAbs := by
  have hlen : bitlen u.val.natAbs ≤ 8 * s.params.maxWords := (hs.stored hu).bitlen_le hs.params
  have hwords : s.params.maxWords ≤ 2 ^ 56 - 1 := hs.params.2.1
  rw [BitVec.toNat_ofNat, Nat.mod_eq_of_lt (by omega)]

/-- Settles O38: the two's-complement views give the operation at every bit, which fixes the integer (`eq_iff_ibit_eq_one_iff`); the
bounds on AND and OR are those of the operands. -/
theorem bitwiseCommandsActOnEveryBit : Obligations.BitwiseCommandsActOnEveryBit := by
  intro d a b s hs
  refine ⟨decode_word (by simp [selectRow]) rfl rfl, decode_word (by simp [selectRow]) rfl rfl,
    decode_word (by simp [selectRow]) rfl rfl, fun hnone => ?_, fun u v hu hv => ⟨?_, ?_, ?_⟩⟩
  · exact ⟨exec_of_either_x_none rfl (.head _) (.tail _ (.head _)) hnone,
      exec_of_either_x_none rfl (.head _) (.tail _ (.head _)) hnone,
      exec_of_either_x_none rfl (.head _) (.tail _ (.head _)) hnone⟩
  · refine ⟨_, ?_, rfl, abs_bitop_and_le, eq_iff_ibit_eq_one_iff (ibit_bitop_and _ _)⟩
    rw [exec, execAnd, binaryX_of hu hv, finish_writeX hs]
  · refine ⟨_, ?_, rfl, eq_iff_ibit_eq_one_iff (ibit_bitop_or _ _)⟩
    rw [exec, execOr, binaryX_of hu hv, finish_writeX_of_fits (hs.fits_bitop_or hu hv)]
  · refine ⟨_, ?_, rfl, eq_iff_ibit_eq_one_iff (ibit_bitop_xor _ _)⟩
    rw [exec, execXor, binaryX_of hu hv, finish_writeX hs]

/-- Settles O39: `-(z + 1)` is the complement at every bit (`ibit_not`). -/
theorem notFlipsEveryBit : Obligations.NotFlipsEveryBit := by
  intro d a s hs
  refine ⟨decode_word (by simp [selectRow]) ⟨rfl, rfl⟩ rfl, exec_of_x_none rfl (.head _),
    fun u hu => ⟨?_, ibit_not u.val⟩⟩
  rw [exec, execNot, unaryX_of hu, finish_writeX hs]

/-- Settles O40: the guarded writes are the plain ones (log entry 15), the capacity check of the shifted value is R156's condition, and
the right shift is the floor, which is no larger than the operand. -/
theorem shiftsMultiplyAndFloor : Obligations.ShiftsMultiplyAndFloor := by
  intro d a s hs
  refine ⟨decode_word (by simp [selectRow]) ⟨rfl, rfl⟩ rfl, decode_word (by simp [selectRow]) ⟨rfl, rfl⟩ rfl,
    fun hnone => ⟨exec_of_x_none rfl (.head _) hnone, exec_of_x_none rfl (.head _) hnone⟩, fun u hu => ?_⟩
  have hshl : exec (.shl d a) s = Spec.writeX s d (u.val * 2 ^ s.arg.toNat) := by
    rw [exec, execShl, readX_of hu, ok_bind, writeShiftedLeft_eq hs.params.1, finish_writeX hs]
  have hbits := bitlen_shl_le_iff u.val s.arg.toNat (8 * s.params.maxWords)
  rw [hshl]
  refine ⟨fun hover => if_neg fun hle => hbits.1 hle hover, fun hfits => if_pos (hbits.2 hfits), ?_⟩
  have hfits : s.Fits (ediv u.val (2 ^ s.arg.toNat)) := State.fits_mono (hs.fits hu) (ediv_two_pow_natAbs_le _ _)
  rw [exec, execShr, unaryX_of hu, shiftedRight_eq, finish_writeX_of_fits hfits, floor_div_two_pow]

/-- Settles O41: the guarded writes are the plain ones (log entry 15), and `2^ARG - 1` has `ARG` bits (`bitlen_fill`). -/
theorem twosAndFillGiveTheView : Obligations.TwosAndFillGiveTheView := by
  intro d a s hs
  have hfill : exec (.fill d) s = Spec.writeX s d (2 ^ s.arg.toNat - 1) := by
    rw [exec, execFill, writeFill_eq hs.params.1, finish_writeX hs]
  rw [hfill, Spec.writeX, bitlen_fill]
  refine ⟨decode_word (by simp [selectRow]) ⟨rfl, rfl⟩ rfl, decode_word (by simp [selectRow]) ⟨rfl, rfl, rfl⟩ rfl,
    exec_of_x_none rfl (.head _), fun u hu => ?_, fun hfits => if_pos hfits, fun hover => if_neg hover.not_ge⟩
  rw [exec, execTwos, readX_of hu, ok_bind, writeView_eq hs.params.1, finish_writeX hs, tc_cast]

/-- Settles O42: the bit length is below `2^64` because the register's length is bounded (R26); the magnitude's bit is the word's bit
(`testBit_magValue`). -/
theorem bitsAndBitReadTheMagnitude : Obligations.BitsAndBitReadTheMagnitude := by
  intro a s hs
  refine ⟨decode_word (by simp [selectRow]) ⟨rfl, rfl, rfl⟩ rfl, decode_word (by simp [selectRow]) ⟨rfl, rfl, rfl⟩ rfl,
    fun hnone => ⟨exec_of_x_none rfl (.head _) hnone, exec_of_x_none rfl (.head _) hnone⟩,
    fun u hu => ⟨⟨_, toNat_ofNat_bitlen hs hu, ?_⟩, ⟨truthResult _, ?_, rfl, exec_bit_of_some hu⟩⟩⟩
  · rw [exec, execBits, readXBig_of hu]; rfl
  · rw [toNat_truthResult, emod_ediv_abs_val, magnitudeBit_magValue]

end Sys2Proof.Machine
end

section
/-! Conversion and queries (46_conversion.md): CAST (R170), STM (R173) and its inverse LDM, STR followed by PARSE (R174), SIGN, BYTES,
DIGITS (R175 to R177). -/

namespace Sys2Proof

/-! ## The number a cast gives (R170) -/

theorem NativeType.one_le_bits (t : NativeType) : 1 ≤ t.bits := by unfold bits; split <;> decide

theorem NativeType.bits_le (t : NativeType) : t.bits ≤ 64 := by unfold bits; split <;> decide

/-- The `N`-bit number of type `t` congruent to `z` (R170). -/
def NativeType.wrap (t : NativeType) (z : Int) : Int :=
  if t.signed then signedBits t.bits (tc z t.bits) else (tc z t.bits : Int)

/-- Half of `2^n` on either side of 0 is the range of an `n`-bit signed number (R10). -/
theorem signedBits_range {n p : Nat} (hn : 1 ≤ n) (hp : p < 2 ^ n) :
    -2 ^ (n - 1) ≤ signedBits n p ∧ signedBits n p < 2 ^ (n - 1) := by
  obtain ⟨k, rfl⟩ := Nat.exists_eq_add_of_le' hn
  zify at hp
  unfold signedBits
  rw [Nat.add_sub_cancel]
  split
  · next hlow => zify at hlow; omega
  · next hhigh => zify at hhigh; rw [pow_succ] at *; omega

theorem exists_signedBits_add (n p : Nat) : ∃ k : Int, (p : Int) = signedBits n p + k * 2 ^ n := by
  unfold signedBits
  split
  · exact ⟨0, by ring⟩
  · exact ⟨1, by ring⟩

theorem exists_tc_add (z : Int) (n : Nat) : ∃ k : Int, z = tc z n + k * 2 ^ n :=
  ⟨ediv z (2 ^ n), by rw [tc_cast, add_comm, ediv_mul_add_emod]⟩

theorem NativeType.exists_wrap_add (t : NativeType) (z : Int) : ∃ k : Int, z = t.wrap z + k * 2 ^ t.bits := by
  obtain ⟨k, hk⟩ := exists_tc_add z t.bits
  unfold wrap
  split
  · obtain ⟨j, hj⟩ := exists_signedBits_add t.bits (tc z t.bits)
    exact ⟨j + k, by linarith⟩
  · exact ⟨k, hk⟩

theorem NativeType.wrap_unsigned_range {t : NativeType} (ht : t.signed = false) (z : Int) :
    0 ≤ t.wrap z ∧ t.wrap z < 2 ^ t.bits := by
  have hlt : tc z t.bits < 2 ^ t.bits := tc_nonneg_lt z t.bits
  zify at hlt
  simpa [wrap, ht] using hlt

theorem NativeType.wrap_signed_range {t : NativeType} (ht : t.signed = true) (z : Int) :
    -2 ^ (t.bits - 1) ≤ t.wrap z ∧ t.wrap z < 2 ^ (t.bits - 1) := by
  rw [wrap, if_pos ht]
  exact signedBits_range t.one_le_bits (tc_nonneg_lt z t.bits)

/-- Taking `2^n` off and adding `2^64` is the same 64-bit pattern: sign extension (R10). -/
theorem extend64_eq_ofInt {n p : Nat} (signed : Bool) (hn : n ≤ 64) :
    extend64 signed n p = BitVec.ofInt 64 (if signed then signedBits n p else (p : Int)) := by
  have hpow : 2 ^ n ≤ 2 ^ 64 := Nat.pow_le_pow_right (by decide) hn
  cases signed with
  | false => simp [extend64]
  | true =>
    simp only [extend64, signedBits, if_true, true_and]
    by_cases hlow : p < 2 ^ (n - 1)
    · rw [if_neg hlow.not_ge, if_pos hlow, BitVec.ofInt_natCast]
    · rw [if_pos (not_lt.1 hlow), if_neg hlow, ← BitVec.ofInt_natCast, Nat.cast_sub (by omega)]
      apply BitVec.eq_of_toInt_eq
      rw [BitVec.toInt_ofInt, BitVec.toInt_ofInt, ← Int.add_bmod_right (p - 2 ^ n : Int)]
      congr 1
      push_cast; ring

theorem decode_cast (a : XReg) (code : BitVec 3) :
    decode (Spec.word (code.setWidth 12) 0 a 0 0x60) = .ok (.cast a (NativeType.ofCode code)) := by
  have hfield := NativeType.code_field (NativeType.ofCode code)
  have hzero := NativeType.code_unused (NativeType.ofCode code)
  rw [NativeType.code_ofCode] at hfield hzero
  exact decode_word (by simp [selectRow, hfield]) ⟨hzero, rfl, rfl⟩ rfl

end Sys2Proof

namespace Sys2Proof.Machine

/-! ## What the queries and CAST deliver to RES -/

section
variable {s : State} {a : XReg} {u : BigInt} (hu : s.x[a] = some u)
include hu

theorem exec_cast_of_some (t : NativeType) : exec (.cast a t) s = Spec.writeRes s (BitVec.ofInt 64 (t.wrap u.val)) := by
  rw [exec, execCast, readX_of hu, ok_bind, extend64_eq_ofInt _ t.bits_le]; rfl

theorem exec_sign_of_some : exec (.sign a) s = Spec.writeRes s (truthResult (decide (u.val < 0))) := by
  rw [exec, execSign, readX_of hu]; rfl

/-- With `W = 8` a word is a byte (R176). -/
theorem exec_bytes_of_some : exec (.bytes a) s = Spec.writeRes s (BitVec.ofNat 64 u.len) := by
  have hceil : (u.len * wordBits + 7) / 8 = u.len := by rw [wordBits]; omega
  rw [exec, execBytes, readXBig_of hu, ok_bind, hceil]; rfl

theorem exec_digits_of_some : exec (.digits a) s = Spec.writeRes s (BitVec.ofNat 64 u.len) := by
  rw [exec, execDigits, readXBig_of hu]; rfl

end

theorem toNat_ofNat_len {s : State} (hs : s.Inv) {a : XReg} {u : BigInt} (hu : s.x[a] = some u) :
    (BitVec.ofNat 64 u.len).toNat = u.len := by
  have hlen : u.len ≤ s.params.maxWords := (hs.stored hu).2
  obtain ⟨-, hwords, -, -⟩ := hs.params
  rw [BitVec.toNat_ofNat, Nat.mod_eq_of_lt (by omega)]

/-- Settles O43: the wrapped number is congruent and in the type's range (`NativeType.wrap`), and the extension of its pattern is its
64-bit two's complement (`extend64_eq_ofInt`). -/
theorem castWrapsAndExtends : Obligations.CastWrapsAndExtends := by
  intro a code s _
  refine ⟨decode_cast a code, exec_of_x_none rfl (.head _), fun u hu => ?_⟩
  intro n
  have hn : (NativeType.ofCode code).bits = n := NativeType.bits_ofCode code
  have hsigned := NativeType.signed_ofCode code
  rw [← hn]
  refine ⟨(NativeType.ofCode code).wrap u.val, NativeType.exists_wrap_add _ _, fun hlow => ?_, fun hhigh => ?_,
    exec_cast_of_some hu _⟩
  · exact NativeType.wrap_unsigned_range (by rw [hsigned, decide_eq_false hlow.not_ge]) _
  · exact NativeType.wrap_signed_range (by rw [hsigned, decide_eq_true hhigh]) _

/-- Settles O47: the stored sign says whether the value is negative (`BigInt.sign_eq`), and the length is below `2^64` because the
register's length is bounded (R26). -/
theorem queriesReadSignAndSize : Obligations.QueriesReadSignAndSize := by
  intro a s hs
  refine ⟨decode_word (by simp [selectRow]) ⟨rfl, rfl, rfl⟩ rfl, decode_word (by simp [selectRow]) ⟨rfl, rfl, rfl⟩ rfl,
    decode_word (by simp [selectRow]) ⟨rfl, rfl, rfl⟩ rfl, fun hnone => ?_, fun u hu => ⟨?_, ?_, ?_⟩⟩
  · exact ⟨exec_of_x_none rfl (.head _) hnone, exec_of_x_none rfl (.head _) hnone, exec_of_x_none rfl (.head _) hnone⟩
  · rw [exec_sign_of_some hu]; simp [truthResult]
  · rw [exec_sign_of_some hu, ← BigInt.sign_eq (hs.stored hu).1]; rfl
  · exact ⟨_, toNat_ofNat_len hs hu, exec_bytes_of_some hu, exec_digits_of_some hu⟩

/-! ## Storing to the transfer buffer and loading from it (R37, R51, R173, R174) -/

/-- The state after a command that stores `bs` (R37, R223). -/
def State.afterOutput (s : State) (bs : List Byte) : State := (s.storeOutput bs).succeed

theorem State.Inv.length_lt {s : State} (hs : s.Inv) {bs : List Byte} (h : bs.length ≤ s.params.tbMax) :
    bs.length < 2 ^ 64 := by
  obtain ⟨-, -, -, hmax⟩ := hs.params
  omega

theorem finish_writeOutput_of_le {s : State} {bs : List Byte} (h : bs.length ≤ s.params.tbMax) :
    s.finish (writeOutput s bs) = .next (s.afterOutput bs) := by
  rw [writeOutput_eq_ok.2 ⟨h, rfl⟩]; rfl

theorem finish_writeOutput_of_gt {s : State} {bs : List Byte} (h : s.params.tbMax < bs.length) :
    s.finish (writeOutput s bs) = Spec.fault 10 s := by
  rw [writeOutput_eq_error.2 ⟨h, rfl⟩]; exact finish_error_eq_fault s .bufferOverflow

/-- Every byte of the buffer and the frame after an output (R37, R51). -/
theorem stores_afterOutput {s : State} {bs : List Byte} (h : bs.length < 2 ^ 64) :
    Spec.Stores s bs (.next (s.afterOutput bs)) := by
  refine ⟨_, rfl, rfl, ?_, fun a => ?_⟩
  · exact (BitVec.toNat_ofNat ..).trans (Nat.mod_eq_of_lt h)
  · exact (Memory.read_writeBytes s.tb 0 a bs).trans (if_pos a.zero_le)

/-- What a command loads after an output is that output (R36). -/
theorem content_afterOutput {s : State} {bs : List Byte} (h : bs.length < 2 ^ 64) : (s.afterOutput bs).content = bs :=
  State.content_storeOutput s bs h

theorem exec_ldm_afterOutput {s : State} {bs : List Byte} (h : bs.length < 2 ^ 64) (d : XReg) (negative : Bool) :
    exec (.ldm d negative) (s.afterOutput bs) =
      (s.afterOutput bs).finish (writeX (s.afterOutput bs) d (BigInt.val { sign := negative, magnitude := trim bs })) := by
  rw [exec, execLdm, content_afterOutput h]

theorem exec_parse_afterOutput {s : State} {bs : List Byte} (h : bs.length < 2 ^ 64) (d : XReg) (b : Fin 4096) :
    exec (.parse d b) (s.afterOutput bs) =
      (s.afterOutput bs).finish (parseString b.val bs >>= writeX (s.afterOutput bs) d) := by
  rw [exec, execParse, content_afterOutput h]

theorem exec_stm_of_some {s : State} {a : XReg} {u : BigInt} (hu : s.x[a] = some u) :
    exec (.stm a) s = s.finish (writeOutput s u.magnitude) := by
  rw [exec, execStm, readXBig_of hu, ok_bind]

/-- A command after the output that writes to register `d` what it may hold succeeds and leaves exactly that there. -/
theorem finish_writeX_afterOutput {s : State} {u : BigInt} (hu : u.Stored s.params) (bs : List Byte) (d : XReg) :
    ∃ t, (s.afterOutput bs).finish (writeX (s.afterOutput bs) d u.val) = .next t ∧ t.err = 0 ∧ t.x[d] = some u :=
  ⟨_, finish_writeX_val (s := s.afterOutput bs) hu d, rfl, by simp⟩

/-- Settles O45: the output is the register's words, which are trimmed already, so LDM reads them back as they are. -/
theorem stmStoresTheMagnitude : Obligations.StmStoresTheMagnitude := by
  intro a s hs
  refine ⟨decode_word (by simp [selectRow]) ⟨rfl, rfl, rfl⟩ rfl, exec_of_x_none rfl (.head _),
    fun u hu => ⟨fun hover => ?_, fun hfits => ?_⟩⟩
  · rw [exec_stm_of_some hu]; exact finish_writeOutput_of_gt hover
  · have hlen : u.magnitude.length < 2 ^ 64 := hs.length_lt hfits
    have htrim : trim u.magnitude = u.magnitude := (hs.stored hu).1.1
    rw [exec_stm_of_some hu, finish_writeOutput_of_le hfits]
    refine ⟨stores_afterOutput hlen, fun d => ⟨s.afterOutput u.magnitude, ?_⟩⟩
    rw [exec_ldm_afterOutput hlen, htrim]
    obtain ⟨t', hload⟩ := finish_writeX_afterOutput (hs.stored hu) u.magnitude d
    exact ⟨t', rfl, hload⟩

/-- An STR that succeeds has stored its output (R172). -/
theorem exec_str_ok {s t : State} {a : XReg} {u : BigInt} {b : Fin 4096} (hu : s.x[a] = some u)
    (h : exec (.str a b) s = .next t) (herr : t.err = 0) :
    (strBytes u.val b.val s.arg.toNat).length ≤ s.params.tbMax ∧
      t = s.afterOutput (strBytes u.val b.val s.arg.toNat) := by
  rw [exec, execStr, readX_of hu, ok_bind] at h
  obtain ⟨v, hv, rfl⟩ | ⟨c, -, rfl⟩ := State.finish_eq_next.1 h
  · split at hv
    · cases hv
    · split at hv
      · cases hv
      · obtain ⟨hlen, rfl⟩ := writeOutput_eq_ok.1 hv
        exact ⟨hlen, rfl⟩
  · exact absurd herr c.code_ne_zero

/-- What PARSE in base `b` gives of the output for a register's content (R174): base 256 has no sign. -/
def readBack (u : BigInt) (b : Nat) : BigInt := if b = 256 then { sign := false, magnitude := u.magnitude } else u

theorem readBack_stored {p : Params} {u : BigInt} (hu : u.Stored p) (b : Nat) : (readBack u b).Stored p := by
  unfold readBack
  split
  · exact hu.positive
  · exact hu

theorem parseString_readBack (u : BigInt) {b : Nat} (hb : legalBase b) (k : Nat) :
    parseString b (strBytes u.val b k) = .ok (readBack u b).val := by
  rcases hb with ⟨h2, h16⟩ | rfl
  · rw [parseString_strBytes _ _ h2 h16, readBack, if_neg (by omega)]
  · rw [parseString_strBytes_256, readBack, if_pos rfl, BigInt.val_positive, Int.abs_eq_natAbs]

/-- Settles O46: a successful STR leaves its output as the buffer's content, PARSE reads the value back from it
(`parseString_readBack`), and what it reads is what a register may hold. -/
theorem parseReadsBackWhatStrWrote : Obligations.ParseReadsBackWhatStrWrote := by
  intro a d b s t u hs hu hb hstr herr
  obtain ⟨hlen, rfl⟩ := exec_str_ok hu hstr herr
  rw [exec_parse_afterOutput (hs.length_lt hlen), parseString_readBack u hb, ok_bind]
  exact finish_writeX_afterOutput (readBack_stored (hs.stored hu) b.val) _ d

end Sys2Proof.Machine
end

section
/-! The field layer (47_field.md): FNEW (R180), FADD, FSUB, FMUL (R181 to R184), FSMUL (R185), FDIV (R187), FPOW (R188), FEQ (R189),
and Fermat's little theorem behind the last laws (R187, R194). -/

namespace Sys2Proof

/-! ## What a field register holds (R27) -/

/-- The element 1 as it is stored (R8). -/
theorem BigInt.big_one : BigInt.big 1 = { sign := false, magnitude := [1] } := by decide

/-- Normalised components are equal exactly when their integers are (R112, R189). -/
theorem FieldElement.eq_iff_val {p q : Params} {e g : FieldElement} (he : e.Stored p) (hg : g.Stored q) :
    e = g ↔ e.value.val = g.value.val ∧ e.modulus.val = g.modulus.val := by
  obtain ⟨hev, hem, -, -⟩ := he
  obtain ⟨hgv, hgm, -, -⟩ := hg
  refine ⟨fun h => h ▸ ⟨rfl, rfl⟩, fun ⟨hv, hm⟩ => ?_⟩
  have hvalue : e.value = g.value := BigInt.eq_of_val_eq hev.1 hgv.1 hv
  have hmodulus : e.modulus = g.modulus := BigInt.eq_of_val_eq hem.1 hgm.1 hm
  cases e; cases g; subst hvalue hmodulus; rfl

/-- A nonzero residue has a modulus of at least 2 (invariant I3). -/
theorem FieldElement.Stored.two_le_modulus {p : Params} {e : FieldElement} (he : e.Stored p) (hne : e.value.val ≠ 0) :
    2 ≤ e.modulus.val := by
  obtain ⟨-, -, hnonneg, hlt⟩ := he
  omega

/-! ## Residues modulo a prime are the field `ZMod p` (R187, R194) -/

theorem emod_eq_emod_iff_cast {p : Nat} {y z : Int} : emod y p = emod z p ↔ (y : ZMod p) = z :=
  (ZMod.intCast_eq_intCast_iff y z p).symm

@[simp] theorem cast_emod (p : Nat) (z : Int) : ((emod z p : Int) : ZMod p) = z := ZMod.intCast_mod z p

theorem cast_ne_zero_of_range {p : Nat} {a : Int} (h0 : 0 < a) (h1 : a < p) : (a : ZMod p) ≠ 0 := fun h =>
  (Int.le_of_dvd h0 ((ZMod.intCast_zmod_eq_zero_iff_dvd a p).1 h)).not_gt h1

/-- Reducing the exponent modulo `p - 1` leaves the power with an integer exponent, because `a^(p-1) = 1` (R188). -/
theorem cast_pow_emod_pred {p : Nat} [Fact p.Prime] {a : Int} (ha : (a : ZMod p) ≠ 0) (k : Int) :
    ((a ^ (emod k (p - 1)).toNat : Int) : ZMod p) = (a : ZMod p) ^ k := by
  have hp : 2 ≤ p := (Fact.out : p.Prime).two_le
  have hnonneg : 0 ≤ emod k (p - 1) := emod_nonneg k (by omega)
  have hfermat : (a : ZMod p) ^ ((p : Int) - 1) = 1 := by
    rw [← Nat.cast_pred (by omega), zpow_natCast]; exact ZMod.pow_card_sub_one_eq_one ha
  calc ((a ^ (emod k (p - 1)).toNat : Int) : ZMod p)
      = (a : ZMod p) ^ emod k (p - 1) := by rw [Int.cast_pow, ← zpow_natCast, Int.toNat_of_nonneg hnonneg]
    _ = ((a : ZMod p) ^ ((p : Int) - 1)) ^ ediv k (p - 1) * (a : ZMod p) ^ emod k (p - 1) := by
        rw [hfermat, one_zpow, one_mul]
    _ = (a : ZMod p) ^ k := by rw [← zpow_mul, ← zpow_add₀ ha, mul_comm, ediv_mul_add_emod]

/-- The Fermat inverse: `p - 2` is the exponent `-1` modulo `p - 1` (R187). -/
theorem cast_pow_sub_two {p : Nat} [Fact p.Prime] {a : Int} (ha : (a : ZMod p) ≠ 0) :
    ((a ^ ((p : Int) - 2).toNat : Int) : ZMod p) = (a : ZMod p)⁻¹ := by
  have hp : 2 ≤ p := (Fact.out : p.Prime).two_le
  have hexp : emod (-1) ((p : Int) - 1) = p - 2 :=
    (ediv_emod_unique (q := -1) (by ring) (by omega) (by rw [abs_of_pos (by omega)]; omega)).2
  rw [← hexp, cast_pow_emod_pred ha, zpow_neg_one]

section
variable {p a : Int} (hp : p.natAbs.Prime) (h0 : 0 < a) (h1 : a < p)
include hp h0 h1

/-- A prime modulus as a natural number, and the residue `a` as a nonzero element of its field. -/
theorem exists_prime_cast_ne_zero : ∃ q : Nat, Fact q.Prime ∧ p = q ∧ (a : ZMod q) ≠ 0 := by
  lift p to Nat using (h0.trans h1).le
  exact ⟨p, ⟨hp⟩, rfl, cast_ne_zero_of_range h0 h1⟩

/-- The quotient through the Fermat inverse times the divisor is the dividend (R187). -/
theorem emod_fermat_quotient_mul (z : Int) :
    emod (emod (z * emod (a ^ (p - 2).toNat) p) p * a) p = emod z p := by
  obtain ⟨q, hq, rfl, ha⟩ := exists_prime_cast_ne_zero hp h0 h1
  rw [emod_eq_emod_iff_cast, Int.cast_mul, cast_emod, Int.cast_mul, cast_emod, cast_pow_sub_two ha]
  exact inv_mul_cancel_right₀ ha _

/-- A nonzero residue divided by itself is 1 (R194). -/
theorem emod_fermat_quotient_self : emod (a * emod (a ^ (p - 2).toNat) p) p = 1 := by
  obtain ⟨q, hq, rfl, ha⟩ := exists_prime_cast_ne_zero hp h0 h1
  have hone : emod 1 (q : Int) = 1 := emod_eq_of_range (by decide) (by omega)
  rw [← hone, emod_eq_emod_iff_cast, Int.cast_mul, cast_emod, cast_pow_sub_two ha, Int.cast_one]
  exact mul_inv_cancel₀ ha

/-- The power for a sum of integer exponents is the product of the powers (R194). -/
theorem emod_pow_add (k l : Int) :
    emod (a ^ (emod (k + l) (p - 1)).toNat) p =
      emod (emod (a ^ (emod k (p - 1)).toNat) p * emod (a ^ (emod l (p - 1)).toNat) p) p := by
  obtain ⟨q, hq, rfl, ha⟩ := exists_prime_cast_ne_zero hp h0 h1
  rw [emod_eq_emod_iff_cast, Int.cast_mul, cast_emod, cast_emod, cast_pow_emod_pred ha, cast_pow_emod_pred ha,
    cast_pow_emod_pred ha]
  exact zpow_add₀ ha k l

end

end Sys2Proof

namespace Sys2Proof.Machine

/-! ## Ending a field command -/

/-- Of two field sources at least one unwritten: code 8 (R219). -/
theorem exec_of_either_f_none {i : Instr} {s : State} {a b : FReg} (hwf : i.wellFormed = true) (ha : a ∈ i.fSources)
    (hb : b ∈ i.fSources) (h : s.f[a] = none ∨ s.f[b] = none) : exec i s = Spec.fault 8 s :=
  h.elim (exec_of_f_none hwf ha) (exec_of_f_none hwf hb)

/-- A field source and an integer source, at least one unwritten: code 8 (R219). -/
theorem exec_of_f_or_x_none {i : Instr} {s : State} {a : FReg} {b : XReg} (hwf : i.wellFormed = true) (ha : a ∈ i.fSources)
    (hb : b ∈ i.xSources) (h : s.f[a] = none ∨ s.x[b] = none) : exec i s = Spec.fault 8 s :=
  h.elim (exec_of_f_none hwf ha) (exec_of_x_none hwf hb)

/-- `f[d] <- (r, p)` over the modulus of `e`, and the record of success (R11, R223): how the statements of the field layer end. -/
abbrev fieldResult (s : State) (d : FReg) (e : FieldElement) (r : Int) : Spec.Result :=
  .next { s with f := s.f.set d (some { value := BigInt.big r, modulus := e.modulus }), err := 0 }

/-- What the outcome of a field command says of its error record and its destination. -/
theorem exists_next_of_fieldResult {s : State} {o : Spec.Result} {d : FReg} {e : FieldElement} {r : Int}
    (h : o = fieldResult s d e r) :
    ∃ t, o = .next t ∧ t.err = 0 ∧ t.f[d] = some { value := BigInt.big r, modulus := e.modulus } :=
  ⟨_, h, rfl, by simp⟩

/-- A residue over a modulus that some register holds always fits, so it is stored, with that modulus unchanged (R26, R181). -/
theorem finish_writeF_emod {s : State} (hs : s.Inv) {a : FReg} {e : FieldElement} (he : s.f[a] = some e) (d : FReg) (z : Int) :
    s.finish (writeF s d (emod z e.modulus.val) e.modulus.val) = fieldResult s d e (emod z e.modulus.val) := by
  have hmod : s.Fits e.modulus.val := hs.fits_modulus he
  have hres : s.Fits (emod z e.modulus.val) := State.fits_mono hmod (emod_natAbs_le z (hs.modulus_pos he).ne')
  have hbig : BigInt.big e.modulus.val = e.modulus := BigInt.big_val (hs.storedF he).2.1.1
  rw [writeF_eq_ok.2 ⟨⟨hres, hmod⟩, rfl⟩, hbig]; rfl

/-! ## FNEW and FEQ (R180, R189) -/

theorem exec_fnew_of_some {s : State} {a b : XReg} {u v : BigInt} (hu : s.x[a] = some u) (hv : s.x[b] = some v) (d : FReg) :
    exec (.fnew d a b) s =
      s.finish (if 0 ≤ u.val ∧ u.val < v.val then writeF s d u.val v.val else .error .outOfRange) := by
  rw [exec, execFnew, readX_of hu, readX_of hv, ok_bind, ok_bind]

/-- Settles O48: a pair in range is what a field register may hold, so the write primitive stores exactly it. -/
theorem fnewChecksTheRange : Obligations.FnewChecksTheRange := by
  intro d a b s hs
  refine ⟨decode_word (by simp [selectRow]) rfl rfl, exec_of_either_x_none rfl (.head _) (.tail _ (.head _)),
    fun u v hu hv => ?_⟩
  rw [exec_fnew_of_some hu hv]
  refine ⟨fun hin => ?_, fun hout => ?_⟩
  · have hstored : FieldElement.Stored s.params { value := u, modulus := v } :=
      ⟨hs.stored hu, hs.stored hv, hin.1, hin.2⟩
    rw [if_pos hin]; exact finish_writeF_val hstored d
  · rw [if_neg hout]; exact finish_error_eq_fault s .outOfRange

theorem exec_feq_of_some {s : State} {a b : FReg} {e g : FieldElement} (he : s.f[a] = some e) (hg : s.f[b] = some g) :
    exec (.feq a b) s =
      Spec.writeRes s (truthResult (decide (e.value.val = g.value.val ∧ e.modulus.val = g.modulus.val))) := by
  rw [exec, execFeq, readF_of he, readF_of hg]; rfl

/-- Settles O54: the command compares both integers, and on what registers hold that is equality of the elements. -/
theorem feqComparesValueAndModulus : Obligations.FeqComparesValueAndModulus := by
  intro a b s hs
  refine ⟨decode_word (by simp [selectRow]) ⟨rfl, rfl⟩ rfl, exec_of_either_f_none rfl (.head _) (.tail _ (.head _)),
    fun e g he hg => ?_⟩
  have hiff := FieldElement.eq_iff_val (hs.storedF he) (hs.storedF hg)
  rw [exec_feq_of_some he hg]
  refine ⟨fun heq => ⟨hiff.2 heq, ?_⟩, fun hne => ⟨mt hiff.1 hne, ?_⟩⟩
  · rw [decide_eq_true heq]; rfl
  · rw [decide_eq_false hne]; rfl

/-! ## FADD, FSUB, FMUL, FDIV: two elements of one field (R181 to R187) -/

section
variable {s : State} {a b : FReg} {e g : FieldElement} (he : s.f[a] = some e) (hg : s.f[b] = some g)
include he hg

theorem finish_binaryF_of_modulus_ne (hne : e.modulus.val ≠ g.modulus.val) (op : Int → Int → Int) (d : FReg) :
    s.finish (binaryF op d a b s) = Spec.fault 5 s := by
  rw [binaryF, readF_of he, readF_of hg, ok_bind, ok_bind, compat, if_neg hne, error_bind]
  exact finish_error_eq_fault s .incompatibleField

theorem finish_binaryF_of_modulus_eq (hs : s.Inv) (heq : e.modulus.val = g.modulus.val) (op : Int → Int → Int) (d : FReg) :
    s.finish (binaryF op d a b s) = fieldResult s d e (emod (op e.value.val g.value.val) e.modulus.val) := by
  rw [binaryF, readF_of he, readF_of hg, ok_bind, ok_bind, compat, if_pos heq, ok_bind, finish_writeF_emod hs he]

theorem exec_fdiv_of_modulus_ne (hne : e.modulus.val ≠ g.modulus.val) (d : FReg) :
    exec (.fdiv d a b) s = Spec.fault 5 s := by
  rw [exec, execFdiv, readF_of he, readF_of hg, ok_bind, ok_bind, compat, if_neg hne, error_bind]
  exact finish_error_eq_fault s .incompatibleField

theorem exec_fdiv_of_zero (heq : e.modulus.val = g.modulus.val) (hzero : g.value.val = 0) (d : FReg) :
    exec (.fdiv d a b) s = Spec.fault 3 s := by
  rw [exec, execFdiv, readF_of he, readF_of hg, ok_bind, ok_bind, compat, if_pos heq, ok_bind, if_pos hzero]
  exact finish_error_eq_fault s .divisionByZero

theorem exec_fdiv_of_ne_zero (hs : s.Inv) (heq : e.modulus.val = g.modulus.val) (hne : g.value.val ≠ 0) (d : FReg) :
    exec (.fdiv d a b) s = fieldResult s d e
      (emod (e.value.val * emod (g.value.val ^ (e.modulus.val - 2).toNat) e.modulus.val) e.modulus.val) := by
  rw [exec, execFdiv, readF_of he, readF_of hg, ok_bind, ok_bind, compat, if_pos heq, ok_bind, if_neg hne, modpow_eq,
    finish_writeF_emod hs he]

end

/-- Settles O49: the three commands are `binaryF` with the sum, the difference and the product. -/
theorem fieldArithmeticIsModular : Obligations.FieldArithmeticIsModular := by
  intro d a b s hs
  refine ⟨decode_word (by simp [selectRow]) rfl rfl, decode_word (by simp [selectRow]) rfl rfl,
    decode_word (by simp [selectRow]) rfl rfl, fun hnone => ⟨?_, ?_, ?_⟩, fun e g he hg => ⟨fun hne => ?_, fun heq => ?_⟩⟩
  · exact exec_of_either_f_none rfl (.head _) (.tail _ (.head _)) hnone
  · exact exec_of_either_f_none rfl (.head _) (.tail _ (.head _)) hnone
  · exact exec_of_either_f_none rfl (.head _) (.tail _ (.head _)) hnone
  · have hfault := finish_binaryF_of_modulus_ne he hg hne
    exact ⟨hfault _ d, hfault _ d, hfault _ d⟩
  · have hresult := finish_binaryF_of_modulus_eq he hg hs heq
    exact ⟨hresult _ d, hresult _ d, hresult _ d⟩

/-- Settles O51: a nonzero divisor makes the modulus at least 2, the square-and-multiply loop is the power (`modpow_eq`), and modulo a
prime that power is the inverse (`emod_fermat_quotient_mul`). -/
theorem fdivUsesTheFermatInverse : Obligations.FdivUsesTheFermatInverse := by
  intro d a b s hs
  refine ⟨decode_word (by simp [selectRow]) rfl rfl, exec_of_either_f_none rfl (.head _) (.tail _ (.head _)),
    fun e g he hg => ⟨fun hne => exec_fdiv_of_modulus_ne he hg hne d,
      fun heq hzero => exec_fdiv_of_zero he hg heq hzero d, fun heq hne => ?_⟩⟩
  have htwo : 2 ≤ g.modulus.val := (hs.storedF hg).two_le_modulus hne
  obtain ⟨-, -, he0, he1⟩ := hs.storedF he
  obtain ⟨-, -, hg0, hg1⟩ := hs.storedF hg
  refine ⟨heq ▸ htwo, exec_fdiv_of_ne_zero he hg hs heq hne d, fun hprime => ?_⟩
  rw [emod_fermat_quotient_mul hprime (lt_of_le_of_ne' hg0 hne) (heq ▸ hg1), emod_eq_of_range he0 he1]

/-! ## FSMUL and FPOW: an element and an integer (R185, R188) -/

section
variable {s : State} {a : FReg} {b : XReg} {e : FieldElement} {v : BigInt} (he : s.f[a] = some e) (hv : s.x[b] = some v)
include he hv

theorem exec_fsmul_of_some (hs : s.Inv) (d : FReg) :
    exec (.fsmul d a b) s = fieldResult s d e (emod (e.value.val * v.val) e.modulus.val) := by
  rw [exec, execFsmul, readF_of he, readX_of hv, ok_bind, ok_bind, finish_writeF_emod hs he]

theorem exec_fpow_of_modulus_eq_one (hone : e.modulus.val = 1) (d : FReg) : exec (.fpow d a b) s = Spec.fault 3 s := by
  rw [exec, execFpow, readF_of he, readX_of hv, ok_bind, ok_bind, if_pos (by rw [hone]; rfl)]
  exact finish_error_eq_fault s .divisionByZero

theorem exec_fpow_of_modulus_ne_one (hs : s.Inv) (hne : e.modulus.val ≠ 1) (d : FReg) :
    exec (.fpow d a b) s =
      fieldResult s d e (emod (e.value.val ^ (emod v.val (e.modulus.val - 1)).toNat) e.modulus.val) := by
  rw [exec, execFpow, readF_of he, readX_of hv, ok_bind, ok_bind, if_neg (by omega), modpow_eq, finish_writeF_emod hs he]

theorem exists_next_fpow (hs : s.Inv) (hne : e.modulus.val ≠ 1) (d : FReg) :
    ∃ t, exec (.fpow d a b) s = .next t ∧ t.err = 0 ∧ t.f[d] = some
      { value := BigInt.big (emod (e.value.val ^ (emod v.val (e.modulus.val - 1)).toNat) e.modulus.val)
        modulus := e.modulus } :=
  exists_next_of_fieldResult (exec_fpow_of_modulus_ne_one he hv hs hne d)

end

/-- Settles O50: the residue stored is `emod`, which R9's identity and range fix. -/
theorem fsmulTakesAnyScalar : Obligations.FsmulTakesAnyScalar := by
  intro d a b s hs
  refine ⟨decode_word (by simp [selectRow]) rfl rfl, exec_of_f_or_x_none rfl (.head _) (.head _), fun e v he hv => ?_⟩
  obtain ⟨hnonneg, hlt⟩ := emod_range (z := e.value.val * v.val) (hs.modulus_pos he)
  exact ⟨_, ⟨_, (ediv_mul_add_emod ..).symm⟩, hnonneg, hlt, exec_fsmul_of_some he hv hs d⟩

/-- Settles O52: the only guard is on the modulus, and the square-and-multiply loop is the power with the reduced exponent. -/
theorem fpowReducesTheExponent : Obligations.FpowReducesTheExponent := by
  intro d a b s hs
  exact ⟨decode_word (by simp [selectRow]) rfl rfl, exec_of_f_or_x_none rfl (.head _) (.head _), fun e v he hv =>
    ⟨fun hone => exec_fpow_of_modulus_eq_one he hv hone d, fun hne => exec_fpow_of_modulus_ne_one he hv hs hne d⟩⟩

/-! ## Fermat consistency (R194) -/

/-- Settles O53: the exponent `p - 1` reduces to 0; the other two laws are those of the inverse and of integer powers in the field
(`emod_fermat_quotient_self`, `emod_pow_add`). -/
theorem fermatConsistency : Obligations.FermatConsistency := by
  intro d a x1 x2 x3 s e v1 v2 v3 hs he hprime hne hv1 hv2 hv3 hsum one
  have htwo : 2 ≤ e.modulus.val := (hs.storedF he).two_le_modulus hne
  have hmod : e.modulus.val ≠ 1 := by omega
  obtain ⟨-, -, h0, h1⟩ := hs.storedF he
  have hpos : 0 < e.value.val := lt_of_le_of_ne' h0 hne
  refine ⟨fun hexp => ?_, ?_, ?_⟩
  · have hreduced : emod v1.val (e.modulus.val - 1) = 0 := by rw [hexp]; exact Int.emod_self
    have hone : emod 1 e.modulus.val = 1 := emod_eq_of_range (by decide) (by omega)
    have hresult := exists_next_fpow he hv1 hs hmod d
    rwa [hreduced, Int.toNat_zero, pow_zero, hone, BigInt.big_one] at hresult
  · have hresult := exists_next_of_fieldResult (exec_fdiv_of_ne_zero he he hs rfl hne d)
    rwa [emod_fermat_quotient_self hprime hpos h1, BigInt.big_one] at hresult
  · obtain ⟨t1, hexec1, -, hf1⟩ := exists_next_fpow he hv1 hs hmod d
    obtain ⟨t2, hexec2, -, hf2⟩ := exists_next_fpow he hv2 hs hmod d
    obtain ⟨t3, hexec3, -, hf3⟩ := exists_next_fpow he hv3 hs hmod d
    refine ⟨t1, t2, t3, _, _, _, hexec1, hf1, hexec2, hf2, hexec3, hf3, ?_⟩
    rw [BigInt.val_big, BigInt.val_big, BigInt.val_big, hsum]
    exact emod_pow_add hprime hpos h1 _ _

end Sys2Proof.Machine
end

section
/-! Helper functions (48_helpers.md): ILOG (R201), POW (R202), POWM (R203, R186), and what POWM shares with FPOW and FDIV (R204). -/

namespace Sys2Proof

/-! ## The floor logarithm (R201) -/

theorem floorLog_spec_int {b v : Int} (hb : 2 ≤ b) (hv : 1 ≤ v) :
    b ^ floorLog b.toNat v.toNat ≤ v ∧ v < b ^ (floorLog b.toNat v.toNat + 1) := by
  lift b to Nat using by omega
  lift v to Nat using by omega
  exact_mod_cast floorLog_spec (b := b) (v := v) (by omega) (by omega)

/-- `k < b^k <= v`: the logarithm is no larger than its operand, so it fits wherever that does. -/
theorem floorLog_le {b v : Nat} (hb : 2 ≤ b) (hv : 1 ≤ v) : floorLog b v ≤ v :=
  (Nat.lt_pow_self hb).le.trans (floorLog_spec hb hv).1

/-! ## POWM's modulus register (R71) -/

theorem selectRow_powm (d a b m : XReg) :
    selectRow (assemble (Spec.r4 m) (BitVec.ofFin b) (BitVec.ofFin a) (BitVec.ofFin d) 0x83) = some (.powm d a b m) := by
  simp [selectRow, r4_eq_setWidth, r4_field]

end Sys2Proof

namespace Sys2Proof.Machine

/-! ## ILOG and POW with two written sources (R201, R202) -/

section
variable {s : State} {a b : XReg} {u v : BigInt} (hu : s.x[a] = some u) (hv : s.x[b] = some v)
include hu hv

theorem exec_ilog_of_domain (h : v.val < 1 ∨ u.val ≤ 0 ∨ v.val = 1) (d : XReg) : exec (.ilog d a b) s = Spec.fault 6 s := by
  rw [exec, execIlog, readX_of hu, readX_of hv, ok_bind, ok_bind]
  by_cases hlow : v.val < 1 ∨ u.val ≤ 0
  · rw [if_pos hlow]; exact finish_error_eq_fault s .domainError
  · rw [if_neg hlow, if_pos (by omega)]; exact finish_error_eq_fault s .domainError

theorem exec_ilog_of_floorLog (hs : s.Inv) (hbase : 2 ≤ v.val) (harg : 1 ≤ u.val) (d : XReg) :
    exec (.ilog d a b) s =
      .next { s with x := s.x.set d (some (BigInt.big (floorLog v.val.toNat u.val.toNat))), err := 0 } := by
  have hle : floorLog v.val.toNat u.val.toNat ≤ u.val.toNat := floorLog_le (by omega) (by omega)
  have hfits : s.Fits (floorLog v.val.toNat u.val.toNat) := State.fits_of_le (hs.fits hu) (by omega) (by omega)
  rw [exec, execIlog, readX_of hu, readX_of hv, ok_bind, ok_bind, if_neg (by omega), if_neg (by omega),
    finish_writeX_of_fits hfits]

theorem exec_pow_of_neg (hneg : v.val < 0) (d : XReg) : exec (.pow d a b) s = Spec.fault 6 s := by
  rw [exec, execPow, readX_of hu, readX_of hv, ok_bind, ok_bind, if_pos hneg]
  exact finish_error_eq_fault s .domainError

theorem exec_pow_of_nonneg (hs : s.Inv) (hnonneg : 0 ≤ v.val) (d : XReg) :
    exec (.pow d a b) s = Spec.writeX s d (u.val ^ v.val.toNat) := by
  rw [exec, execPow, readX_of hu, readX_of hv, ok_bind, ok_bind, if_neg hnonneg.not_gt, writePower_eq hs.params.1,
    finish_writeX hs]

end

/-- Settles O55: the digit count of `v` is the floor logarithm (`floorLog_spec_int`), which is no larger than `v` and so always fits. -/
theorem ilogIsTheFloorLogarithm : Obligations.IlogIsTheFloorLogarithm := by
  intro d a b s hs
  exact ⟨decode_word (by simp [selectRow]) rfl rfl, exec_of_either_x_none rfl (.head _) (.tail _ (.head _)),
    fun v g hv hg => ⟨fun hdomain => exec_ilog_of_domain hv hg hdomain d, fun hbase harg =>
      have hfloor := floorLog_spec_int hbase harg
      ⟨_, hfloor.1, hfloor.2, exec_ilog_of_floorLog hv hg hs hbase harg d⟩⟩⟩

/-- Settles O56: the guarded write of a power is the plain one (`writePower_eq`, log entry 15), so only a negative exponent is refused. -/
theorem powIsTheExactPower : Obligations.PowIsTheExactPower := by
  intro d a b s hs
  exact ⟨decode_word (by simp [selectRow]) rfl rfl, exec_of_either_x_none rfl (.head _) (.tail _ (.head _)),
    fun g e hg he => ⟨fun hneg => exec_pow_of_neg hg he hneg d, fun hnonneg => exec_pow_of_nonneg hg he hs hnonneg d⟩⟩

/-! ## POWM with three written sources (R203) -/

section
variable {s : State} {a b m : XReg} {g e p : BigInt} (hg : s.x[a] = some g) (he : s.x[b] = some e) (hp : s.x[m] = some p)
include hg he hp

theorem exec_powm_of_some (d : XReg) :
    exec (.powm d a b m) s =
      s.finish (if p.val = 0 then .error .divisionByZero else if e.val < 0 then .error .domainError else
        writeX s d (emod (g.val ^ e.val.toNat) p.val)) := by
  rw [exec, execPowm, readX_of hg, readX_of he, readX_of hp, ok_bind, ok_bind, ok_bind, modpow_eq]

/-- The remainder is no larger than the modulus, which a register holds, so it is always stored (R220). -/
theorem exec_powm_of_ne_zero (hs : s.Inv) (hne : p.val ≠ 0) (hnonneg : 0 ≤ e.val) (d : XReg) :
    exec (.powm d a b m) s =
      .next { s with x := s.x.set d (some (BigInt.big (emod (g.val ^ e.val.toNat) p.val))), err := 0 } := by
  rw [exec_powm_of_some hg he hp, if_neg hne, if_neg hnonneg.not_gt, finish_writeX_of_fits (hs.fits_emod hp hne _)]

theorem exists_next_powm (hs : s.Inv) (hne : p.val ≠ 0) (hnonneg : 0 ≤ e.val) (d : XReg) :
    ∃ t, exec (.powm d a b m) s = .next t ∧ t.x[d] = some (BigInt.big (emod (g.val ^ e.val.toNat) p.val)) :=
  ⟨_, exec_powm_of_ne_zero hg he hp hs hne hnonneg d, by simp⟩

end

/-- Settles O57: the two checks in their order, then the square-and-multiply loop, which is the remainder of the power (`modpow_eq`). -/
theorem powmIsTheModularPower : Obligations.PowmIsTheModularPower := by
  intro d a b m s hs
  refine ⟨decode_word (selectRow_powm d a b m) (by rw [r4_eq_setWidth]; exact r4_unused _) rfl, fun hnone => ?_,
    fun g e p hg he hp => ⟨fun hzero => ?_, fun hne hneg => ?_, fun hne hnonneg =>
      ⟨modpow_eq _ _ _, exec_powm_of_ne_zero hg he hp hs hne hnonneg d⟩⟩⟩
  · rcases hnone with ha | hbm
    · exact exec_of_x_none rfl (.head _) ha
    · exact exec_of_either_x_none rfl (.tail _ (.head _)) (.tail _ (.tail _ (.head _))) hbm
  · rw [exec_powm_of_some hg he hp, if_pos hzero]; exact finish_error_eq_fault s .divisionByZero
  · rw [exec_powm_of_some hg he hp, if_neg hne, if_pos hneg]; exact finish_error_eq_fault s .domainError

/-! ## POWM and the field layer (R204) -/

/-- Settles O58: below `p - 1` FPOW's reduced exponent is the exponent itself, and FDIV's inverse is by definition the power with the
exponent `p - 2`; POWM delivers the same two powers modulo `p`. -/
theorem helpersAgreeWithTheFieldLayer : Obligations.HelpersAgreeWithTheFieldLayer := by
  intro d a c xd xv xe xm s g h e hs hg htwo hv hm he
  have hpowm := exists_next_powm hv he hm hs (by omega)
  refine ⟨fun hnonneg hlt => ?_, fun hh hmod hne hexp => ?_⟩
  · have hreduced : emod e.val (g.modulus.val - 1) = e.val := emod_eq_of_range hnonneg hlt
    obtain ⟨t, hfpow, -, hf⟩ := exists_next_fpow hg he hs (by omega) d
    obtain ⟨t', hexec, hx⟩ := hpowm hnonneg xd
    rw [hreduced] at hf
    exact ⟨t, t', _, hfpow, hexec, hf, hx⟩
  · obtain ⟨t, hfdiv, -, hf⟩ := exists_next_of_fieldResult (exec_fdiv_of_ne_zero hh hg hs hmod hne d)
    obtain ⟨t', hexec, hx⟩ := hpowm (by omega) xd
    refine ⟨t, t', _, _, hfdiv, hexec, hf, hx, ?_⟩
    rw [BigInt.val_big, BigInt.val_big, hmod, hexp]

end Sys2Proof.Machine
end

section
/-! Exceptions (60_exceptions.md): what issuing a word does (R218), how a command ends (R222, R223), which commands raise
IllegalCommand and UnwrittenRegister (R218, R219), and CLRERR (R230). -/

namespace Sys2Proof

theorem CmdFault.one_le_code (c : CmdFault) : 1 ≤ c.code.toNat := by cases c <;> decide

/-! ## Which words the decoder rejects (R76, R77) -/

theorem exists_decode_error_of_not_selects {cw : CmdWord} (h : ¬∃ row, Spec.Selects cw row) : ∃ e, decode cw = .error e := by
  cases hdec : decode cw with
  | ok i =>
    obtain ⟨row, hrow, -⟩ := decode_eq_ok_iff_selects.1 hdec
    exact absurd ⟨row, hrow⟩ h
  | error e => exact ⟨e, rfl⟩

/-- With CLRERR's opcode a word has no field that may be nonzero (R72, format Z). -/
theorem decode_eq_ok_of_opcode_clrerr {cw : CmdWord} (hop : opField cw = 0xF0) {i : Instr} :
    decode cw = .ok i ↔ cw = 0x000000F0 ∧ i = .clrerr := by
  have hsel : selectRow cw = some .clrerr := by unfold selectRow; rw [hop]; rfl
  have hmask : cw &&& Instr.clrerr.format.mask = cw := BitVec.and_allOnes
  rw [decode_eq_ok, hsel, Option.some.injEq]
  constructor
  · rintro ⟨rfl, hcw, -⟩
    rw [hmask, hop] at hcw
    exact ⟨hcw, rfl⟩
  · rintro ⟨rfl, rfl⟩
    exact ⟨rfl, rfl, rfl⟩

end Sys2Proof

namespace Sys2Proof.Machine

/-! ## Issuing a word (R6, R218) -/

theorem issueCommand_of_decode_ok {cw : CmdWord} {i : Instr} (h : decode cw = .ok i) (s : State) :
    issueCommand cw s = exec i s := by
  rw [issueCommand, h]

theorem issueCommand_of_decode_error {cw : CmdWord} {e : DecodeError} (h : decode cw = .error e) (s : State) :
    issueCommand cw s = Spec.fault 7 s := by
  rw [issueCommand, h]; exact finish_error_eq_fault s .illegalCommand

theorem step_of_issue {cw : CmdWord} {rest : List HostTxn} {s : State} (h : s.host = .issue cw :: rest) :
    step s = issueCommand cw { s with host := rest } := by
  rw [step, nextTransaction, h]; rfl

/-! ## How a command ends (R222, R223) -/

/-- What a successful command leaves in EFIRST (R35, R230). -/
theorem Wrote.efirst {i : Instr} {s t : State} (h : Wrote i s t) : t.efirst = if i = .clrerr then 0 else s.efirst := by
  have keeps (hi : i ≠ .clrerr) : s.efirst = if i = .clrerr then 0 else s.efirst := (if_neg hi).symm
  cases h with
  | clear hi => exact (if_pos hi).symm
  | x _ _ hd => exact keeps (by rintro rfl; cases hd)
  | xx _ _ _ _ hd => exact keeps (by rintro rfl; cases hd)
  | f _ _ _ _ hf => exact keeps (by rintro rfl; cases hf)
  | res _ _ _ hr => exact keeps (by rintro rfl; cases hr)
  | out _ _ _ _ hs => exact keeps (by rintro rfl; cases hs)

/-- A command leaves in ERR no code of a fault it does not raise. -/
theorem exists_next_err_ne_code {i : Instr} {s : State} {c : CmdFault} (h : ¬Raises i s c) :
    ∃ t, exec i s = .next t ∧ t.err ≠ c.code := by
  rcases exec_cases i s with ⟨t, hexec, -⟩ | ⟨d, hexec⟩
  · exact ⟨_, hexec, c.code_ne_zero.symm⟩
  · have hraises : Raises i s d := exec_raises hexec
    refine ⟨_, hexec, fun hcode => h ?_⟩
    rwa [← CmdFault.code_inj.1 hcode]

theorem not_raises_illegalCommand {i : Instr} {s : State} (hwf : i.wellFormed = true) : ¬Raises i s .illegalCommand := by
  intro h
  cases h with
  | illegal hill => rw [hwf] at hill; cases hill
  | own _ hown => cases hown

theorem not_raises_unwrittenRegister {i : Instr} {s : State} (hsrc : ¬s.LacksSource i) : ¬Raises i s .unwrittenRegister := by
  intro h
  cases h with
  | unwritten hlacks => exact hsrc hlacks
  | own _ hown => cases hown

/-- Settles O5: the decoder accepts exactly the words that a row selects; a rejected word records code 7, an accepted one is a
well-formed command, and such a command never raises IllegalCommand. -/
theorem illegalWordsRaiseIllegalCommand : Obligations.IllegalWordsRaiseIllegalCommand := by
  intro cw rest s hhost
  rw [step_of_issue hhost]
  refine ⟨fun hnone => ?_, fun ⟨row, hrow⟩ => ?_⟩
  · obtain ⟨e, hdec⟩ := exists_decode_error_of_not_selects hnone
    exact issueCommand_of_decode_error hdec _
  · have hdec : decode cw = .ok (row.2.2 cw) := decode_eq_ok_iff_selects.2 ⟨row, hrow, rfl⟩
    obtain ⟨-, -, hwf⟩ := decode_eq_ok.1 hdec
    rw [issueCommand_of_decode_ok hdec]
    exact exists_next_err_ne_code (not_raises_illegalCommand hwf)

/-- Settles O9: a rejected word records code 7; a command ends with its writes and the record of success, or with one fault's record
(`exec_cases`). -/
theorem everyCommandSucceedsOrRecordsOneFault : Obligations.EveryCommandSucceedsOrRecordsOneFault := by
  intro cw s
  cases hdec : decode cw with
  | error e => exact .inr ⟨7, by decide, by decide, issueCommand_of_decode_error hdec s⟩
  | ok i =>
    rw [issueCommand_of_decode_ok hdec]
    rcases exec_cases i s with ⟨t, hexec, hwrote⟩ | ⟨c, hexec⟩
    · exact .inl ⟨i, t.succeed, rfl, hexec, rfl, hwrote.efirst⟩
    · exact .inr ⟨c.code, c.one_le_code, c.code_le, hexec⟩

/-- Settles O10: an unwritten source is found before the command's own checks (`exec_lacks`), and nothing else raises code 8. -/
theorem unwrittenSourcesAreFoundFirst : Obligations.UnwrittenSourcesAreFoundFirst :=
  fun _ _ hwf => ⟨exec_lacks hwf, fun hsrc => exists_next_err_ne_code (not_raises_unwrittenRegister hsrc)⟩

/-! ## CLRERR (R230) -/

theorem exec_clrerr (s : State) : exec .clrerr s = .next { s with err := 0, efirst := 0 } := rfl

/-- Settles O59: of the words with CLRERR's opcode the decoder accepts one. -/
theorem clrerrClearsTheStickyRecord : Obligations.ClrerrClearsTheStickyRecord := by
  refine ⟨exec_clrerr, fun cw s hop => ?_⟩
  replace hop : opField cw = 0xF0 := hop
  split
  · next hcw => rw [issueCommand_of_decode_ok ((decode_eq_ok_of_opcode_clrerr hop).2 ⟨hcw, rfl⟩), exec_clrerr]
  · next hcw =>
    cases hdec : decode cw with
    | ok i => exact absurd ((decode_eq_ok_of_opcode_clrerr hop).1 hdec).1 hcw
    | error e => exact issueCommand_of_decode_error hdec s

end Sys2Proof.Machine
end

section
/-! Decoding and encoding are inverse to each other (O3, O4): the encoder fills a command's unused fields with zero, the decoder
selects by the opcode and reads the used fields back. -/

namespace Sys2Proof

open Laws

/-! ## From a command to its word and back (R71 to R75) -/

/-- The encoder's words pass their format's mask, whatever the command (R72, R77). -/
theorem encode_and_mask (i : Instr) : encode i &&& i.format.mask = i.opcode.setWidth 32 :=
  i.casesOn (motive := EncodingRow.Statement)
    EncodingRow.ldn EncodingRow.parse EncodingRow.parsed EncodingRow.ldm EncodingRow.mov EncodingRow.cmp EncodingRow.add
    EncodingRow.sub EncodingRow.neg EncodingRow.mul EncodingRow.div EncodingRow.mod EncodingRow.divmod EncodingRow.and
    EncodingRow.or EncodingRow.xor EncodingRow.not EncodingRow.shl EncodingRow.shr EncodingRow.twos EncodingRow.fill
    EncodingRow.bits EncodingRow.bit EncodingRow.cast EncodingRow.str EncodingRow.stm EncodingRow.sign EncodingRow.bytes
    EncodingRow.digits EncodingRow.fnew EncodingRow.fadd EncodingRow.fsub EncodingRow.fmul EncodingRow.fsmul EncodingRow.fdiv
    EncodingRow.fpow EncodingRow.feq EncodingRow.fgetv EncodingRow.fgetm EncodingRow.fmov EncodingRow.abs EncodingRow.ilog
    EncodingRow.pow EncodingRow.powm EncodingRow.clrerr

/-- The opcode selects the command's row, and its operands are the fields it was encoded in (R71, R73, R75). -/
theorem selectRow_encode (i : Instr) : selectRow (encode i) = some i := by
  cases i <;> simp [encode, selectRow, Instr.opcode, Instr.imm12, Instr.rc, Instr.rb, Instr.ra, NativeType.code_field,
    NativeType.ofCode_code, r4_field]

/-- Settles O3: a command's word selects the command, passes its mask and is well-formed because the command is. -/
theorem decodeReadsBackEncode : Obligations.DecodeReadsBackEncode := by
  intro i hwf
  have hop : opField (encode i) = i.opcode := opField_assemble ..
  exact decode_eq_ok.2 ⟨selectRow_encode i, hop ▸ encode_and_mask i, hwf⟩

/-! ## From an accepted word to its command and back (R77, R79) -/

/-- A word that passes the mask of its command's format has nothing in the fields the format does not use (R77). -/
theorem unused_of_mask {cw : CmdWord} {f : Format} (h : cw &&& f.mask = (opField cw).setWidth 32) :
    f.Unused (imm12Field cw) (rcField cw) (rbField cw) (raField cw) := by
  rw [← assemble_mask_iff _ _ _ _ _ (opField cw), assemble_fields, h]

/-- The fields of the encoder's word are those the decoder read the operands from, or zero in both words. -/
theorem fields_of_selectRow {cw : CmdWord} {i : Instr} (hsel : selectRow cw = some i)
    (hunused : i.format.Unused (imm12Field cw) (rcField cw) (rbField cw) (raField cw)) :
    i.imm12 = imm12Field cw ∧ i.rc = rcField cw ∧ i.rb = rbField cw ∧ i.ra = raField cw := by
  unfold selectRow at hsel
  dsimp only at hsel
  split at hsel <;> cases hsel
  case h_1 | h_24 =>
    obtain ⟨himm, hrc, hr⟩ := hunused
    have hcode := setWidth_code_field himm
    simp [Instr.imm12, Instr.rc, Instr.rb, Instr.ra, NativeType.code_ofCode, hcode, hrc, hr]
  case h_4 =>
    obtain ⟨himm, hrc, hrb⟩ := hunused
    exact ⟨setWidth_sign_field himm, hrc.symm, hrb.symm, rfl⟩
  case h_13 | h_44 => exact ⟨setWidth_r4_field hunused, rfl, rfl, rfl⟩
  all_goals
    simp only [Instr.format, Format.Unused] at hunused
    simp [Instr.imm12, Instr.rc, Instr.rb, Instr.ra, hunused]

/-- Settles O4: the accepted word and the encoder's agree in the opcode, in the fields the command has (`fields_of_selectRow`) and in
those it has not, which the mask holds at zero. -/
theorem encodeReadsBackDecode : Obligations.EncodeReadsBackDecode := by
  intro cw i hdec
  obtain ⟨hsel, hmask, hwf⟩ := decode_eq_ok.1 hdec
  obtain ⟨himm, hrc, hrb, hra⟩ := fields_of_selectRow hsel (unused_of_mask hmask)
  refine ⟨?_, hwf⟩
  rw [encode, himm, hrc, hrb, hra, ← selectRow_op hsel, assemble_fields]

end Sys2Proof
end

section
/-! The invariant of the command boundary (10_state.md, 47_field.md section 4): reset establishes it and every step keeps it. -/

namespace Sys2Proof.Machine

/-! ## One step (R6, R61, R235) -/

theorem step_of_idle {s : State} (h : s.host = []) : step s = .next s := by rw [step, nextTransaction, h]

theorem step_of_host {t : HostTxn} {rest : List HostTxn} {s : State} (h : s.host = t :: rest) :
    step s = transact t { s with host := rest } := by
  rw [step, nextTransaction, h]

/-! ## Commands keep the invariant -/

/-- Each kind of write, with the record of success after it, keeps the invariant (R22 to R27, R36, R37, R230). -/
theorem State.Inv.of_wrote {i : Instr} {s t : State} (hs : s.Inv) (h : Wrote i s t) : t.succeed.Inv := by
  cases h with
  | x d z _ _ _ _ hz => exact (hs.setX d (BigInt.big_stored hz)).succeed
  | xx q r z y _ _ _ _ hz hy => exact ((hs.setX q (BigInt.big_stored hz)).setX r (BigInt.big_stored hy)).succeed
  | f d v p _ _ _ _ hv hp hrange =>
    refine (hs.setF d ⟨BigInt.big_stored hv, BigInt.big_stored hp, ?_⟩).succeed
    rw [BigInt.val_big, BigInt.val_big]
    exact hrange hs
  | res v => exact (hs.setRes v).succeed
  | out bs _ _ _ _ hlen => exact (hs.storeOutput hlen).succeed
  | clear => exact hs.clearFirst

theorem State.Inv.of_exec {i : Instr} {s t : State} (hs : s.Inv) (h : exec i s = .next t) : t.Inv := by
  rcases exec_cases i s with ⟨u, hexec, hwrote⟩ | ⟨c, hexec⟩ <;> rw [hexec] at h <;> cases h
  · exact hs.of_wrote hwrote
  · exact hs.takeFault c

theorem State.Inv.of_issueCommand {cw : CmdWord} {s t : State} (hs : s.Inv) (h : issueCommand cw s = .next t) : t.Inv := by
  unfold issueCommand at h
  split at h
  · exact hs.of_exec h
  · cases h; exact hs.takeFault .illegalCommand

/-! ## Host transactions keep the invariant (R31, R52) -/

/-- The host's list and the answers are no part of the invariant. -/
theorem State.Inv.with_host {s : State} (hs : s.Inv) (txns : List HostTxn) : ({ s with host := txns } : State).Inv :=
  { hs with }

theorem State.Inv.reply {s : State} (hs : s.Inv) (r : HostReply) : (s.reply r).Inv :=
  { hs with }

theorem State.Inv.of_readCsr {n : Nat} {s t : State} (hs : s.Inv) (h : readCsr n s = .next t) : t.Inv := by
  unfold readCsr at h
  split at h <;> cases h
  exact hs.reply _

theorem State.Inv.of_writeCsr {n : Nat} {v : Dword} {s t : State} (hs : s.Inv) (h : writeCsr n v s = .next t) : t.Inv := by
  unfold writeCsr at h
  split at h
  case h_1 => cases h; exact { hs with }
  case h_5 =>
    split at h <;> cases h
    next hv => exact { hs with tlen := hv }
  all_goals cases h

theorem State.Inv.of_readTb {a : Nat} {s t : State} (hs : s.Inv) (h : readTb a s = .next t) : t.Inv := by
  unfold readTb at h
  split at h <;> cases h
  exact hs.reply _

theorem State.Inv.of_writeTb {a : Nat} {b : Byte} {s t : State} (hs : s.Inv) (h : writeTb a b s = .next t) : t.Inv := by
  unfold writeTb at h
  split at h <;> cases h
  next ha =>
  refine { hs with tb := Memory.wf_write hs.tb a b, tbRange := fun c hc => ?_ }
  rcases Memory.mem_write hc with rfl | hc
  · exact ha
  · exact hs.tbRange c hc

theorem State.Inv.of_transact {txn : HostTxn} {s t : State} (hs : s.Inv) (h : transact txn s = .next t) : t.Inv := by
  cases txn with
  | issue cw => exact hs.of_issueCommand h
  | readCsr n => exact hs.of_readCsr h
  | writeCsr n v => exact hs.of_writeCsr h
  | readTb a => exact hs.of_readTb h
  | writeTb a b => exact hs.of_writeTb h

/-- Settles O20: an idle step changes nothing; otherwise the host's next transaction runs, and every kind of transaction keeps the
invariant, a command by the one case lemma of the command set (`exec_cases`). -/
theorem everyStepKeepsTheInvariant : Obligations.EveryStepKeepsTheInvariant := by
  intro s t hs h
  cases hhost : s.host with
  | nil => rw [step_of_idle hhost] at h; cases h; exact hs
  | cons txn rest => rw [step_of_host hhost] at h; exact (hs.with_host rest).of_transact h

/-! ## Reset (R40) -/

theorem Config.params_inRange : Config.params.InRange := by
  have hwords := Config.maxWordsLessOne.isLt
  have hbytes := Config.tbMaxLessOne.isLt
  simp only [Config.params, Params.InRange]
  omega

theorem State.resetWith_x (p : Params) (r : XReg) : (State.resetWith p).x[r] = none := by simp [State.resetWith]

theorem State.resetWith_f (p : Params) (r : FReg) : (State.resetWith p).f[r] = none := by simp [State.resetWith]

theorem State.resetWith_inv {p : Params} (hp : p.InRange) : (State.resetWith p).Inv where
  params := hp
  x i u hu := by rw [State.resetWith_x] at hu; cases hu
  f i e he := by rw [State.resetWith_f] at he; cases he
  err := Nat.zero_le _
  efirst := Nat.zero_le _
  latch _ := rfl
  tlen := Nat.zero_le _
  tb := rfl
  tbRange _ hc := nomatch hc

/-- Settles O19: nothing is written after reset and every CSR is 0; the model's own parameters are in range. -/
theorem resetSatisfiesTheInvariant : Obligations.ResetSatisfiesTheInvariant :=
  ⟨fun _ hp => State.resetWith_inv hp, State.resetWith_inv Config.params_inRange⟩

/-- Settles O21: each clause reads one field of the reset state. -/
theorem resetState : Obligations.ResetState :=
  ⟨State.resetWith_x _, State.resetWith_f _, rfl, rfl, rfl, rfl, rfl, fun _ => rfl⟩

/-! ## The first command after reset (R241) -/

theorem State.resetWith_lacksSource (p : Params) {i : Instr} (h : i.xSources ≠ [] ∨ i.fSources ≠ []) :
    (State.resetWith p).LacksSource i := by
  rcases h with h | h
  · obtain ⟨r, hr⟩ := List.exists_mem_of_ne_nil _ h
    exact .inl ⟨r, hr, State.resetWith_x p r⟩
  · obtain ⟨r, hr⟩ := List.exists_mem_of_ne_nil _ h
    exact .inr ⟨r, hr, State.resetWith_f p r⟩

/-- A command that ends with `x[d] <- 0` after reset succeeds: 0 takes one word, which always fits. -/
theorem finish_writeX_zero_resetWith {p : Params} (hp : p.InRange) (d : XReg) :
    (State.resetWith p).finish (writeX (State.resetWith p) d 0) =
      .next { State.resetWith p with x := (State.resetWith p).x.set d (some ⟨false, [0]⟩) } :=
  finish_writeX_of_fits (show (State.resetWith p).Fits 0 from hp.1) d

/-- After reset the content is empty, and the empty string is 0 in a legal base (R92, R94). -/
theorem parseString_nil {b : Nat} (hb : legalBase b) : parseString b [] = .ok 0 := by
  unfold parseString
  rw [if_neg (not_not.2 hb)]
  split <;> rfl

theorem parseDigitValues_nil {b : Nat} (hb : 2 ≤ b) : parseDigitValues b [] = .ok 0 := if_neg hb.not_gt

theorem ofDword_zero (ty : NativeType) : ty.ofDword 0 = 0 := by
  obtain ⟨signed, width⟩ := ty
  cases signed <;> cases width <;> rfl

/-- Settles O22: no register is written, so a source is missing; TLEN and ARG are 0, so the loads and FILL write 0. -/
theorem firstCommandsAfterReset : Obligations.FirstCommandsAfterReset := by
  intro p hp
  refine ⟨fun i hwf hsrc => exec_lacks hwf (State.resetWith_lacksSource p hsrc), fun i d hi => ?_, rfl⟩
  rw [← finish_writeX_zero_resetWith hp d]
  rcases hi with ⟨b, hb, rfl⟩ | ⟨b, hb, rfl⟩ | ⟨g, rfl⟩ | ⟨ty, rfl⟩ | rfl
  · have hparse : parseString b.val (State.resetWith p).content = .ok 0 := parseString_nil hb
    rw [exec, execParse, hparse, ok_bind]
  · have hparse : parseDigitValues b.val (State.resetWith p).content = .ok 0 := parseDigitValues_nil hb
    rw [exec, execParsed, hparse, ok_bind]
  · cases g <;> rfl
  · have hzero : ty.ofDword (State.resetWith p).arg = 0 := ofDword_zero ty
    rw [exec, execLdn, hzero]
  · rw [exec, execFill, writeFill_eq hp.1]; rfl

end Sys2Proof.Machine
end

section
/-! The host's transactions (R6, R31, R52, U9) and the sample words: what one step does for each kind of transaction. -/

namespace Sys2Proof

/-- Settles O1: each word is evaluated. -/
theorem sampleWordsDecode : Obligations.SampleWordsDecode := ⟨rfl, rfl, rfl, rfl, rfl, rfl, rfl, rfl⟩

end Sys2Proof

namespace Sys2Proof.Machine

/-- The transaction of a table word of 32 bits issues that word (R70). -/
theorem issueOfTableWord_toNat (cw : CmdWord) : issueOfTableWord 32 cw.toNat = .issue cw := by
  simp [issueOfTableWord, Nat.mod_eq_of_lt cw.isLt]

/-- Settles O6: an Issue at the head is `issueCommand`, which runs what the word decodes to; `withFetchWord` puts one there. -/
theorem stepRunsTheDecodedCommand : Obligations.StepRunsTheDecodedCommand := by
  intro cw i s hdec
  refine ⟨fun rest hhost => ?_, ?_⟩
  · rw [step_of_issue hhost, issueCommand_of_decode_ok hdec]
  · rw [State.withFetchWord, issueOfTableWord_toNat, step_of_issue rfl, issueCommand_of_decode_ok hdec]

/-- R31: the five CSRs by their numbers. -/
theorem State.csr?_eq (s : State) (n : Fin 5) : s.csr? n = some #v[s.arg, s.res, s.err, s.efirst, s.tlen][n] := by
  fin_cases n <;> rfl

theorem State.csr?_of_gt {n : Nat} (hn : 4 < n) (s : State) : s.csr? n = none := by
  obtain ⟨k, rfl⟩ := Nat.exists_eq_add_of_le' hn
  rfl

theorem writeCsr_of_gt {n : Nat} (hn : 4 < n) (v : Dword) (s : State) : writeCsr n v s = .refused (.csrNumber n) := by
  obtain ⟨k, rfl⟩ := Nat.exists_eq_add_of_le' hn
  rfl

/-- Settles O7: the step is the transaction on the state with that transaction taken away; a legal one changes the field it addresses, and
a byte read after `WriteTB` is the byte written or as before (`Memory.read_write`). -/
theorem hostTransactionsChangeOnlyWhatTheyAddress : Obligations.HostTransactionsChangeOnlyWhatTheyAddress := by
  intro s rest
  refine ⟨step_of_idle, fun n hhost => ?_, fun v hhost => ?_, fun v hhost hv => ?_, fun a hhost ha => ?_, fun a b hhost ha => ?_⟩
  all_goals rw [step_of_host hhost, transact]
  · rw [readCsr, State.csr?_eq]; rfl
  · rfl
  · exact if_pos hv
  · exact if_pos ha
  · exact ⟨_, if_pos ha, rfl, fun c => Memory.read_write s.tb a c b⟩

/-- Settles O8: each clause is one guard of the host port that fails. -/
theorem hostProtocolViolationsAreRefused : Obligations.HostProtocolViolationsAreRefused := by
  intro s rest
  refine ⟨fun n hn hhost => ?_, fun n v hn hhost => ?_, fun n v hn hhost => ?_, fun v hv hhost => ?_, fun a ha hhost => ?_,
    fun a b ha hhost => ?_⟩
  all_goals rw [step_of_host hhost, transact]
  · rw [readCsr, State.csr?_of_gt hn]
  · exact writeCsr_of_gt hn v _
  · rcases hn with rfl | rfl | rfl <;> rfl
  · exact if_neg hv.not_ge
  · exact if_neg ha.not_gt
  · exact if_neg ha.not_gt

end Sys2Proof.Machine
end

section
/-! Which command raises which fault (R211, R220): the tables of the statements, read off what a raised fault says (`Raises`). -/

namespace Sys2Proof.Machine

/-- The list of R220 and the model's `mayExceedCapacity` name the same commands. -/
theorem mnemonic_mem_capacityCommands_iff (i : Instr) :
    i.mnemonic ∈ Spec.capacityCommands ↔ i.mayExceedCapacity = true := by
  cases i <;> simp [Instr.mnemonic, Instr.mayExceedCapacity, Spec.capacityCommands]

theorem xSources_or_fSources_ne_nil {i : Instr} {s : State} (h : s.LacksSource i) : i.xSources ≠ [] ∨ i.fSources ≠ [] := by
  rcases h with ⟨r, hr, -⟩ | ⟨r, hr, -⟩
  · exact .inl (List.ne_nil_of_mem hr)
  · exact .inr (List.ne_nil_of_mem hr)

/-- A command leaves ERR 0, or the code of one fault it raises with nothing else but EFIRST changed (R222, R223). -/
theorem exec_err_cases {i : Instr} {s t : State} (h : exec i s = .next t) :
    t.err = 0 ∨ ∃ c, t = s.takeFault c ∧ Raises i s c := by
  rcases exec_cases i s with ⟨u, hexec, -⟩ | ⟨c, hexec⟩
  · rw [hexec] at h; cases h; exact .inl rfl
  · have hraises : Raises i s c := exec_raises hexec
    rw [hexec] at h; cases h; exact .inr ⟨c, rfl, hraises⟩

/-- Code 9 comes from a command that may exceed the capacity, under the conditions of LDN and AND (R220). -/
theorem raises_of_err_eq_nine {i : Instr} {s t : State} (h : exec i s = .next t) (herr : t.err = 9) :
    Raises i s .capacityExceeded := by
  rcases exec_err_cases h with hzero | ⟨c, rfl, hraises⟩
  · rw [hzero] at herr; cases herr
  · have hcode : c.code = CmdFault.code .capacityExceeded := herr
    rwa [← CmdFault.code_inj.1 hcode]

/-- Settles O12: the conditions are those a raised CapacityExceeded carries. -/
theorem capacityExceededOnlyWhereAdmitted : Obligations.CapacityExceededOnlyWhereAdmitted := by
  intro i s t hs _ h herr
  cases raises_of_err_eq_nine h herr with
  | own _ hown => cases hown
  | capacity hcap =>
    obtain ⟨hmay, hconds⟩ := hcap hs
    exact ⟨(mnemonic_mem_capacityCommands_iff i).2 hmay, hconds⟩

/-- Settles O11: a command that succeeds leaves code 0, which is in no row; otherwise ERR is the code of a fault that the command raises, and
each fault has its row. -/
theorem faultCodesAndTheirCommands : Obligations.FaultCodesAndTheirCommands := by
  intro i s t hwf h
  rcases exec_err_cases h with hzero | ⟨c, rfl, hraises⟩
  · simp [hzero]
  · have hillegal : c ≠ .illegalCommand := by rintro rfl; exact not_raises_illegalCommand hwf hraises
    rw [State.takeFault_err]
    refine ⟨c.code_le, ?_⟩
    cases hraises with
    | illegal hill => exact absurd rfl hillegal
    | unwritten hlacks => simpa [CmdFault.code] using xSources_or_fSources_ne_nil hlacks
    | capacity hcap => simpa [CmdFault.code, mnemonic_mem_capacityCommands_iff] using fun hs => (hcap hs).1
    | own _ hown => cases c <;> simp_all [CmdFault.code, ownRaisers]

end Sys2Proof.Machine
end

section
/-! The transform datapath in exact arithmetic (R131): the transform turns the product of the word polynomials into a pointwise product,
and the inverse transform undoes it, up to the factor `L`. -/

namespace Sys2Proof

section
variable {K : Type} [Field K]

/-- The transform evaluates a polynomial of degree below `L`, given by its coefficients, at the powers of the root. -/
theorem dft_coeff {L : Nat} (hL : 0 < L) {p : Polynomial Nat} (hp : ∀ k, L ≤ k → p.coeff k = 0) (w : K) (n : Nat) :
    dft L w (fun i => (p.coeff i : K)) n = p.eval₂ (Nat.castRingHom K) (w ^ n) := by
  have hdeg : p.natDegree < L := by
    have hle : p.natDegree ≤ L - 1 := Polynomial.natDegree_le_iff_coeff_eq_zero.2 fun k hk => hp k (by omega)
    omega
  rw [Polynomial.eval₂_eq_sum_range' _ hdeg, dft]
  exact Finset.sum_congr rfl fun k _ => by rw [← pow_mul, Nat.mul_comm n k]; rfl

/-- Orthogonality: over a full period the powers of `w^(m - n)` sum to `L` for `m = n` and cancel otherwise. -/
theorem sum_pow_primitiveRoot {L : Nat} {w : K} (hw : IsPrimitiveRoot w L) {m n : Nat} (hm : m < L) (hn : n < L) :
    ∑ k ∈ Finset.range L, (w ^ m * w⁻¹ ^ n) ^ k = if m = n then (L : K) else 0 := by
  have hw0 : w ≠ 0 := hw.ne_zero (by omega)
  split
  · next heq => simp [heq, mul_inv_cancel₀ (pow_ne_zero n hw0)]
  · next hne =>
    have hone : w ^ m * w⁻¹ ^ n ≠ 1 := by
      rw [inv_pow, ne_eq, mul_inv_eq_one₀ (pow_ne_zero n hw0)]
      exact fun h => hne (hw.pow_inj hm hn h)
    have hperiod : (w ^ m * w⁻¹ ^ n) ^ L = 1 := by
      rw [mul_pow, pow_right_comm, pow_right_comm w⁻¹, inv_pow, hw.pow_eq_one]; simp
    rw [geom_sum_eq hone, hperiod, sub_self, zero_div]

/-- The inverse transform undoes the transform, up to the factor `L`. -/
theorem idftScaled_dft {L : Nat} {w : K} (hw : IsPrimitiveRoot w L) (X : Nat → K) {n : Nat} (hn : n < L) :
    idftScaled L w⁻¹ (dft L w X) n = L * X n := by
  calc idftScaled L w⁻¹ (dft L w X) n
      = ∑ m ∈ Finset.range L, X m * ∑ k ∈ Finset.range L, (w ^ m * w⁻¹ ^ n) ^ k := by
        simp only [idftScaled, dft, Finset.sum_mul, Finset.mul_sum]
        rw [Finset.sum_comm]
        exact Finset.sum_congr rfl fun m _ => Finset.sum_congr rfl fun k _ => by
          rw [mul_pow, ← pow_mul, ← pow_mul, mul_assoc]
    _ = ∑ m ∈ Finset.range L, X m * if m = n then (L : K) else 0 :=
        Finset.sum_congr rfl fun m hm => by rw [sum_pow_primitiveRoot hw (Finset.mem_range.1 hm) hn]
    _ = L * X n := by simp [hn, mul_comm]

/-- R131 steps 3 and 4: the pointwise product of the transforms of the words is the transform of their convolution, because the length
`L` leaves room for every coefficient ("no wrap-around"). -/
theorem dft_convCoeff {L : Nat} (hL : 0 < L) {a b : List Byte} (h : a.length + b.length ≤ L) (w : K) (n : Nat) :
    dft L w (fun k => (convCoeff a b k : K)) n =
      dft L w (fun i => (wordAt a i : K)) n * dft L w (fun i => (wordAt b i : K)) n := by
  have ha : ∀ k, L ≤ k → (wordPoly a).coeff k = 0 := fun k hk => by
    rw [wordPoly_coeff, wordAt_of_length_le (by omega)]
  have hb : ∀ k, L ≤ k → (wordPoly b).coeff k = 0 := fun k hk => by
    rw [wordPoly_coeff, wordAt_of_length_le (by omega)]
  have hab : ∀ k, L ≤ k → (wordPoly a * wordPoly b).coeff k = 0 := fun k hk => by
    rw [← convCoeff_eq, convCoeff_of_le (by omega)]
  simp only [convCoeff_eq, ← wordPoly_coeff]
  rw [dft_coeff hL ha, dft_coeff hL hb, dft_coeff hL hab, Polynomial.eval₂_mul]

end

/-- Settles O34: the inverse transform is applied to the transform of the convolution (`dft_convCoeff`), which it undoes
(`idftScaled_dft`). -/
theorem transformRecoversTheConvolution : Obligations.TransformRecoversTheConvolution := by
  intro K _ a b w hw k hk
  rw [fftCoeffScaled, ← funext (dft_convCoeff (Nat.zero_lt_of_lt hk) (le_fftLength _) w)]
  exact idftScaled_dft hw _ hk

end Sys2Proof
end

section
/-! The frame of the command set (10_state.md, R33, R37): what each kind of write (`Wrote`) leaves unchanged, and what follows for every
command from the one case lemma `exec_cases`. -/

namespace Sys2Proof.Machine

/-! ## The tables of commands by name and by flag (R33, R83) -/

theorem mnemonic_mem_resWriters_iff (i : Instr) : i.mnemonic ∈ Spec.resWriters ↔ i.writesRes = true := by
  cases i <;> simp [Instr.mnemonic, Instr.writesRes, Spec.resWriters]

theorem mnemonic_mem_storers_iff (i : Instr) : i.mnemonic ∈ ["STR", "STM"] ↔ i.storesBuffer = true := by
  cases i <;> simp [Instr.mnemonic, Instr.storesBuffer]

/-! ## What a successful write leaves unchanged -/

theorem State.setX_ne_none {s : State} {r : XReg} (hr : s.x[r] ≠ none) {d : XReg} {u : BigInt} : (s.setX d u).x[r] ≠ none := by
  rw [State.setX_get]
  split
  · exact Option.some_ne_none u
  · exact hr

theorem State.setF_ne_none {s : State} {r : FReg} (hr : s.f[r] ≠ none) {d : FReg} {e : FieldElement} :
    (s.setF d e).f[r] ≠ none := by
  rw [State.setF_get]
  split
  · exact Option.some_ne_none e
  · exact hr

section
variable {i : Instr} {s t : State} (h : Wrote i s t)
include h

theorem Wrote.x_of_not_mem {r : XReg} (hr : r ∉ i.xDests) : t.x[r] = s.x[r] := by
  cases h with
  | x d _ hd =>
    rw [hd, List.mem_singleton] at hr
    rw [State.setX_get, if_neg (Ne.symm hr)]
  | xx q p _ _ hd =>
    simp only [hd, List.mem_cons, List.not_mem_nil, or_false, not_or] at hr
    rw [State.setX_get, if_neg (Ne.symm hr.2), State.setX_get, if_neg (Ne.symm hr.1)]
  | f | res | out | clear => rfl

theorem Wrote.f_of_not_mem {r : FReg} (hr : r ∉ i.fDests) : t.f[r] = s.f[r] := by
  cases h with
  | f d _ _ _ hd =>
    rw [hd, List.mem_singleton] at hr
    rw [State.setF_get, if_neg (Ne.symm hr)]
  | x | xx | res | out | clear => rfl

theorem Wrote.res_of_not_writesRes (hr : i.writesRes = false) : t.res = s.res := by
  cases h with
  | res _ _ _ hw => rw [hr] at hw; cases hw
  | x | xx | f | out | clear => rfl

theorem Wrote.buffer_of_not_storesBuffer (hb : i.storesBuffer = false) : t.tlen = s.tlen ∧ t.tb = s.tb := by
  cases h with
  | out _ _ _ _ hw => rw [hb] at hw; cases hw
  | x | xx | f | res | clear => exact ⟨rfl, rfl⟩

/-- No command writes ARG, the parameters or the host's lists (R32). -/
theorem Wrote.inputs : t.arg = s.arg ∧ t.params = s.params ∧ t.host = s.host ∧ t.replies = s.replies := by
  cases h <;> exact ⟨rfl, rfl, rfl, rfl⟩

/-- A command that stores leaves the bytes from the new TLEN on as they were (R37, R51). -/
theorem Wrote.read_of_tlen_le (hs : s.Inv) {a : Nat} (ha : t.tlen.toNat ≤ a) :
    t.tb.read a = s.tb.read a := by
  cases h with
  | out bs _ _ _ _ hlen =>
    have htlen : (BitVec.ofNat 64 bs.length).toNat = bs.length :=
      (BitVec.toNat_ofNat ..).trans (Nat.mod_eq_of_lt (hs.length_lt hlen))
    rw [State.storeOutput_tlen, htlen] at ha
    rw [State.storeOutput_tb, Memory.read_writeBytes, if_pos a.zero_le, Nat.sub_zero, List.getElem?_eq_none ha]; rfl
  | x | xx | f | res | clear => rfl

/-- A written integer register stays written (R25). -/
theorem Wrote.x_ne_none {r : XReg} (hr : s.x[r] ≠ none) : t.x[r] ≠ none := by
  cases h with
  | x => exact State.setX_ne_none hr
  | xx => exact State.setX_ne_none (State.setX_ne_none hr)
  | f | res | out | clear => exact hr

/-- A written field register stays written (R27). -/
theorem Wrote.f_ne_none {r : FReg} (hr : s.f[r] ≠ none) : t.f[r] ≠ none := by
  cases h with
  | f => exact State.setF_ne_none hr
  | x | xx | res | out | clear => exact hr

end

/-! ## The frame of every command -/

/-- Settles O16: a fault changes ERR and EFIRST only; a success changes what its kind of write names. -/
theorem commandsChangeOnlyTheirDestinations : Obligations.CommandsChangeOnlyTheirDestinations := by
  intro i s t h
  rcases exec_cases i s with ⟨u, hexec, hwrote⟩ | ⟨c, hexec⟩ <;> rw [hexec] at h <;> cases h
  · refine ⟨fun _ => hwrote.x_of_not_mem, fun _ => hwrote.f_of_not_mem, hwrote.res_of_not_writesRes, fun hb => ?_, hwrote.inputs⟩
    obtain ⟨htlen, htb⟩ := hwrote.buffer_of_not_storesBuffer hb
    exact ⟨htlen, fun a => congrArg (Memory.read · a) htb⟩
  · exact ⟨fun _ _ => rfl, fun _ _ => rfl, fun _ => rfl, fun _ => ⟨rfl, fun _ => rfl⟩, rfl, rfl, rfl, rfl⟩

/-- Settles O18: of the six kinds of write only an output touches the buffer, and it stores the bytes below the new TLEN alone; no write
makes a register unwritten. -/
theorem storesKeepTheRestOfTheBuffer : Obligations.StoresKeepTheRestOfTheBuffer := by
  intro i s t h
  rw [mnemonic_mem_storers_iff, Bool.not_eq_true]
  rcases exec_cases i s with ⟨u, hexec, hwrote⟩ | ⟨c, hexec⟩ <;> rw [hexec] at h <;> cases h
  · exact ⟨hwrote.buffer_of_not_storesBuffer, fun hs _ _ _ => hwrote.read_of_tlen_le hs, fun _ => hwrote.x_ne_none,
      fun _ => hwrote.f_ne_none⟩
  · exact ⟨fun _ => ⟨rfl, rfl⟩, fun _ _ _ _ _ => rfl, fun _ => id, fun _ => id⟩

end Sys2Proof.Machine
end

section
/-! What a command depends on (R247): run on two states that agree in the command's inputs, it makes the same write or raises the same
fault. This is said once for the command set (`exec_cases_of_sameInputs`); the statements about determinism, the layering of R2 and
RES are then about which states agree. -/

namespace Sys2Proof.Machine

/-! ## Agreement of two states and of two outcomes -/

/-- Two states agree in what the command's row names as its inputs (R75, R32, R36), and in the parameters. -/
structure SameInputs (i : Instr) (s s' : State) : Prop where
  params : s.params = s'.params
  x : ∀ r ∈ i.xSources, s.x[r] = s'.x[r]
  f : ∀ r ∈ i.fSources, s.f[r] = s'.f[r]
  arg : i.readsArg = true → s.arg = s'.arg
  content : i.loadsBuffer = true → s.content = s'.content

/-- The command's only effect is on integer registers. -/
abbrev WritesOnlyX (i : Instr) : Prop := i.fDests = [] ∧ i.writesRes = false ∧ i.storesBuffer = false

/-- The command's only effect is on field register `d`. -/
abbrev WritesOnlyF (i : Instr) (d : FReg) : Prop :=
  i.xDests = [] ∧ i.fDests = [d] ∧ i.writesRes = false ∧ i.storesBuffer = false

/-- The same of the six kinds of write (`Wrote`), made in two states. -/
inductive SameWrite (i : Instr) (s s' : State) : State → State → Prop where
  | x (d : XReg) (z : Int) (hd : i.xDests = [d]) (hx : WritesOnlyX i) :
      SameWrite i s s' (s.setX d (BigInt.big z)) (s'.setX d (BigInt.big z))
  | xx (q r : XReg) (z y : Int) (hd : i.xDests = [q, r]) (hx : WritesOnlyX i) :
      SameWrite i s s' ((s.setX q (BigInt.big z)).setX r (BigInt.big y)) ((s'.setX q (BigInt.big z)).setX r (BigInt.big y))
  | f (d : FReg) (v p : Int) (hf : WritesOnlyF i d) :
      SameWrite i s s' (s.setF d { value := BigInt.big v, modulus := BigInt.big p })
        (s'.setF d { value := BigInt.big v, modulus := BigInt.big p })
  | res (v : Dword) (hd : i.xDests = []) (hf : i.fDests = []) (hr : i.writesRes = true) (hs : i.storesBuffer = false) :
      SameWrite i s s' (s.setRes v) (s'.setRes v)
  | out (bs : List Byte) (hd : i.xDests = []) (hf : i.fDests = []) (hr : i.writesRes = false)
      (fits : bs.length ≤ s.params.tbMax) : SameWrite i s s' (s.storeOutput bs) (s'.storeOutput bs)
  | clear (hi : i = .clrerr) : SameWrite i s s' s.clearFirst s'.clearFirst

/-- Two computations, one from each state, end alike. -/
inductive Agree (i : Instr) (s s' : State) : Except CmdFault State → Except CmdFault State → Prop where
  | error (c : CmdFault) : Agree i s s' (.error c) (.error c)
  | ok {t t' : State} (h : SameWrite i s s' t t') : Agree i s s' (.ok t) (.ok t')

/-! ## The primitives agree -/

section
variable {i : Instr} {s s' : State}

theorem readXBig_congr {a : XReg} (h : s.x[a] = s'.x[a]) : readXBig s a = readXBig s' a := by rw [readXBig, readXBig, h]

theorem readX_congr {a : XReg} (h : s.x[a] = s'.x[a]) : readX s a = readX s' a := by rw [readX, readX, readXBig_congr h]

theorem readF_congr {a : FReg} (h : s.f[a] = s'.f[a]) : readF s a = readF s' a := by rw [readF, readF, h]

theorem State.fits_congr (h : s.params = s'.params) (z : Int) : s.Fits z ↔ s'.Fits z := by rw [State.Fits, State.Fits, h]

/-- Computations that start with the same intermediate result agree when what follows does. -/
theorem agree_bind {α : Type} {m m' : Except CmdFault α} {k k' : α → Except CmdFault State} (hm : m = m')
    (h : ∀ a, Agree i s s' (k a) (k' a)) : Agree i s s' (m >>= k) (m' >>= k') := by
  subst hm
  cases m with
  | error c => exact .error c
  | ok a => exact h a

theorem agree_ite {p q : Prop} [Decidable p] [Decidable q] {r u r' u' : Except CmdFault State} (hpq : p ↔ q)
    (hr : Agree i s s' r r') (hu : Agree i s s' u u') : Agree i s s' (if p then r else u) (if q then r' else u') := by
  by_cases hp : p
  · rwa [if_pos hp, if_pos (hpq.1 hp)]
  · rwa [if_neg hp, if_neg (mt hpq.2 hp)]

theorem agree_writeOutput (hp : s.params = s'.params) (bs : List Byte) (hd : i.xDests = []) (hf : i.fDests = [])
    (hr : i.writesRes = false) : Agree i s s' (writeOutput s bs) (writeOutput s' bs) := by
  unfold writeOutput
  rw [← hp]
  split
  · next hlen => exact .ok (.out bs hd hf hr hlen)
  · exact .error _

theorem agree_writeF {d : FReg} (hp : s.params = s'.params) (hi : WritesOnlyF i d) (v p : Int) :
    Agree i s s' (writeF s d v p) (writeF s' d v p) :=
  agree_ite (and_congr (State.fits_congr hp v) (State.fits_congr hp p)) (.ok (.f d v p hi)) (.error _)

theorem agree_binaryF {d a b : FReg} (hp : s.params = s'.params) (ha : s.f[a] = s'.f[a]) (hb : s.f[b] = s'.f[b])
    (hi : WritesOnlyF i d) (op : Int → Int → Int) : Agree i s s' (binaryF op d a b s) (binaryF op d a b s') :=
  agree_bind (readF_congr ha) fun _ => agree_bind (readF_congr hb) fun _ => agree_bind rfl fun _ => agree_writeF hp hi _ _

section
variable {d : XReg} (hp : s.params = s'.params) (hd : i.xDests = [d]) (hi : WritesOnlyX i)
include hp hd hi

theorem agree_writeX (z : Int) : Agree i s s' (writeX s d z) (writeX s' d z) :=
  agree_ite (State.fits_congr hp z) (.ok (.x d z hd hi)) (.error _)

theorem agree_writeShiftedLeft (z : Int) (n : Nat) : Agree i s s' (writeShiftedLeft s d z n) (writeShiftedLeft s' d z n) :=
  agree_ite Iff.rfl (agree_writeX hp hd hi _) (agree_ite (by rw [hp]) (.error _) (agree_writeX hp hd hi _))

theorem agree_writeView (z : Int) (n : Nat) : Agree i s s' (writeView s d z n) (writeView s' d z n) :=
  agree_ite Iff.rfl (agree_writeX hp hd hi _) (agree_ite (by rw [hp]) (.error _) (agree_writeX hp hd hi _))

theorem agree_writeFill (n : Nat) : Agree i s s' (writeFill s d n) (writeFill s' d n) :=
  agree_ite (by rw [hp]) (.error _) (agree_writeX hp hd hi _)

theorem agree_writePower (b : Int) (e : Nat) : Agree i s s' (writePower s d b e) (writePower s' d b e) :=
  agree_ite Iff.rfl (agree_writeX hp hd hi _) (agree_ite Iff.rfl (agree_writeX hp hd hi _)
    (agree_ite Iff.rfl (agree_writeX hp hd hi _) (agree_ite (by rw [hp]) (.error _) (agree_writeX hp hd hi _))))

theorem agree_binaryX {a b : XReg} (ha : s.x[a] = s'.x[a]) (hb : s.x[b] = s'.x[b]) (op : Int → Int → Int) :
    Agree i s s' (binaryX op d a b s) (binaryX op d a b s') :=
  agree_bind (readX_congr ha) fun _ => agree_bind (readX_congr hb) fun _ => agree_writeX hp hd hi _

theorem agree_unaryX {a : XReg} (ha : s.x[a] = s'.x[a]) (op : Int → Int) : Agree i s s' (unaryX op d a s) (unaryX op d a s') :=
  agree_bind (readX_congr ha) fun _ => agree_writeX hp hd hi _

end

theorem agree_writeX_writeX {q r : XReg} (hp : s.params = s'.params) (hd : i.xDests = [q, r]) (hi : WritesOnlyX i) (z y : Int) :
    Agree i s s' (writeX s q z >>= fun t => writeX t r y) (writeX s' q z >>= fun t => writeX t r y) := by
  by_cases hz : s.Fits z
  · rw [writeX_fits hz, writeX_fits ((State.fits_congr hp z).1 hz)]
    exact agree_ite (State.fits_congr hp y) (.ok (.xx q r z y hd hi)) (.error _)
  · rw [writeX_eq_error.2 ⟨hz, rfl⟩, writeX_eq_error.2 ⟨mt (State.fits_congr hp z).2 hz, rfl⟩]
    exact .error _

end

/-! ## Every command -/

/-- Each command is the end of a computation that agrees on states that agree in its inputs: reads of sources, checks on what was read,
and one kind of write. -/
theorem exists_agree {i : Instr} {s s' : State} (h : SameInputs i s s') :
    ∃ r r', exec i s = s.finish r ∧ exec i s' = s'.finish r' ∧ Agree i s s' r r' := by
  have hx1 {a : XReg} {as : List XReg} (e : i.xSources = a :: as) : s.x[a] = s'.x[a] := h.x a (e ▸ .head _)
  have hx2 {a b : XReg} {as : List XReg} (e : i.xSources = a :: b :: as) : s.x[b] = s'.x[b] := h.x b (e ▸ .tail _ (.head _))
  have hf1 {a : FReg} {as : List FReg} (e : i.fSources = a :: as) : s.f[a] = s'.f[a] := h.f a (e ▸ .head _)
  have hf2 {a b : FReg} {as : List FReg} (e : i.fSources = a :: b :: as) : s.f[b] = s'.f[b] := h.f b (e ▸ .tail _ (.head _))
  have hp := h.params
  cases i
  case clrerr => exact ⟨.ok s.clearFirst, .ok s'.clearFirst, rfl, rfl, .ok (.clear rfl)⟩
  all_goals refine ⟨_, _, rfl, rfl, ?_⟩
  case ldn => rw [h.arg rfl]; exact agree_writeX hp rfl ⟨rfl, rfl, rfl⟩ _
  case ldm => rw [h.content rfl]; exact agree_writeX hp rfl ⟨rfl, rfl, rfl⟩ _
  case parse | parsed => rw [h.content rfl]; exact agree_bind rfl fun _ => agree_writeX hp rfl ⟨rfl, rfl, rfl⟩ _
  case fill => rw [h.arg rfl]; exact agree_writeFill hp rfl ⟨rfl, rfl, rfl⟩ _
  case mov => exact agree_bind (readX_congr (hx1 rfl)) fun _ => agree_writeX hp rfl ⟨rfl, rfl, rfl⟩ _
  case add | sub | mul | and | or | xor => exact agree_binaryX hp rfl ⟨rfl, rfl, rfl⟩ (hx1 rfl) (hx2 rfl) _
  case neg | not | abs => exact agree_unaryX hp rfl ⟨rfl, rfl, rfl⟩ (hx1 rfl) _
  case shr => rw [h.arg rfl]; exact agree_unaryX hp rfl ⟨rfl, rfl, rfl⟩ (hx1 rfl) _
  case shl =>
    rw [h.arg rfl]
    exact agree_bind (readX_congr (hx1 rfl)) fun _ => agree_writeShiftedLeft hp rfl ⟨rfl, rfl, rfl⟩ _ _
  case twos =>
    rw [h.arg rfl]
    exact agree_bind (readX_congr (hx1 rfl)) fun _ => agree_writeView hp rfl ⟨rfl, rfl, rfl⟩ _ _
  case div | mod =>
    exact agree_bind (readX_congr (hx1 rfl)) fun _ => agree_bind (readX_congr (hx2 rfl)) fun _ =>
      agree_ite Iff.rfl (.error _) (agree_writeX hp rfl ⟨rfl, rfl, rfl⟩ _)
  case divmod =>
    exact agree_ite Iff.rfl (.error _) (agree_bind (readX_congr (hx1 rfl)) fun _ => agree_bind (readX_congr (hx2 rfl)) fun _ =>
      agree_ite Iff.rfl (.error _) (agree_writeX_writeX hp rfl ⟨rfl, rfl, rfl⟩ _ _))
  case ilog =>
    exact agree_bind (readX_congr (hx1 rfl)) fun _ => agree_bind (readX_congr (hx2 rfl)) fun _ =>
      agree_ite Iff.rfl (.error _) (agree_ite Iff.rfl (.error _) (agree_writeX hp rfl ⟨rfl, rfl, rfl⟩ _))
  case pow =>
    exact agree_bind (readX_congr (hx1 rfl)) fun _ => agree_bind (readX_congr (hx2 rfl)) fun _ =>
      agree_ite Iff.rfl (.error _) (agree_writePower hp rfl ⟨rfl, rfl, rfl⟩ _ _)
  case powm d a b m =>
    have hm : s.x[m] = s'.x[m] := h.x m (.tail _ (.tail _ (.head _)))
    exact agree_bind (readX_congr (hx1 rfl)) fun _ => agree_bind (readX_congr (hx2 rfl)) fun _ =>
      agree_bind (readX_congr hm) fun _ =>
        agree_ite Iff.rfl (.error _) (agree_ite Iff.rfl (.error _) (agree_writeX hp rfl ⟨rfl, rfl, rfl⟩ _))
  case cmp =>
    exact agree_bind (readXBig_congr (hx1 rfl)) fun _ => agree_bind (readXBig_congr (hx2 rfl)) fun _ => .ok (.res _ rfl rfl rfl rfl)
  case bits | bytes | digits => exact agree_bind (readXBig_congr (hx1 rfl)) fun _ => .ok (.res _ rfl rfl rfl rfl)
  case cast | sign => exact agree_bind (readX_congr (hx1 rfl)) fun _ => .ok (.res _ rfl rfl rfl rfl)
  case bit => rw [h.arg rfl]; exact agree_bind (readX_congr (hx1 rfl)) fun _ => .ok (.res _ rfl rfl rfl rfl)
  case stm => exact agree_bind (readXBig_congr (hx1 rfl)) fun _ => agree_writeOutput hp _ rfl rfl rfl
  case str =>
    rw [h.arg rfl, hp]
    exact agree_bind (readX_congr (hx1 rfl)) fun _ =>
      agree_ite Iff.rfl (.error _) (agree_ite Iff.rfl (.error _) (agree_writeOutput hp _ rfl rfl rfl))
  case fnew =>
    exact agree_bind (readX_congr (hx1 rfl)) fun _ => agree_bind (readX_congr (hx2 rfl)) fun _ =>
      agree_ite Iff.rfl (agree_writeF hp ⟨rfl, rfl, rfl, rfl⟩ _ _) (.error _)
  case fadd | fsub | fmul => exact agree_binaryF hp (hf1 rfl) (hf2 rfl) ⟨rfl, rfl, rfl, rfl⟩ _
  case fsmul =>
    exact agree_bind (readF_congr (hf1 rfl)) fun _ => agree_bind (readX_congr (hx1 rfl)) fun _ =>
      agree_writeF hp ⟨rfl, rfl, rfl, rfl⟩ _ _
  case fdiv =>
    exact agree_bind (readF_congr (hf1 rfl)) fun _ => agree_bind (readF_congr (hf2 rfl)) fun _ => agree_bind rfl fun _ =>
      agree_ite Iff.rfl (.error _) (agree_writeF hp ⟨rfl, rfl, rfl, rfl⟩ _ _)
  case fpow =>
    exact agree_bind (readF_congr (hf1 rfl)) fun _ => agree_bind (readX_congr (hx1 rfl)) fun _ =>
      agree_ite Iff.rfl (.error _) (agree_writeF hp ⟨rfl, rfl, rfl, rfl⟩ _ _)
  case feq =>
    exact agree_bind (readF_congr (hf1 rfl)) fun _ => agree_bind (readF_congr (hf2 rfl)) fun _ => .ok (.res _ rfl rfl rfl rfl)
  case fgetv | fgetm => exact agree_bind (readF_congr (hf1 rfl)) fun _ => agree_writeX hp rfl ⟨rfl, rfl, rfl⟩ _
  case fmov => exact agree_bind (readF_congr (hf1 rfl)) fun _ => agree_writeF hp ⟨rfl, rfl, rfl, rfl⟩ _ _

/-- THE TWO-STATE CASE LEMMA: on states that agree in its inputs a command records the same fault or succeeds with the same write. -/
theorem exec_cases_of_sameInputs {i : Instr} {s s' : State} (h : SameInputs i s s') :
    (∃ c, exec i s = .next (s.takeFault c) ∧ exec i s' = .next (s'.takeFault c)) ∨
    ∃ t t', exec i s = .next t.succeed ∧ exec i s' = .next t'.succeed ∧ SameWrite i s s' t t' := by
  obtain ⟨r, r', hexec, hexec', hagree⟩ := exists_agree h
  cases hagree with
  | error c => exact .inl ⟨c, hexec, hexec'⟩
  | ok hw => exact .inr ⟨_, _, hexec, hexec', hw⟩

/-! ## The statements -/

/-- "EFIRST = 0 says that no command has faulted" (R35). -/
theorem takeFault_efirst_ne_zero (s : State) (c : CmdFault) : (s.takeFault c).efirst ≠ 0 := by
  rw [State.takeFault_efirst]
  split
  · exact c.code_ne_zero
  · assumption

/-- The record of a fault made twice is made once: EFIRST is nonzero already (R227). -/
theorem takeFault_takeFault (s : State) (c : CmdFault) : (s.takeFault c).takeFault c = s.takeFault c :=
  congrArg (fun e => { s.takeFault c with efirst := e }) (if_neg (takeFault_efirst_ne_zero s c))

/-- No row of R75 names ERR or EFIRST as an input. -/
theorem sameInputs_takeFault (i : Instr) (s : State) (c : CmdFault) : SameInputs i s (s.takeFault c) :=
  ⟨rfl, fun _ _ => rfl, fun _ _ => rfl, fun _ => rfl, fun _ => rfl⟩

/-- Settles O13: the decoder reads no state, a command reads neither ERR nor EFIRST, so the same fault is recorded again, over itself. -/
theorem reissuingAFaultingWordFaultsAgain : Obligations.ReissuingAFaultingWordFaultsAgain := by
  intro cw s t h herr
  cases hdec : decode cw with
  | error e =>
    rw [issueCommand, hdec] at h ⊢
    cases h
    exact congrArg _ (takeFault_takeFault s _)
  | ok i =>
    rw [issueCommand_of_decode_ok hdec] at h ⊢
    rcases exec_err_cases h with hzero | ⟨c, rfl, -⟩
    · exact absurd hzero herr
    rcases exec_cases_of_sameInputs (sameInputs_takeFault i s c) with ⟨d, hexec, hexec'⟩ | ⟨u, u', hexec, -, -⟩
    · obtain rfl : c = d := CmdFault.code_inj.1 (congrArg State.err (Host.Outcome.next.inj (h.symm.trans hexec)))
      rw [hexec', takeFault_takeFault]
    · exact absurd (congrArg State.err (Host.Outcome.next.inj (h.symm.trans hexec))) herr

/-- Which command results are the same when the same write is made in two states (R75). -/
theorem SameWrite.results {i : Instr} {s s' t t' : State} (h : SameWrite i s s' t t') (hs : s.Inv) :
    (∀ d ∈ i.xDests, t.x[d] = t'.x[d]) ∧ (∀ d ∈ i.fDests, t.f[d] = t'.f[d]) ∧ (i.writesRes = true → t.res = t'.res) ∧
      (i.storesBuffer = true → t.content = t'.content) := by
  cases h with
  | x d z hd hx =>
    obtain ⟨hf, hr, hb⟩ := hx
    simp [hd, hf, hr, hb]
  | xx q r z y hd hx =>
    obtain ⟨hf, hr, hb⟩ := hx
    refine ⟨fun d hmem => ?_, by simp [hf], by simp [hr], by simp [hb]⟩
    have hqr : d = q ∨ d = r := by simpa [hd] using hmem
    simp only [State.setX_get]
    rcases hqr with rfl | rfl <;> simp
  | f d v p hf =>
    obtain ⟨hd, hf, hr, hb⟩ := hf
    simp [hd, hf, hr, hb]
  | res v hd hf hr hb => simp [hd, hf, hb]
  | out bs hd hf hr hlen =>
    have hbytes : bs.length < 2 ^ 64 := hs.length_lt hlen
    simp [hd, hf, hr, State.content_storeOutput _ _ hbytes]
  | clear hi => subst hi; simp [Instr.xDests, Instr.fDests, Instr.writesRes, Instr.storesBuffer]

/-- Settles O14: the hypotheses say that the states agree in the command's inputs, so both record the same fault or make the same write. -/
theorem commandsDependOnlyOnTheirOperands : Obligations.CommandsDependOnlyOnTheirOperands := by
  intro i s s' hs _ hp hx hf harg hbuf
  simp only [← content_eq_buffer] at hbuf ⊢
  rcases exec_cases_of_sameInputs ⟨hp, hx, hf, harg, hbuf⟩ with ⟨c, hexec, hexec'⟩ | ⟨t, t', hexec, hexec', hw⟩
  · exact ⟨_, _, hexec, hexec', rfl, fun h => absurd h c.code_ne_zero⟩
  · exact ⟨_, _, hexec, hexec', rfl, fun _ => hw.results hs⟩

/-- A command below the field layer has no field register among its operands (R2). -/
theorem fOperands_of_not_isField {i : Instr} (h : i.isField = false) : i.fSources = [] ∧ i.fDests = [] := by
  cases i <;> simp_all [Instr.isField, Instr.fSources, Instr.fDests]

/-- Settles O15: states that differ in the field registers alone agree in the inputs of such a command, and no write it makes touches them. -/
theorem bigIntCommandsIgnoreTheFieldLayer : Obligations.BigIntCommandsIgnoreTheFieldLayer := by
  intro i s t g hi h
  obtain ⟨hsrc, hdest⟩ := fOperands_of_not_isField hi
  have hsame : SameInputs i s { s with f := g } := ⟨rfl, fun _ _ => rfl, by simp [hsrc], fun _ => rfl, fun _ => rfl⟩
  rcases exec_cases_of_sameInputs hsame with ⟨c, hexec, hexec'⟩ | ⟨u, u', hexec, hexec', hw⟩ <;>
    rw [hexec] at h <;> rw [hexec'] <;> cases h
  · exact ⟨rfl, rfl⟩
  · cases hw with
    | f d v p hf => obtain ⟨-, hd, -⟩ := hf; rw [hdest] at hd; cases hd
    | x | xx | res | out | clear => exact ⟨rfl, rfl⟩

/-- Settles O17: RES changes in one kind of write only, and that write is the same whatever RES held. -/
theorem onlyTheEightQueriesWriteRes : Obligations.OnlyTheEightQueriesWriteRes := by
  intro i s t h
  rw [mnemonic_mem_resWriters_iff, Bool.not_eq_true]
  refine ⟨?_, ?_, fun hr hzero r => ?_⟩
  · obtain ⟨-, -, hres, -⟩ := commandsChangeOnlyTheirDestinations i s t h
    exact hres
  · intro herr
    rcases exec_err_cases h with hzero | ⟨c, rfl, -⟩
    · exact absurd hzero herr
    · rfl
  · have hsame : SameInputs i s { s with res := r } := ⟨rfl, fun _ _ => rfl, fun _ _ => rfl, fun _ => rfl, fun _ => rfl⟩
    rcases exec_cases_of_sameInputs hsame with ⟨c, hexec, -⟩ | ⟨u, u', hexec, hexec', hw⟩ <;> rw [hexec] at h <;> cases h
    · exact absurd hzero c.code_ne_zero
    · rw [hexec']
      cases hw with
      | res v => rfl
      | x _ _ _ hx | xx _ _ _ _ _ hx => obtain ⟨-, hn, -⟩ := hx; rw [hr] at hn; cases hn
      | f _ _ _ hf => obtain ⟨-, -, hn, -⟩ := hf; rw [hr] at hn; cases hn
      | out _ _ _ hn => rw [hr] at hn; cases hn
      | clear hi => subst hi; cases hr

end Sys2Proof.Machine
end

section
/-! The radix converter at the commands (R92, R94, R171, R172): PARSE (O24) and STR (O44). -/

namespace Sys2Proof

/-! ## PARSE (R92, R94) -/

theorem parseString_of_illegal_base {b : Nat} (h : ¬legalBase b) (bs : List Byte) : parseString b bs = .error .invalidBase :=
  if_pos h

/-- Big-endian bytes as a sum over their places (R55, R94). -/
theorem bigEndianValue_eq_sum (bs : List Byte) :
    bigEndianValue bs = ∑ k ∈ Finset.range bs.length, (bs.getD k 0).toNat * 256 ^ (bs.length - 1 - k) := by
  rw [bigEndianValue, magValue_eq_sum, List.length_reverse, ← Finset.sum_range_reflect]
  refine Finset.sum_congr rfl fun k hk => ?_
  have hk : k < bs.length := Finset.mem_range.1 hk
  rw [List.getD_eq_getElem?_getD, List.getElem?_reverse (by omega), ← List.getD_eq_getElem?_getD,
    show bs.length - 1 - (bs.length - 1 - k) = k by omega]

theorem parseString_256 (bs : List Byte) : parseString 256 bs = .ok (bigEndianValue bs : Int) := rfl

/-- In the bases 2 to 16 the marker gives the sign and the rest is accumulated (R92). -/
theorem parseString_marked {b : Nat} (hb : 2 ≤ b ∧ b ≤ 16) (neg : Bool) {cs : List Byte}
    (hcs : neg = false → cs.head? ≠ some minusByte) :
    parseString b ((if neg then [minusByte] else []) ++ cs) =
      (accumChars b 0 cs).map fun acc : Nat => if neg then -(acc : Int) else acc := by
  have hlegal : legalBase b := .inl hb
  have h256 : b ≠ 256 := by omega
  unfold parseString
  rw [if_neg (not_not.2 hlegal), if_neg h256]
  cases neg with
  | true => rfl
  | false =>
    cases cs with
    | nil => rfl
    | cons c cs =>
      have hc : c ≠ minusByte := fun h => hcs rfl (congrArg some h)
      exact if_neg hc

/-! ## STR (R171, R172) -/

/-- Digits accumulated from the left are the digit sequence read from the right (R171). -/
theorem foldl_eq_digitsValue_reverse (b : Nat) (ds : List Nat) :
    ds.foldl (fun acc d => acc * b + d) 0 = digitsValue b ds.reverse := by
  induction ds using List.reverseRecOn with
  | nil => rfl
  | append_singleton ds d ih =>
    rw [List.foldl_append, ih, List.reverse_append, List.reverse_singleton, List.singleton_append, digitsValue, add_comm, mul_comm]
    rfl

/-- R171: no leading zero, but for the single digit of 0. -/
theorem renderDigits_head {a b : Nat} (hb : 2 ≤ b) (h : (renderDigits a b).head? = some 0) : renderDigits a b = [0] := by
  unfold renderDigits at h ⊢
  split
  · rfl
  · next hne =>
    have hnil : digitsOf b a ≠ [] := mt digitsOf_eq_nil_iff.1 hne
    rw [if_neg hne, List.head?_reverse, List.getLast?_eq_getLast_of_ne_nil hnil] at h
    exact absurd (Option.some.inj h) (digitsOf_getLast_ne_zero hb hnil)

/-- R172: STR's output as the statements write it. -/
theorem strBytes_eq_renderDigits (z : Int) (b k : Nat) :
    strBytes z b k = (if z < 0 ∧ b ≤ 16 then [minusByte] else []) ++
      List.replicate (k - (renderDigits z.natAbs b).length) (digitByte b 0) ++ (renderDigits z.natAbs b).map (digitByte b) := by
  rw [strBytes, render_eq, List.length_map]

end Sys2Proof

namespace Sys2Proof.Machine

theorem exec_parse (xd : XReg) (b : Fin 4096) (s : State) :
    exec (.parse xd b) s = s.finish (parseString b.val (Spec.buffer s) >>= writeX s xd) := by
  rw [← content_eq_buffer]; rfl

/-- Settles O24: the base check, then the bytes as digits of base 256, or the marker and the characters after it, the first illegal one or
the end. -/
theorem parseReadsTheString : Obligations.ParseReadsTheString := by
  intro xd b s hs
  rw [exec_parse]
  refine ⟨decode_word (by simp [selectRow]) ⟨rfl, rfl⟩ rfl, fun hb => ?_, fun hb => ?_, fun hb neg cs hbuf hcs => ?_⟩
  · rw [parseString_of_illegal_base hb]; exact finish_error_eq_fault s .invalidBase
  · rw [hb, parseString_256, ok_bind, finish_writeX hs, bigEndianValue_eq_sum, buffer_length]
  · have hparse : parseString b.val (Spec.buffer s) = _ := hbuf ▸ parseString_marked hb neg hcs
    rw [hparse]
    refine ⟨fun hgood => ?_, fun ⟨c, hc, hbad⟩ => ?_⟩
    · rw [accumChars_ok 0 hgood, ← foldl_digits b.val fun c => (digitval c).getD 0]
      exact finish_writeX hs xd _
    · have hillegal : ¬LegalDigit b.val c := fun ⟨d, hd, hlt⟩ => hlt.not_ge (hbad d hd)
      rw [accumChars_error 0 ⟨c, hc, hillegal⟩]
      exact finish_error_eq_fault s .invalidDigit

theorem exec_str_of_some {s : State} {a : XReg} {u : BigInt} (hu : s.x[a] = some u) (b : Fin 4096) :
    exec (.str a b) s = s.finish (
      if ¬legalBase b.val then .error .invalidBase
      else if s.params.tbMax < strLength u.val b.val s.arg.toNat then .error .bufferOverflow
      else writeOutput s (strBytes u.val b.val s.arg.toNat)) := by
  rw [exec, execStr, readX_of hu, ok_bind]

/-- In a legal base the only check left is the output's length, made before any byte is stored (R221). -/
theorem exec_str_of_legalBase {s : State} {a : XReg} {u : BigInt} (hu : s.x[a] = some u) {b : Fin 4096} (hb : legalBase b.val) :
    exec (.str a b) s = s.finish (writeOutput s (strBytes u.val b.val s.arg.toNat)) := by
  rw [exec_str_of_some hu, if_neg (not_not.2 hb), ← strBytes_length]
  split
  · next hover => rw [writeOutput_eq_error.2 ⟨hover, rfl⟩]
  · rfl

/-- Settles O44: the digits are those of `renderDigits`; the output is then `strBytes`, whose length decides between the store and the
fault. -/
theorem strRendersTheValue : Obligations.StrRendersTheValue := by
  intro a b s hs
  refine ⟨decode_word (by simp [selectRow]) ⟨rfl, rfl⟩ rfl, exec_of_x_none rfl (.head _), fun u hu => ⟨fun hb => ?_, fun hb => ?_⟩⟩
  · rw [exec_str_of_some hu, if_pos hb]; exact finish_error_eq_fault s .invalidBase
  · have hb2 : 2 ≤ b.val := by omega
    refine ⟨renderDigits u.val.natAbs b.val, renderDigits_ne_nil _ _, renderDigits_lt hb2, renderDigits_head hb2, ?_, ?_⟩
    · rw [foldl_eq_digitsValue_reverse, renderDigits_value hb2]
    intro char out
    have hout : strBytes u.val b.val s.arg.toNat = out := strBytes_eq_renderDigits ..
    rw [exec_str_of_legalBase hu hb, hout]
    refine ⟨fun hfits => ?_, finish_writeOutput_of_gt⟩
    rw [finish_writeOutput_of_le hfits]
    exact stores_afterOutput (hs.length_lt hfits)

end Sys2Proof.Machine
end

section
/-! The relational pseudo-instructions (R81): what the host's test on RES says after CMP or FEQ (O29). -/

namespace Sys2Proof

/-- R81, R113: each test separates the three comparison results as its relation separates the three orders of two integers. -/
theorem Relation.test_comparisonResult (r : Relation) (y z : Int) :
    r.test (comparisonResult (compare y z)) = true ↔ r.holds y z := by
  rcases lt_trichotomy y z with h | h | h
  case' inl => rw [compare_lt_iff_lt.2 h]
  case' inr.inl => rw [compare_eq_iff_eq.2 h]
  case' inr.inr => rw [compare_gt_iff_gt.2 h]
  all_goals cases r <;> simp [Relation.test, Relation.holds, comparisonResult] <;> omega

end Sys2Proof

namespace Sys2Proof.Machine

/-- Settles O29: CMP leaves the order of the integers, FEQ the equality of the elements, and the tests read just that. -/
theorem relationalTestsReadTheComparison : Obligations.RelationalTestsReadTheComparison := by
  intro s hs
  refine ⟨fun r a b u v hu hv => ⟨_, exec_cmp_of_some hu hv, rfl, ?_⟩, fun a b e g he hg => ?_⟩
  · rw [BigInt.cmp_eq (hs.stored hu).1 (hs.stored hv).1]
    exact r.test_comparisonResult u.val v.val
  · obtain ⟨-, -, hfeq⟩ := feqComparesValueAndModulus a b s hs
    obtain ⟨hone, hzero⟩ := hfeq e g he hg
    by_cases heq : e.value.val = g.value.val ∧ e.modulus.val = g.modulus.val
    · obtain ⟨hval, hexec⟩ := hone heq
      exact ⟨_, hexec, rfl, by simp [Pseudo.test, hval]⟩
    · obtain ⟨hne, hexec⟩ := hzero heq
      exact ⟨_, hexec, rfl, by simp [Pseudo.test, hne]⟩

end Sys2Proof.Machine
end
